-- ==== Sys2Proof/Word.lean ====
section
/-! DEFINITION. The words of the QOI codec engine: bytes, 32-bit header fields, cache slot numbers and
the Colour value type (spec/10_state.md R20). -/

namespace Sys2Proof

/-- A `u8`: one byte of the stream or one channel of a Colour. -/
abbrev Byte := BitVec 8

/-- A `u32`: a width or a height of the header. -/
abbrev Word := BitVec 32

/-- An `idx6`: the number of a colour cache slot, 0 .. 63. -/
abbrev Slot := BitVec 6

/-- R20: a Colour is four 8-bit channels in the order r, g, b, a; equality is exact 4-tuple equality. -/
structure Colour where
  r : Byte
  g : Byte
  b : Byte
  a : Byte
deriving DecidableEq, Repr

end Sys2Proof
end

