-- ==== Sys2Proof/Config.lean ====
section
/-! DEFINITION. The constants of spec/00_scope.md R6 and R7. The spec leaves no instruction an undefined
value (spec/93_implementation_defined.md), so there is no free value here. The two parameters it leaves
open are fixed outside this file: DEC_HEADER_CHECK is strict (92 D8, log 23) and CSR_MAP is not modelled
(92 D3, log 22). -/

namespace Sys2Proof.Config

/-- R6 `RUN_MAX`: the largest run length one RUN chunk carries. -/
def runMax : Nat := 62

/-- R6 `PREV_INIT`: the previous pixel at the start of a run. -/
def prevInit : Colour := ⟨0, 0, 0, 255⟩

/-- R6 `SLOT_INIT`: what an unwritten cache slot reads as. -/
def slotInit : Colour := ⟨0, 0, 0, 0⟩

/-- R6, R64 `MAGIC`: held as the byte sequence, never as a number. -/
def magic : List Byte := [0x71, 0x6F, 0x69, 0x66]

/-- R6, R100 `END_MARKER`. -/
def endMarker : List Byte := [0, 0, 0, 0, 0, 0, 0, 1]

/-- R6 `HDR_LEN`: bytes of magic and header fields. -/
def hdrLen : Nat := 14

/-- R6, R98 `TAG_RGBA`. -/
def tagRGBA : Byte := 0xFF

/-- R7, R97 `TAG_RGB` (the spec's decision D20, log 16). -/
def tagRGB : Byte := 0xFE

end Sys2Proof.Config
end

