-- ==== Sys2Proof/Syntax.lean ====
section
/-! DEFINITION. The instruction set: one constructor for each row of spec/opcode_table.json. Operands are
the encoded fields of spec/30_encoding.md as they stand in the bytes; the bias of R101 is undone where an operand
is used (Machine/Operands.lean). -/

namespace Sys2Proof

/-- R2: six chunk kinds and two frames. -/
inductive Instr where
  /-- HEADER frame (R99): width, height, channels, colorspace. -/
  | header (w h : Word) (ch cs : Byte)
  /-- RGBA literal (R98). -/
  | rgba (r g b a : Byte)
  /-- RGB literal (R97). -/
  | rgb (r g b : Byte)
  /-- INDEX (R93): the cache slot index. -/
  | index (i : Slot)
  /-- DIFF (R94): the three fields `dr + 2`, `dg + 2`, `db + 2`. -/
  | diff (fr fg fb : BitVec 2)
  /-- LUMA (R95): the fields `dg + 32`, `dr_dg + 8`, `db_dg + 8`. -/
  | luma (fg : BitVec 6) (frg fbg : BitVec 4)
  /-- RUN (R96): the field `run_length - 1`, 0 .. 61. -/
  | run (n1 : BitVec 6)
  /-- END frame (R100). -/
  | endMarker
deriving DecidableEq, Repr

end Sys2Proof
end

