-- ==== Sys2Proof/WellFormed.lean ====
section
/-! DEFINITION. Which terms of `Instr` the encoding admits as legal: the header's field ranges
(spec/30_encoding.md R99, R106) and the RUN payload (R96, R105). Every other operand is legal at every
value. A HEADER with an illegal field still decodes: executing it takes the ValidationError of R125. -/

namespace Sys2Proof

/-- R99, R106 and R105 as one decidable check. -/
def Instr.wellFormed : Instr → Bool
  | .header w h ch cs => w != 0 && h != 0 && (ch == 3 || ch == 4) && (cs == 0 || cs == 1)
  | .run n1 => decide (n1.toNat ≤ 61)
  | .rgba _ _ _ _ => true
  | .rgb _ _ _ => true
  | .index _ => true
  | .diff _ _ _ => true
  | .luma _ _ _ => true
  | .endMarker => true

end Sys2Proof
end

