-- ==== Sys2Proof/Decode.lean ====
section
/-! DEFINITION. From bytes to instructions and back (spec/30_encoding.md). Decoding is total on any bytes
and refuses by name. A frame is recognised by its place in the stream, never by dispatch (R99, R100), so the
decoder is told the place; a chunk is classified by its first byte (R91). The encoder `encode` is written
from the same tables. -/

namespace Sys2Proof

/-- Why bytes give no instruction. -/
inductive DecodeError where
  /-- The bytes end before the instruction does (R108). -/
  | truncated
  /-- The first four bytes of the stream are not the magic (R106). -/
  | badMagic
  /-- The bytes left after the last chunk are not exactly the END frame (R100). -/
  | badEndMarker
deriving DecidableEq, Repr

/-- Where in the stream the bytes stand: at offset 0, in the chunk stream, after the last chunk (R68). -/
inductive Place where
  | frameStart
  | chunk
  | trailer
deriving DecidableEq, Repr

/-- The six chunk kinds (R90). -/
inductive ChunkKind where
  | index
  | diff
  | luma
  | run
  | rgb
  | rgba
deriving DecidableEq, Repr

/-- R91: the kind a first byte selects; the two full-byte tags are tested before the top two bits. -/
def classify (b1 : Byte) : ChunkKind :=
  if b1 = Config.tagRGBA then .rgba
  else if b1 = Config.tagRGB then .rgb
  else if b1.extractLsb' 6 2 = 0 then .index
  else if b1.extractLsb' 6 2 = 1 then .diff
  else if b1.extractLsb' 6 2 = 2 then .luma
  else .run

/-- R90: the length of a chunk of a kind, in bytes. -/
def kindLength : ChunkKind → Nat
  | .index => 1
  | .diff => 1
  | .luma => 2
  | .run => 1
  | .rgb => 4
  | .rgba => 5

/-- R92: the length of a chunk from its first byte alone. -/
def chunkLength (b1 : Byte) : Nat := kindLength (classify b1)

/-- R102: four bytes, the most significant first, as one 32-bit number. -/
def be32 (b3 b2 b1 b0 : Byte) : Word := b3 ++ b2 ++ b1 ++ b0

/-- R64: the four bytes of a 32-bit number, the most significant first. -/
def be32Bytes (w : Word) : List Byte :=
  [w.extractLsb' 24 8, w.extractLsb' 16 8, w.extractLsb' 8 8, w.extractLsb' 0 8]

/-- R99: the HEADER frame. The magic is judged once its four bytes are there (R234). -/
def decodeHeader (bs : List Byte) : Except DecodeError (Instr × List Byte) :=
  if bs.length < 4 then .error .truncated
  else if bs.take 4 ≠ Config.magic then .error .badMagic
  else
    match bs.drop 4 with
    | w3 :: w2 :: w1 :: w0 :: h3 :: h2 :: h1 :: h0 :: ch :: cs :: rest =>
        .ok (.header (be32 w3 w2 w1 w0) (be32 h3 h2 h1 h0) ch cs, rest)
    | _ => .error .truncated

/-- R93 to R98: one chunk, and the bytes after it. Payload bytes are never classified (R92). -/
def decodeChunk : List Byte → Except DecodeError (Instr × List Byte)
  | [] => .error .truncated
  | b1 :: rest =>
    match classify b1 with
    | .index => .ok (.index (b1.extractLsb' 0 6), rest)
    | .diff => .ok (.diff (b1.extractLsb' 4 2) (b1.extractLsb' 2 2) (b1.extractLsb' 0 2), rest)
    | .run => .ok (.run (b1.extractLsb' 0 6), rest)
    | .luma =>
      match rest with
      | b2 :: rest' =>
          .ok (.luma (b1.extractLsb' 0 6) (b2.extractLsb' 4 4) (b2.extractLsb' 0 4), rest')
      | _ => .error .truncated
    | .rgb =>
      match rest with
      | r :: g :: b :: rest' => .ok (.rgb r g b, rest')
      | _ => .error .truncated
    | .rgba =>
      match rest with
      | r :: g :: b :: a :: rest' => .ok (.rgba r g b a, rest')
      | _ => .error .truncated

/-- R100: the END frame is exactly these eight bytes, compared as a whole. -/
def decodeEnd (bs : List Byte) : Except DecodeError (Instr × List Byte) :=
  if bs = Config.endMarker then .ok (.endMarker, []) else .error .badEndMarker

/-- The instruction at a place of the stream, and the bytes after it. -/
def decode : Place → List Byte → Except DecodeError (Instr × List Byte)
  | .frameStart, bs => decodeHeader bs
  | .chunk, bs => decodeChunk bs
  | .trailer, bs => decodeEnd bs

/-- Where an instruction stands in a stream (R68). -/
def placeOf : Instr → Place
  | .header _ _ _ _ => .frameStart
  | .endMarker => .trailer
  | .rgba _ _ _ _ => .chunk
  | .rgb _ _ _ => .chunk
  | .index _ => .chunk
  | .diff _ _ _ => .chunk
  | .luma _ _ _ => .chunk
  | .run _ => .chunk

/-- R93 to R100: the bytes of an instruction, the lowest offset first. -/
def encode : Instr → List Byte
  | .header w h ch cs => Config.magic ++ be32Bytes w ++ be32Bytes h ++ [ch, cs]
  | .rgba r g b a => [Config.tagRGBA, r, g, b, a]
  | .rgb r g b => [Config.tagRGB, r, g, b]
  | .index i => [(0b00#2 ++ i : Byte)]
  | .diff fr fg fb => [(0b01#2 ++ fr ++ fg ++ fb : Byte)]
  | .luma fg frg fbg => [(0b10#2 ++ fg : Byte), (frg ++ fbg : Byte)]
  | .run n1 => [(0b11#2 ++ n1 : Byte)]
  | .endMarker => Config.endMarker

/-- R90: the length of an instruction in bytes. -/
def instrLength : Instr → Nat
  | .header _ _ _ _ => 14
  | .rgba _ _ _ _ => 5
  | .rgb _ _ _ => 4
  | .index _ => 1
  | .diff _ _ _ => 1
  | .luma _ _ _ => 2
  | .run _ => 1
  | .endMarker => 8

/-- `n` bytes of a number, the byte of bits 7:0 first. -/
def bytesOfNat : Nat → Nat → List Byte
  | 0, _ => []
  | n + 1, w => BitVec.ofNat 8 w :: bytesOfNat n (w / 256)

/-- The bytes of an instruction whose bits the opcode table numbers as `w`, up to the longest instruction.
The HEADER row's match is a big-endian 32-bit number and the END row's a big-endian 64-bit number, as their
`match_scope` says; every other row's bits are numbered from its first byte on (log 17). -/
def tableBytes (nbits w : Nat) : List Byte :=
  if 32 ≤ nbits ∧ w % 2 ^ 32 = 0x716F6966 then Config.magic ++ bytesOfNat 10 (w / 2 ^ 32)
  else if nbits = 64 ∧ w = 1 then Config.endMarker
  else bytesOfNat 14 w

/-- The place the table's row stands at: HEADER by its magic, END by its eight bytes, else the chunk
stream (log 17). -/
def tablePlace (nbits w : Nat) : Place :=
  if 32 ≤ nbits ∧ (tableBytes nbits w).take 4 = Config.magic then .frameStart
  else if nbits = 64 ∧ (tableBytes nbits w).take 8 = Config.endMarker then .trailer
  else .chunk

/-- The bytes as they stand in the stream: the END frame is exactly eight bytes long. -/
def tableStream (nbits w : Nat) : List Byte :=
  match tablePlace nbits w with
  | .trailer => (tableBytes nbits w).take 8
  | .frameStart => tableBytes nbits w
  | .chunk => tableBytes nbits w

/-- The instruction the decoder reads from an instruction whose bits are `w`. -/
def decodeTableWord (nbits w : Nat) : Option Instr :=
  match decode (tablePlace nbits w) (tableStream nbits w) with
  | .ok (i, _) => some i
  | .error _ => none

end Sys2Proof
end

