-- ==== Sys2Proof/Machine/State.lean ====
section
/-! DEFINITION. The state of the machine: the encoder engine (spec/10_state.md R22), the decoder engine
(R23), the four data ports (R30, R32) and the host's pending inputs, as plain data; the fault and refusal
reasons; the state after hardware reset (spec/70_reset_and_hazards.md R260). -/

namespace Sys2Proof.Machine

/-- A stream held as (address, byte) pairs, addresses strictly rising (`Memory.wf`). -/
abbrev Memory := List Host.Cell

/-- R31: the colour cache, 64 slots, each a whole Colour. -/
abbrev Cache := Vector Colour 64

/-- R21: the Header. -/
structure Header where
  w : Word
  h : Word
  ch : Byte
  cs : Byte
deriving DecidableEq, Repr

/-- R230: the four values of `ERR`. -/
inductive ErrKind where
  | none
  | format
  | truncated
  | validation
deriving DecidableEq, Repr

/-- R22, R28: the phases of the encoder. -/
inductive EncPhase where
  | idle
  | header
  | pixels
  | finish
  | done
  | error
deriving DecidableEq, Repr

/-- R23, R28: the phases of the decoder. -/
inductive DecPhase where
  | idle
  | header
  | chunks
  | trailer
  | done
  | error
deriving DecidableEq, Repr

/-- R35: the two engines. -/
inductive Engine where
  | enc
  | dec
deriving DecidableEq, Repr

/-- What the host can do to the machine between steps (R30, R240, R262, R268; log 8). -/
inductive Input where
  /-- `ENC.START(W, H, CH, CS)` (R120). -/
  | encStart (w h : Word) (ch cs : Byte)
  /-- `DEC.START(BLEN)` (R240). -/
  | decStart (blen : BitVec 64)
  /-- The host offers the next pixel on `ENC.pix_in` (R63). -/
  | offerPixel (c : Colour)
  /-- The host offers the next byte on `DEC.byte_in` (R60). -/
  | offerByte (b : Byte)
  /-- The host writes pixel `k` of the encoder's input buffer out of order (93 U7). -/
  | alterPixel (k : Nat) (c : Colour)
  /-- The host writes byte `off` of the decoder's input buffer out of order (93 U7). -/
  | alterByte (off : Nat) (b : Byte)
  /-- The host begins or stops accepting on `ENC.byte_out` (R268). -/
  | encAccept (ready : Bool)
  /-- The host begins or stops accepting on `DEC.pix_out` (R268). -/
  | decAccept (ready : Bool)
  /-- Hardware reset (R260). -/
  | hardReset
  /-- The engine that moves now, where both could (log 9). -/
  | turn (e : Engine)
deriving DecidableEq, Repr

/-- R22: the encoder engine, with its two ports. -/
structure Enc where
  /-- `HDR` -/
  hdr : Header
  /-- `NPIX` -/
  npix : Nat
  /-- `PIDX` -/
  pidx : Nat
  /-- `BOUT` -/
  bout : Nat
  /-- `PREV` -/
  prev : Colour
  /-- `CACHE` -/
  cache : Cache
  /-- `RUN` -/
  run : Nat
  /-- `PHASE` -/
  phase : EncPhase
  /-- `ERR` -/
  err : ErrKind
  /-- port `ENC.pix_in`: the pixels offered in this run, as the flat buffer of R63 -/
  pixIn : Memory
  /-- port `ENC.byte_out`: the output stream O of this run (R62) -/
  byteOut : Memory
  /-- MODEL's own: the host accepts on `ENC.byte_out` (log 11) -/
  outReady : Bool
deriving DecidableEq, Repr

/-- R23: the decoder engine, with its two ports. -/
structure Dec where
  /-- `BLEN` -/
  blen : Nat
  /-- `BPOS`, the program counter (R27) -/
  bpos : Nat
  /-- `HDR`; no value until the header is parsed in this run (R34) -/
  hdr : Option Header
  /-- `NPIX`; no value until the header is parsed in this run (R34) -/
  npix : Option Nat
  /-- `PCNT` -/
  pcnt : Nat
  /-- `PREV` -/
  prev : Colour
  /-- `CACHE` -/
  cache : Cache
  /-- `RREM` -/
  rrem : Nat
  /-- `PHASE` -/
  phase : DecPhase
  /-- `ERR` -/
  err : ErrKind
  /-- `ERRPOS` -/
  errpos : Nat
  /-- `END_MISMATCH` -/
  endMismatch : Bool
  /-- `RUN_CLIP` -/
  runClip : Bool
  /-- port `DEC.byte_in`: the bytes S offered in this run (R60) -/
  byteIn : Memory
  /-- port `DEC.pix_out`: the output pixels Q of this run, as the flat buffer of R63 -/
  pixOut : Memory
  /-- MODEL's own: the host accepts on `DEC.pix_out` (log 11) -/
  outReady : Bool
deriving DecidableEq, Repr

/-- The whole machine: two engines that share nothing (R35), and what the host does next. -/
structure State where
  enc : Enc
  dec : Dec
  /-- MODEL's own: the host's pending inputs, oldest first (log 8) -/
  inputs : List Input
deriving DecidableEq, Repr

/-- Nothing raises a fault: the three errors of R230 are states of the engine (`Dec.raise`, `Enc.raise`), and
spec/93_implementation_defined.md treats nothing as a fault. Safe: there is no constructor to raise. -/
inductive Fault where
deriving DecidableEq, Repr

/-- Why the model gives a step no meaning. -/
inductive Refusal where
  /-- Raised by an arm of `exec` whose instruction has no meaning yet; no arm raises it. Safe. -/
  | notModelled (mnemonic : String)
  /-- Raised by `hostInput` when the host writes an input buffer out of order while a run that reads it is in
  progress (93 U7: "the model gives the launch no meaning"). Safe: the model stops. -/
  | inputAltered
deriving DecidableEq, Repr

/-- R73, R34: the cache at the start of a run. -/
def freshCache : Cache := Vector.replicate 64 Config.slotInit

/-- R260 for the encoder. `HDR` and `NPIX` are unspecified there: 0 is the model's value (log 2). -/
def Enc.reset : Enc where
  hdr := ⟨0, 0, 0, 0⟩
  npix := 0
  pidx := 0
  bout := 0
  prev := Config.prevInit
  cache := freshCache
  run := 0
  phase := .idle
  err := .none
  pixIn := []
  byteOut := []
  outReady := true

/-- R260 for the decoder. `BLEN` is unspecified there: 0 is the model's value (log 2); `HDR` and `NPIX` have
no value (R34, log 3). -/
def Dec.reset : Dec where
  blen := 0
  bpos := 0
  hdr := none
  npix := none
  pcnt := 0
  prev := Config.prevInit
  cache := freshCache
  rrem := 0
  phase := .idle
  err := .none
  errpos := 0
  endMismatch := false
  runClip := false
  byteIn := []
  pixOut := []
  outReady := true

/-- R260: the machine right after hardware reset. -/
def State.reset : State where
  enc := Enc.reset
  dec := Dec.reset
  inputs := []

end Sys2Proof.Machine
end

