-- ==== Sys2Proof/Machine/Ops.lean ====
section
/-! DEFINITION. The named operations over streams, cache and registers: memory cells, the four stream
primitives of spec/20_memory.md (R61 to R63), the cache's hash, lookup and store (spec/41_colour_cache.md),
`raise` (spec/60_exceptions.md R235), and the shared frame of the decoder's chunk steps (spec/44_decoder.md
R201, R209). -/

namespace Sys2Proof.Machine

/-! ### Memory cells -/

/-- What an unlisted address reads as: no value, nothing was offered or written there (log 6). -/
def Memory.unlisted : Option Byte := none

/-- One byte of a stream. -/
def Memory.read : Memory → Nat → Option Byte
  | [], _ => Memory.unlisted
  | (k, v) :: m, a => if a = k then some v else Memory.read m a

/-- Writes one byte, keeping the addresses strictly rising. -/
def Memory.write : Memory → Nat → Byte → Memory
  | [], a, b => [(a, b)]
  | (k, v) :: m, a, b =>
    if a < k then (a, b) :: (k, v) :: m
    else if a = k then (a, b) :: m
    else (k, v) :: Memory.write m a b

/-- Drops the cells of the addresses from `lo` up to `hi`, `hi` not included. -/
def Memory.dropRange (m : Memory) (lo hi : Nat) : Memory :=
  m.filter fun c => !(decide (lo ≤ c.1) && decide (c.1 < hi))

/-- The address after the last listed one: where the next item of a stream goes. -/
def Memory.next : Memory → Nat
  | [] => 0
  | [c] => c.1 + 1
  | _ :: c :: m => Memory.next (c :: m)

/-- The `n` bytes from an address on, if every one of them is there. -/
def Memory.readMany (m : Memory) : Nat → Nat → Option (List Byte)
  | _, 0 => some []
  | a, n + 1 =>
    match m.read a, Memory.readMany m (a + 1) n with
    | some b, some bs => some (b :: bs)
    | _, _ => none

/-- Writes bytes at rising addresses. -/
def Memory.writeMany (m : Memory) : Nat → List Byte → Memory
  | _, [] => m
  | a, b :: bs => Memory.writeMany (m.write a b) (a + 1) bs

/-- The canonical form: addresses strictly rising. A listed cell holds a byte and an unlisted address reads
as no value, so no cell equals what its address reads as unlisted. -/
abbrev Memory.wf (m : Memory) : Prop := m.Pairwise fun x y => x.1 < y.1

/-- R63: pixel `k` of a flat buffer is the bytes 4k (r), 4k+1 (g), 4k+2 (b), 4k+3 (a). -/
def Memory.readColour (m : Memory) (k : Nat) : Option Colour :=
  match m.read (4 * k), m.read (4 * k + 1), m.read (4 * k + 2), m.read (4 * k + 3) with
  | some r, some g, some b, some a => some ⟨r, g, b, a⟩
  | _, _, _, _ => none

/-- R63: writes pixel `k` of a flat buffer, whole (R67). -/
def Memory.writeColour (m : Memory) (k : Nat) (c : Colour) : Memory :=
  m.writeMany (4 * k) [c.r, c.g, c.b, c.a]

/-! ### The colour cache -/

/-- R140: the products and the sum are integers, reduced once. -/
def colourHash (c : Colour) : Slot :=
  BitVec.ofNat 6 ((c.r.toNat * 3 + c.g.toNat * 5 + c.b.toNat * 7 + c.a.toNat * 11) % 64)

/-- R142: the slot's current value, a copy of the whole Colour. -/
def Cache.lookup (k : Cache) (i : Slot) : Colour := k[i.toNat]

/-- R143: writes the Colour into the slot of its hash, unconditionally. -/
def Cache.store (k : Cache) (c : Colour) : Cache := k.set (colourHash c).toNat c

/-! ### Encoder registers and ports -/

/-- R62 `ByteWrite`. -/
def Enc.byteWrite (e : Enc) (b : Byte) : Enc :=
  { e with byteOut := e.byteOut.write e.bout b, bout := e.bout + 1 }

/-- R62, several times, in order. -/
def Enc.bytesWrite (e : Enc) : List Byte → Enc
  | [] => e
  | b :: bs => Enc.bytesWrite (e.byteWrite b) bs

/-- R63 `PixRead`: the next pixel, or none while the host has not offered it (R268). -/
def Enc.pixRead (e : Enc) : Option (Colour × Enc) :=
  match e.pixIn.readColour e.pidx with
  | some c => some (c, { e with pidx := e.pidx + 1 })
  | none => none

/-- R143 on the encoder's cache. -/
def Enc.store (e : Enc) (c : Colour) : Enc := { e with cache := e.cache.store c }

/-- R179: `PREV <- c`. -/
def Enc.setPrev (e : Enc) (c : Colour) : Enc := { e with prev := c }

/-- R25: writes the run-length counter. -/
def Enc.setRun (e : Enc) (n : Nat) : Enc := { e with run := n }

/-- R28: a phase change. -/
def Enc.setPhase (e : Enc) (p : EncPhase) : Enc := { e with phase := p }

/-- R235 `raise` on the encoder, which records no position. -/
def Enc.raise (e : Enc) (k : ErrKind) : Enc := { e with err := k, phase := .error }

/-! ### Decoder registers and ports -/

/-- R235 `raise` on the decoder: `ERR`, `ERRPOS` and `PHASE`, and nothing else. -/
def Dec.raise (d : Dec) (k : ErrKind) : Dec :=
  { d with err := k, errpos := d.bpos, phase := .error }

/-- R28: a phase change. -/
def Dec.setPhase (d : Dec) (p : DecPhase) : Dec := { d with phase := p }

/-- R27: the program counter moves past `n` bytes. -/
def Dec.advance (d : Dec) (n : Nat) : Dec := { d with bpos := d.bpos + n }

/-- R63 `PixWrite`. -/
def Dec.pixWrite (d : Dec) (c : Colour) : Dec :=
  { d with pixOut := d.pixOut.writeColour d.pcnt c, pcnt := d.pcnt + 1 }

/-- R143 on the decoder's cache. -/
def Dec.store (d : Dec) (c : Colour) : Dec := { d with cache := d.cache.store c }

/-- R209: `PREV <- c`. -/
def Dec.setPrev (d : Dec) (c : Colour) : Dec := { d with prev := c }

/-- R215: the repetitions still owed. -/
def Dec.setRrem (d : Dec) (n : Nat) : Dec := { d with rrem := n }

/-- R212: the warning flag. -/
def Dec.clip (d : Dec) : Dec := { d with runClip := true }

/-- What reading from `DEC.byte_in` gives. -/
inductive ReadResult (α : Type) where
  /-- The value, and the decoder past the bytes read. -/
  | got (v : α) (d : Dec)
  /-- A byte was needed at BLEN: the decoder has raised TruncatedStreamError (R61). -/
  | short (d : Dec)
  /-- The host has not offered a needed byte yet (R268). -/
  | waiting

/-- R61 `ByteRead`. -/
def Dec.byteRead (d : Dec) : ReadResult Byte :=
  if d.blen ≤ d.bpos then .short (d.raise .truncated)
  else
    match d.byteIn.read d.bpos with
    | some b => .got b (d.advance 1)
    | none => .waiting

/-- R61: `ByteRead` n times, in stream order. -/
def Dec.readBytes (d : Dec) : Nat → ReadResult (List Byte)
  | 0 => .got [] d
  | n + 1 =>
    match d.byteRead with
    | .short d1 => .short d1
    | .waiting => .waiting
    | .got b d1 =>
      match Dec.readBytes d1 n with
      | .got bs d2 => .got (b :: bs) d2
      | .short d2 => .short d2
      | .waiting => .waiting

/-- R213: reading to the end of the stream and one byte further. -/
def Dec.truncate (d : Dec) : Dec := Dec.raise { d with bpos := d.blen } .truncated

/-- R210: pixels are still owed, `PCNT < NPIX`. -/
def Dec.owes (d : Dec) : Bool :=
  match d.npix with
  | some n => decide (d.pcnt < n)
  | none => false

/-- R201 `done:` the chunk phase is left when `PCNT = NPIX`. -/
def Dec.leaveChunks (d : Dec) : Dec := if d.owes then d else d.setPhase .trailer

/-- R209: the state update after a single-pixel chunk. -/
def Dec.single (px : Colour) (d : Dec) : Dec := ((d.pixWrite px).store px).setPrev px

/-- R201: one chunk of `len` bytes whose work is `act`. It fires in CHUNKS while `PCNT < NPIX`; its bytes are
read before its work is done, and a missing byte raises TruncatedStreamError (R213). No chunk rule fires
elsewhere (R211), so elsewhere nothing changes. -/
def Dec.chunk (len : Nat) (act : Dec → Dec) (d : Dec) : Dec :=
  if d.phase = .chunks ∧ d.owes = true then
    if d.bpos + len ≤ d.blen then (act (d.advance len)).leaveChunks else d.truncate
  else d

/-! ### The whole machine -/

/-- The machine with another decoder state. -/
def State.setDec (s : State) (d : Dec) : State := { s with dec := d }

/-- The machine with another encoder state. -/
def State.setEnc (s : State) (e : Enc) : State := { s with enc := e }

/-- The machine with other pending inputs. -/
def State.setInputs (s : State) (l : List Input) : State := { s with inputs := l }

end Sys2Proof.Machine
end

