-- ==== Sys2Proof/Machine/Operands.lean ====
section
/-! DEFINITION. Operand forms and the delta-arithmetic unit: biased fields (spec/30_encoding.md R101), the
wrapping primitives (spec/00_scope.md section 5), channel deltas (spec/42_delta_unit.md R151, R153) and their
application (R156, R157). Every value is computed exactly as an integer and narrowed once (R158). -/

namespace Sys2Proof.Machine

/-- `wrap8`: the byte congruent to an integer modulo 256. -/
def wrap8 (x : Int) : Byte := BitVec.ofInt 8 x

/-- `sgn8`: the number in -128 .. 127 congruent to an integer modulo 256. -/
def sgn8 (x : Int) : Int := (BitVec.ofInt 8 x).toInt

/-- R101: the value of a biased field, the unsigned field minus its bias. -/
def unbias (k : Nat) (f : Nat) : Int := (f : Int) - k

/-- R96, R101: the run length of a RUN payload. -/
def runLength (n1 : BitVec 6) : Nat := n1.toNat + 1

/-- R151: the delta of one channel. -/
def chanDelta (cur prev : Byte) : Int := sgn8 ((cur.toNat : Int) - prev.toNat)

/-- R151: `dr`. -/
def deltaR (cur prev : Colour) : Int := chanDelta cur.r prev.r

/-- R151: `dg`. -/
def deltaG (cur prev : Colour) : Int := chanDelta cur.g prev.g

/-- R151: `db`. -/
def deltaB (cur prev : Colour) : Int := chanDelta cur.b prev.b

/-- R153: `dr_dg`. -/
def deltaRG (cur prev : Colour) : Int := sgn8 (deltaR cur prev - deltaG cur prev)

/-- R153: `db_dg`. -/
def deltaBG (cur prev : Colour) : Int := sgn8 (deltaB cur prev - deltaG cur prev)

/-- R156 `diff_apply`. -/
def diffApply (prev : Colour) (dr dg db : Int) : Colour where
  r := wrap8 (prev.r.toNat + dr)
  g := wrap8 (prev.g.toNat + dg)
  b := wrap8 (prev.b.toNat + db)
  a := prev.a

/-- R157 `luma_apply`. -/
def lumaApply (prev : Colour) (dg drdg dbdg : Int) : Colour where
  r := wrap8 (prev.r.toNat + drdg + dg)
  g := wrap8 (prev.g.toNat + dg)
  b := wrap8 (prev.b.toNat + dbdg + dg)
  a := prev.a

/-- R175: the DIFF byte of three deltas. -/
def diffByte (dr dg db : Int) : Byte := wrap8 (0x40 + 16 * (dr + 2) + 4 * (dg + 2) + (db + 2))

/-- R176: the first LUMA byte. -/
def lumaByte0 (dg : Int) : Byte := wrap8 (0x80 + (dg + 32))

/-- R176: the second LUMA byte. -/
def lumaByte1 (drdg dbdg : Int) : Byte := wrap8 (16 * (drdg + 8) + (dbdg + 8))

/-- R173: the RUN byte of a run length. -/
def runByte (n : Nat) : Byte := BitVec.ofNat 8 (0xC0 + (n - 1))

/-- R126: the pixel count, computed without wrap. -/
def pixelCount (w h : Word) : Nat := w.toNat * h.toNat

end Sys2Proof.Machine
end

