-- ==== Sys2Proof/Machine/Flags.lean ====
section
/-! DEFINITION. The tests and the status flags: the validity of a Header (spec/10_state.md R21), the range
tests and the alpha gate of the delta unit (spec/42_delta_unit.md R152, R153, R155), the error codes
(spec/60_exceptions.md R230). The hardware has no condition codes (spec/10_state.md R29): a test is consumed
in the step that makes it. -/

namespace Sys2Proof.Machine

/-- R21: width and height positive, channels 3 or 4, colorspace 0 or 1. -/
def Header.valid (h : Header) : Bool :=
  decide (0 < h.w.toNat) && decide (0 < h.h.toNat) && (h.ch == 3 || h.ch == 4) && (h.cs == 0 || h.cs == 1)

/-- R126 on a Header. -/
def Header.pixels (h : Header) : Nat := pixelCount h.w h.h

/-- R230: the code of an error kind, as the host reads it. -/
def ErrKind.code : ErrKind → BitVec 2
  | .none => 0
  | .format => 1
  | .truncated => 2
  | .validation => 3

/-- R150: `lo <= d <= hi`. -/
def inRange (lo hi d : Int) : Bool := decide (lo ≤ d) && decide (d ≤ hi)

/-- R155: the alpha gate, exact byte equality. -/
def alphaSame (cur prev : Colour) : Bool := cur.a == prev.a

/-- R152 `diff_fits`. -/
def diffFits (cur prev : Colour) : Bool :=
  alphaSame cur prev && inRange (-2) 1 (deltaR cur prev) && inRange (-2) 1 (deltaG cur prev) &&
    inRange (-2) 1 (deltaB cur prev)

/-- R153 `luma_fits`. -/
def lumaFits (cur prev : Colour) : Bool :=
  alphaSame cur prev && inRange (-32) 31 (deltaG cur prev) && inRange (-8) 7 (deltaRG cur prev) &&
    inRange (-8) 7 (deltaBG cur prev)

/-- R240: an encoder that accepts a start command. -/
def Enc.accepts (e : Enc) : Bool := e.phase == .idle || e.phase == .done || e.phase == .error

/-- R240: a decoder that accepts a start command. -/
def Dec.accepts (d : Dec) : Bool := d.phase == .idle || d.phase == .done || d.phase == .error

end Sys2Proof.Machine
end

