-- ==== Sys2Proof/Machine/Chunks.lean ====
section
/-! DEFINITION. The decoder forms of the six chunks (spec/44_decoder.md R203 to R208), each a meaning of its
own over the shared frame `Dec.chunk` (R201) and the shared state update `Dec.single` (R209). -/

namespace Sys2Proof.Machine

/-- A chunk step of the decoder as a step of the machine; the encoder is not touched (R35). -/
def chunkStep (len : Nat) (act : Dec → Dec) (s : State) : Host.Outcome State Fault Refusal :=
  .next (s.setDec (s.dec.chunk len act))

/-- R203: the pixel is exactly the four payload bytes. -/
def execRgba (r g b a : Byte) (s : State) : Host.Outcome State Fault Refusal :=
  chunkStep 5 (Dec.single ⟨r, g, b, a⟩) s

/-- R204: the three payload bytes, with the alpha of `PREV`. -/
def execRgb (r g b : Byte) (s : State) : Host.Outcome State Fault Refusal :=
  chunkStep 4 (fun d => d.single ⟨r, g, b, d.prev.a⟩) s

/-- R205: the content of the slot, whole; the store then goes to the slot of its hash. -/
def execIndex (i : Slot) (s : State) : Host.Outcome State Fault Refusal :=
  chunkStep 1 (fun d => d.single (d.cache.lookup i)) s

/-- R206: the three deltas, each its field minus 2, added to `PREV` (R156). -/
def execDiff (fr fg fb : BitVec 2) (s : State) : Host.Outcome State Fault Refusal :=
  chunkStep 1
    (fun d => d.single (diffApply d.prev (unbias 2 fr.toNat) (unbias 2 fg.toNat) (unbias 2 fb.toNat))) s

/-- R207: `dg` is its field minus 32, `dr_dg` and `db_dg` theirs minus 8 (R157). -/
def execLuma (fg : BitVec 6) (frg fbg : BitVec 4) (s : State) : Host.Outcome State Fault Refusal :=
  chunkStep 2
    (fun d => d.single (lumaApply d.prev (unbias 32 fg.toNat) (unbias 8 frg.toNat) (unbias 8 fbg.toNat))) s

/-- R208, R212 and R215: repeat `PREV` `n` times; if the image is complete first, set RUN_CLIP and stop.
`RREM` holds the repetitions still owed and is 0 at the end. -/
def Dec.repeatPrev : Nat → Dec → Dec
  | 0, d => d.setRrem 0
  | n + 1, d =>
    if d.owes then Dec.repeatPrev n (((d.setRrem (n + 1)).pixWrite d.prev).store d.prev)
    else (d.clip).setRrem 0

/-- R208: the run length is the payload plus 1; `PREV` is unchanged. -/
def execRun (n1 : BitVec 6) (s : State) : Host.Outcome State Fault Refusal :=
  chunkStep 1 (Dec.repeatPrev (runLength n1)) s

end Sys2Proof.Machine
end

