-- ==== Sys2Proof/Machine/Framer.lean ====
section
/-! DEFINITION. The decoder forms of the two frames (spec/40_header_framer.md R123 to R126, R129). -/

namespace Sys2Proof.Machine

/-- R123: the fields are stored, then checked (R125); a valid Header gives `NPIX` (R126) and CHUNKS. -/
def Dec.takeHeader (h : Header) (d : Dec) : Dec :=
  if h.valid then { d with hdr := some h, npix := some h.pixels, phase := .chunks }
  else Dec.raise { d with hdr := some h } .validation

/-- R123: the HEADER frame fires once, in PHASE = HEADER; it is 14 bytes long, and a missing byte raises
TruncatedStreamError. Elsewhere it does not fire (R28). -/
def execHeader (w h : Word) (ch cs : Byte) (s : State) : Host.Outcome State Fault Refusal :=
  .next <| s.setDec <|
    if s.dec.phase = .header then
      if s.dec.bpos + Config.hdrLen ≤ s.dec.blen then (s.dec.advance Config.hdrLen).takeHeader ⟨w, h, ch, cs⟩
      else s.dec.truncate
    else s.dec

/-- R129: the bytes left after the last chunk, if the host has offered them all. -/
def Dec.trail (d : Dec) : Option (List Byte) := d.byteIn.readMany d.bpos (d.blen - d.bpos)

/-- R129: compare, drain, DONE; `BPOS` does not move. -/
def Dec.checkTrailer (t : List Byte) (d : Dec) : Dec :=
  { d with
    endMismatch := decide (t ≠ Config.endMarker)
    byteIn := d.byteIn.dropRange d.bpos d.blen
    phase := .done }

/-- R129: the trailer check fires once, in PHASE = TRAILER, once the trailing bytes are there to compare
(R268). It raises no error. -/
def execEndMarker (s : State) : Host.Outcome State Fault Refusal :=
  .next <| s.setDec <|
    match s.dec.phase, s.dec.trail with
    | .trailer, some t => s.dec.checkTrailer t
    | _, _ => s.dec

end Sys2Proof.Machine
end

