-- ==== Sys2Proof/Machine/Dispatch.lean ====
section
/-! DEFINITION. The meaning of every instruction: what the decoder does when it executes it. -/

namespace Sys2Proof.Machine

def exec (i : Instr) (s : State) : Host.Outcome State Fault Refusal :=
  match i with
  | .header w h ch cs => Sys2Proof.Machine.execHeader w h ch cs s
  | .rgba r g b a => Sys2Proof.Machine.execRgba r g b a s
  | .rgb r g b => Sys2Proof.Machine.execRgb r g b s
  | .index k => Sys2Proof.Machine.execIndex k s
  | .diff fr fg fb => Sys2Proof.Machine.execDiff fr fg fb s
  | .luma fg frg fbg => Sys2Proof.Machine.execLuma fg frg fbg s
  | .run n1 => Sys2Proof.Machine.execRun n1 s
  | .endMarker => Sys2Proof.Machine.execEndMarker s

end Sys2Proof.Machine
end

