-- ==== Sys2Proof/Machine/Encoder.lean ====
section
/-! DEFINITION. The encoder engine: the encoder form of every row of the opcode table (spec/40_header_framer.md
R122, R127, spec/43_encoder.md R172 to R178), the per-pixel decision EncPixel (R171), EncFinish (R180), and
one step of the engine. The bytes are written from the arithmetic of these rules, not by `encode`. -/

namespace Sys2Proof.Machine

/-- R122: HEADER, encoder form. -/
def Enc.emitHeader (e : Enc) : Enc :=
  (e.bytesWrite
    [0x71, 0x6F, 0x69, 0x66,
     e.hdr.w.extractLsb' 24 8, e.hdr.w.extractLsb' 16 8, e.hdr.w.extractLsb' 8 8, e.hdr.w.extractLsb' 0 8,
     e.hdr.h.extractLsb' 24 8, e.hdr.h.extractLsb' 16 8, e.hdr.h.extractLsb' 8 8, e.hdr.h.extractLsb' 0 8,
     e.hdr.ch, e.hdr.cs]).setPhase .pixels

/-- R173 `FlushRun`: RUN, encoder form. -/
def Enc.flushRun (e : Enc) : Enc := ((e.byteWrite (runByte e.run)).store e.prev).setRun 0

/-- R172: run extension, with the flush at 62. -/
def Enc.extendRun (e : Enc) : Enc :=
  if e.run + 1 = Config.runMax then (e.setRun (e.run + 1)).flushRun else e.setRun (e.run + 1)

/-- R174: INDEX, encoder form. -/
def Enc.emitIndex (cur : Colour) (e : Enc) : Enc := e.byteWrite ((colourHash cur).setWidth 8)

/-- R175: DIFF, encoder form. -/
def Enc.emitDiff (cur : Colour) (e : Enc) : Enc :=
  e.byteWrite (diffByte (deltaR cur e.prev) (deltaG cur e.prev) (deltaB cur e.prev))

/-- R176: LUMA, encoder form. -/
def Enc.emitLuma (cur : Colour) (e : Enc) : Enc :=
  e.bytesWrite [lumaByte0 (deltaG cur e.prev), lumaByte1 (deltaRG cur e.prev) (deltaBG cur e.prev)]

/-- R177: RGB, encoder form. -/
def Enc.emitRgb (cur : Colour) (e : Enc) : Enc := e.bytesWrite [0xFE, cur.r, cur.g, cur.b]

/-- R178: RGBA, encoder form. -/
def Enc.emitRgba (cur : Colour) (e : Enc) : Enc := e.bytesWrite [0xFF, cur.r, cur.g, cur.b, cur.a]

/-- R171, R181: the first of INDEX, DIFF, LUMA, RGB, RGBA that applies. -/
def Enc.emitPixel (cur : Colour) (e : Enc) : Enc :=
  if e.cache.lookup (colourHash cur) = cur then e.emitIndex cur
  else if diffFits cur e.prev then e.emitDiff cur
  else if lumaFits cur e.prev then e.emitLuma cur
  else if alphaSame cur e.prev then e.emitRgb cur
  else e.emitRgba cur

/-- R171, R180: the pending run, if there is one, is flushed. -/
def Enc.flushPending (e : Enc) : Enc := if 0 < e.run then e.flushRun else e

/-- R171 `EncPixel` for the pixel just read: case 1, or the flush, the chunk and the update of R179. -/
def Enc.pixelStep (cur : Colour) (e : Enc) : Enc :=
  if cur = e.prev then e.extendRun
  else ((e.flushPending.emitPixel cur).store cur).setPrev cur

/-- R171: the pixel phase is left when `PIDX = NPIX`. -/
def Enc.leavePixels (e : Enc) : Enc := if e.pidx < e.npix then e else e.setPhase .finish

/-- R127: END, encoder form. -/
def Enc.emitEnd (e : Enc) : Enc := (e.bytesWrite [0, 0, 0, 0, 0, 0, 0, 1]).setPhase .done

/-- R180 `EncFinish`. -/
def Enc.finish (e : Enc) : Enc := e.flushPending.emitEnd

/-- R170, R268: one step of the encoder, or none while it is idle, its input port has nothing to offer, or
it has bytes to write and the host does not accept them. -/
def Enc.step (e : Enc) : Option Enc :=
  match e.phase with
  | .header => if e.outReady then some e.emitHeader else none
  | .pixels =>
    if e.pidx < e.npix then
      match e.pixRead with
      | none => none
      | some (cur, e1) =>
        if (e1.pixelStep cur).bout = e1.bout ∨ e.outReady = true then some (e1.pixelStep cur).leavePixels
        else none
    else some (e.setPhase .finish)
  | .finish => if e.outReady then some e.finish else none
  | .idle => none
  | .done => none
  | .error => none

end Sys2Proof.Machine
end

