-- ==== Sys2Proof/Machine/Fetch.lean ====
section
/-! DEFINITION. Fetching: which instruction the decoder executes next, by phase (spec/10_state.md R28,
spec/44_decoder.md R200, R201). All bytes are got through `ByteRead` (spec/20_memory.md R61), in stream order, so that
the error met first in reading order is the one raised (spec/60_exceptions.md R234). Also where
`State.withFetchWord` puts an instruction. -/

namespace Sys2Proof.Machine

/-- What the decoder does next. -/
inductive Fetch where
  /-- It executes this instruction. -/
  | run (i : Instr)
  /-- It moves to this state without executing an instruction: an error raised while reading, or R28's
  `PCNT = NPIX` transition. -/
  | moved (d : Dec)
  /-- It has no step: it is idle or over, or it waits (R268). -/
  | idle

/-- R230: the error that bytes which are no instruction raise. -/
def errorOf : DecodeError → ErrKind
  | .badMagic => .format
  | .truncated => .truncated
  | .badEndMarker => .none

/-- R123, R124: the magic is compared once its four bytes are in, the other ten bytes are read after it. -/
def Dec.fetchHeader (d : Dec) : Fetch :=
  match d.readBytes 4 with
  | .short d1 => .moved d1
  | .waiting => .idle
  | .got m d1 =>
    if m ≠ Config.magic then .moved (d1.raise .format)
    else
      match d1.readBytes 10 with
      | .short d2 => .moved d2
      | .waiting => .idle
      | .got r d2 =>
        match decode .frameStart (m ++ r) with
        | .ok (i, _) => .run i
        | .error x => .moved (d2.raise (errorOf x))

/-- R201, R202: the first byte, then the payload its kind asks for. The chunk writes pixels, so it waits
while the host does not accept them (R268). With no pixel owed the phase is left (R28). -/
def Dec.fetchChunk (d : Dec) : Fetch :=
  if d.owes then
    match d.byteRead with
    | .short d1 => .moved d1
    | .waiting => .idle
    | .got b1 d1 =>
      match d1.readBytes (chunkLength b1 - 1) with
      | .short d2 => .moved d2
      | .waiting => .idle
      | .got r d2 =>
        if d.outReady then
          match decode .chunk (b1 :: r) with
          | .ok (i, _) => .run i
          | .error x => .moved (d2.raise (errorOf x))
        else .idle
  else if d.npix.isSome then .moved (d.setPhase .trailer)
  else .idle

/-- R129, R211: in TRAILER the END frame's rule fires, by position, once the trailing bytes are there. -/
def Dec.fetchTrailer (d : Dec) : Fetch := if d.trail.isSome then .run .endMarker else .idle

/-- R28: which rule can fire. -/
def Dec.fetch (d : Dec) : Fetch :=
  match d.phase with
  | .header => d.fetchHeader
  | .chunks => d.fetchChunk
  | .trailer => d.fetchTrailer
  | .idle => .idle
  | .done => .idle
  | .error => .idle

/-- One step of the decoder, or none while it has no step. -/
def decStep (s : State) : Option (Host.Outcome State Fault Refusal) :=
  match s.dec.fetch with
  | .run i => some (exec i s)
  | .moved d => some (.next (s.setDec d))
  | .idle => none

/-- One step of the encoder, or none while it has no step. -/
def encStep (s : State) : Option (Host.Outcome State Fault Refusal) :=
  match s.enc.step with
  | some e => some (.next (s.setEnc e))
  | none => none

/-- The Header that `withFetchWord` puts before a chunk: an image large enough for every chunk (log 1). -/
def fetchHeaderValue : Header := ⟨62, 1, 4, 0⟩

/-- A decoder run in which the given bytes are the next instruction: at offset 0 in PHASE = HEADER, at offset
14 in PHASE = CHUNKS with 62 pixels owed, or at offset 14 in PHASE = TRAILER with none owed (log 1). -/
def Dec.placeBytes (d : Dec) (p : Place) (bs : List Byte) : Dec :=
  match p with
  | .frameStart =>
      { d with phase := .header, bpos := 0, blen := bs.length, byteIn := Memory.writeMany [] 0 bs }
  | .chunk =>
      { d with
        phase := .chunks, hdr := some fetchHeaderValue, npix := some fetchHeaderValue.pixels, pcnt := 0
        bpos := 14, blen := 14 + bs.length, byteIn := Memory.writeMany [] 14 bs, outReady := true }
  | .trailer =>
      { d with
        phase := .trailer, hdr := some fetchHeaderValue, npix := some fetchHeaderValue.pixels
        pcnt := fetchHeaderValue.pixels
        bpos := 14, blen := 14 + bs.length, byteIn := Memory.writeMany [] 14 bs }

end Sys2Proof.Machine
end

