-- ==== Sys2Proof/Machine/Host.lean ====
section
/-! DEFINITION. The host interface (spec/10_state.md R30, spec/60_exceptions.md R240): the two start commands,
hardware reset, offers on the data ports, the status reads, and the result of a run (R216, R235, R238). -/

namespace Sys2Proof.Machine

/-- R34, R120: the encoder as an accepted `ENC.START` initialises it, before validation; its ports hold the
streams of the new run only (log 7). -/
def Enc.fresh (h : Header) (ready : Bool) : Enc :=
  { Enc.reset with hdr := h, npix := h.pixels, phase := .header, outReady := ready }

/-- R120: `ENC.START`; ignored while a run is in progress (R240). -/
def Enc.start (h : Header) (e : Enc) : Enc :=
  if e.accepts then
    if h.valid then Enc.fresh h e.outReady else (Enc.fresh h e.outReady).raise .validation
  else e

/-- R34: the decoder as an accepted `DEC.START` initialises it (log 7). -/
def Dec.fresh (blen : Nat) (ready : Bool) : Dec :=
  { Dec.reset with blen := blen, phase := .header, outReady := ready }

/-- R240: `DEC.START`; ignored while a run is in progress. -/
def Dec.start (blen : Nat) (d : Dec) : Dec :=
  if d.accepts then Dec.fresh blen d.outReady else d

/-- R260: hardware reset of the two engines. Whether the host accepts data is the host's, not the engines'
(log 11). -/
def State.hardReset (s : State) : State :=
  { s with
    enc := { Enc.reset with outReady := s.enc.outReady }
    dec := { Dec.reset with outReady := s.dec.outReady } }

/-- R63: the next pixel of the encoder's input. -/
def Enc.offerPixel (c : Colour) (e : Enc) : Enc :=
  { e with pixIn := e.pixIn.writeColour (e.pixIn.next / 4) c }

/-- R60: the next byte of the decoder's input. -/
def Dec.offerByte (b : Byte) (d : Dec) : Dec :=
  { d with byteIn := d.byteIn.write d.byteIn.next b }

/-- What one input of the host does. -/
def hostInput (x : Input) (s : State) : Host.Outcome State Fault Refusal :=
  match x with
  | .encStart w h ch cs => .next (s.setEnc (s.enc.start ⟨w, h, ch, cs⟩))
  | .decStart blen => .next (s.setDec (s.dec.start blen.toNat))
  | .offerPixel c => .next (s.setEnc (s.enc.offerPixel c))
  | .offerByte b => .next (s.setDec (s.dec.offerByte b))
  | .alterPixel k c =>
      if s.enc.accepts then .next (s.setEnc { s.enc with pixIn := s.enc.pixIn.writeColour k c })
      else .refused .inputAltered
  | .alterByte off b =>
      if s.dec.accepts then .next (s.setDec { s.dec with byteIn := s.dec.byteIn.write off b })
      else .refused .inputAltered
  | .encAccept ready => .next (s.setEnc { s.enc with outReady := ready })
  | .decAccept ready => .next (s.setDec { s.dec with outReady := ready })
  | .hardReset => .next s.hardReset
  | .turn .enc => (encStep s).getD (.next s)
  | .turn .dec => (decStep s).getD (.next s)

/-- The engines' step when the host has nothing pending: the decoder if it can move, else the encoder, else
both wait and nothing changes (R268, log 9). -/
def enginesStep (s : State) : Host.Outcome State Fault Refusal :=
  match decStep s with
  | some o => o
  | none => (encStep s).getD (.next s)

/-! ### Status reads -/

/-- R30 `ENC.STATUS`. -/
structure EncStatus where
  phase : EncPhase
  err : BitVec 2
  pidx : Nat
  bout : Nat
deriving DecidableEq, Repr

/-- R30 `DEC.STATUS`. -/
structure DecStatus where
  phase : DecPhase
  err : BitVec 2
  errpos : Nat
  endMismatch : Bool
  runClip : Bool
  pcnt : Nat
  bpos : Nat
deriving DecidableEq, Repr

/-- R30: a read of `ENC.STATUS`, which has no side effect. -/
def State.encStatus (s : State) : EncStatus := ⟨s.enc.phase, s.enc.err.code, s.enc.pidx, s.enc.bout⟩

/-- R30: a read of `DEC.STATUS`, which has no side effect. -/
def State.decStatus (s : State) : DecStatus :=
  ⟨s.dec.phase, s.dec.err.code, s.dec.errpos, s.dec.endMismatch, s.dec.runClip, s.dec.pcnt, s.dec.bpos⟩

/-- R30: a read of `DEC.HDR`, which has no side effect: no value until the header is parsed in this run (R34);
in ERROR the register is readable and means nothing (R235). -/
def State.decHdr (s : State) : Option Header := s.dec.hdr

/-! ### The result of a run -/

/-- R216: what a decoder run ends in: an error, or the complete output, never both (R235). -/
inductive DecResult where
  | error (k : ErrKind)
  | done (hdr : Option Header) (pixels : Memory) (endMismatch runClip : Bool) (bpos : Nat)
deriving DecidableEq, Repr

/-- R183, R238: what an encoder run ends in. -/
inductive EncResult where
  | error (k : ErrKind)
  | done (bytes : Memory)
deriving DecidableEq, Repr

/-- R238: the decoder's result once its run is over, and none before; the output of an errored run is void. -/
def Dec.result (d : Dec) : Option DecResult :=
  match d.phase with
  | .done => some (.done d.hdr d.pixOut d.endMismatch d.runClip d.bpos)
  | .error => some (.error d.err)
  | .idle => none
  | .header => none
  | .chunks => none
  | .trailer => none

/-- R238: the encoder's result once its run is over, and none before. -/
def Enc.result (e : Enc) : Option EncResult :=
  match e.phase with
  | .done => some (.done e.byteOut)
  | .error => some (.error e.err)
  | .idle => none
  | .header => none
  | .pixels => none
  | .finish => none

end Sys2Proof.Machine
end

