-- ==== Sys2Proof/Machine/Step.lean ====
section
/-! DEFINITION. One step of the machine: the host's oldest pending input, else a step of an engine. -/

namespace Sys2Proof.Machine

/-- The oldest pending input if there is one (log 8), else the engines (log 9). -/
def step (s : State) : Host.Outcome State Fault Refusal :=
  match s.inputs with
  | x :: rest => hostInput x (s.setInputs rest)
  | [] => enginesStep s

/-- `s` with the instruction whose bits are `w` where the decoder fetches its next instruction: a run of
`DEC` in the phase that executes it, its bytes at `BPOS`, and no host input pending (log 1). -/
def State.withFetchWord (s : State) (nbits w : Nat) : State :=
  (s.setDec (s.dec.placeBytes (tablePlace nbits w) (tableStream nbits w))).setInputs []

end Sys2Proof.Machine
end

