-- ==== Sys2Proof/Safety.lean ====
section
/-! DEFINITION. What a sound state of the machine is, in the terms the statements use: the invariant of each
engine, phase by phase (spec/10_state.md R25, R27, R28, R34, spec/41_colour_cache.md R143), the lockstep
relation of spec/41_colour_cache.md R147, and the start state of a run whose input is already offered. -/

namespace Sys2Proof.Machine

/-- R143: after any sequence of stores a slot holds `{0,0,0,0}` or a Colour whose hash is the slot's number. -/
def Cache.sound (k : Cache) : Prop :=
  ∀ i : Slot, k.lookup i = Config.slotInit ∨ colourHash (k.lookup i) = i

/-- A stream whose listed addresses are exactly those below `n`. -/
def Memory.filledTo (m : Memory) (n : Nat) : Prop := ∀ a, (m.read a).isSome = true ↔ a < n

/-- R28 for the encoder: what holds in each phase. -/
def Enc.phaseSound (e : Enc) : Prop :=
  match e.phase with
  | .idle => e.err = .none ∧ e.pidx = 0 ∧ e.bout = 0 ∧ e.run = 0
  | .header => e.err = .none ∧ e.hdr.valid = true ∧ e.pidx = 0 ∧ e.bout = 0 ∧ e.run = 0
  | .pixels => e.err = .none ∧ e.hdr.valid = true ∧ e.pidx < e.npix ∧ 14 ≤ e.bout
  | .finish => e.err = .none ∧ e.hdr.valid = true ∧ e.pidx = e.npix ∧ 14 ≤ e.bout
  | .done => e.err = .none ∧ e.hdr.valid = true ∧ e.pidx = e.npix ∧ e.run = 0 ∧ 22 ≤ e.bout
  | .error => e.err = .validation ∧ e.hdr.valid = false ∧ e.pidx = 0 ∧ e.bout = 0 ∧ e.run = 0

/-- The encoder's invariant: canonical streams, a sound cache, `RUN` at most 61 between steps (R25), `NPIX` the
product of the header's fields (R22), the output stream exactly `BOUT` bytes long (R62), the phase's clause. -/
def Enc.Inv (e : Enc) : Prop :=
  e.pixIn.wf ∧ e.byteOut.wf ∧ e.cache.sound ∧ e.run ≤ 61 ∧ e.npix = e.hdr.pixels ∧
    e.byteOut.filledTo e.bout ∧ e.phaseSound

/-- A run of the decoder past its header: a valid Header, `NPIX` its pixel count, 14 bytes read, no error. -/
def Dec.parsed (d : Dec) : Prop :=
  ∃ h : Header, h.valid = true ∧ d.hdr = some h ∧ d.npix = some h.pixels ∧ 14 ≤ d.bpos ∧ d.err = .none

/-- R28 for the decoder: what holds in each phase. -/
def Dec.phaseSound (d : Dec) : Prop :=
  match d.phase with
  | .idle => d.err = .none ∧ d.hdr = none ∧ d.npix = none ∧ d.pcnt = 0 ∧ d.bpos = 0
  | .header =>
      d.err = .none ∧ d.hdr = none ∧ d.npix = none ∧ d.pcnt = 0 ∧ d.bpos = 0 ∧ d.endMismatch = false ∧
        d.runClip = false
  | .chunks => d.parsed ∧ d.owes = true ∧ d.endMismatch = false ∧ d.runClip = false
  | .trailer => d.parsed ∧ d.npix = some d.pcnt ∧ d.endMismatch = false
  | .done => d.parsed ∧ d.npix = some d.pcnt
  | .error => d.err ≠ .none ∧ d.errpos = d.bpos ∧ d.endMismatch = false ∧ d.runClip = false

/-- The decoder's invariant: canonical streams, a sound cache, `RREM` 0 between steps (R23), `BPOS` never past
`BLEN` (R27), `BLEN` a `u64`, the output exactly `PCNT` pixels (R63), the phase's clause. -/
def Dec.Inv (d : Dec) : Prop :=
  d.byteIn.wf ∧ d.pixOut.wf ∧ d.cache.sound ∧ d.rrem = 0 ∧ d.bpos ≤ d.blen ∧ d.blen < 2 ^ 64 ∧
    d.pixOut.filledTo (4 * d.pcnt) ∧ d.phaseSound

/-- The invariant of the machine. -/
def State.Inv (s : State) : Prop := s.enc.Inv ∧ s.dec.Inv

/-- R147: encoder and decoder agree on the previous pixel and on every slot. -/
def lockstep (e : Enc) (d : Dec) : Prop := e.prev = d.prev ∧ e.cache = d.cache

/-- Puts pixels into a flat buffer from pixel `k` on (R63). -/
def Memory.writeColours (m : Memory) : Nat → List Colour → Memory
  | _, [] => m
  | k, c :: cs => Memory.writeColours (m.writeColour k c) (k + 1) cs

/-- R262: an encoder run just started, with every pixel of the run offered and the host accepting bytes. -/
def Enc.loaded (h : Header) (px : List Colour) : Enc :=
  { Enc.fresh h true with pixIn := Memory.writeColours [] 0 px }

/-- R262: a decoder run just started, with its whole input stream offered and the host accepting pixels. -/
def Dec.loaded (blen : Nat) (bytes : Memory) : Dec :=
  { Dec.fresh blen true with byteIn := bytes }

/-- R200: the decoder is in its chunk loop, `n` pixels make the image and one is still owed. -/
def Dec.inChunks (d : Dec) (n : Nat) : Prop := d.phase = .chunks ∧ d.npix = some n ∧ d.pcnt < n

/-- R171: the encoder is in its pixel loop, its next pixel is `cur`, and the host accepts bytes. -/
def Enc.reads (e : Enc) (cur : Colour) : Prop :=
  e.phase = .pixels ∧ e.pidx < e.npix ∧ e.pixIn.readColour e.pidx = some cur ∧ e.outReady = true

/-- R209, R27, R28: the decoder after a single-pixel chunk of `len` bytes that produced `px`, field by field; every
field not named is unchanged. -/
def Dec.produced (d : Dec) (len : Nat) (px : Colour) : Dec :=
  { d with
    bpos := d.bpos + len
    pixOut := d.pixOut.writeColour d.pcnt px
    pcnt := d.pcnt + 1
    cache := d.cache.store px
    prev := px
    phase := if d.npix = some (d.pcnt + 1) then .trailer else .chunks }

/-- R213, R235: the decoder after a step that needed a byte beyond BLEN, field by field; every field not named is
unchanged. -/
def Dec.cutShort (d : Dec) : Dec :=
  { d with bpos := d.blen, err := .truncated, errpos := d.blen, phase := .error }

/-- R171, R180: the byte of the pending pixel run, if there is one. -/
def Enc.pendingBytes (e : Enc) : List Byte :=
  if e.run = 0 then [] else [BitVec.ofNat 8 (0xC0 + e.run - 1)]

/-- R171, R173: the cache once the pending pixel run, if there is one, is flushed. -/
def Enc.flushedCache (e : Enc) : Cache := if e.run = 0 then e.cache else e.cache.store e.prev

/-- R171, R179: the encoder after a pixel step that wrote the pending run's byte and then the bytes `bs` of the
chunk of `cur`, field by field; every field not named is unchanged. -/
def Enc.wrote (e : Enc) (cur : Colour) (bs : List Byte) : Enc :=
  { e with
    pidx := e.pidx + 1
    byteOut := e.byteOut.writeMany e.bout (e.pendingBytes ++ bs)
    bout := e.bout + (e.pendingBytes ++ bs).length
    cache := e.flushedCache.store cur
    run := 0
    prev := cur
    phase := if e.pidx + 1 < e.npix then .pixels else .finish }

/-- R260: the values of the table after a hardware reset, register by register. The registers it calls unspecified
(`HDR`, `NPIX`, `BLEN`) are left out. -/
def State.isReset (t : State) : Prop :=
  t.enc.phase = .idle ∧ t.dec.phase = .idle ∧ t.enc.prev = ⟨0, 0, 0, 255⟩ ∧ t.dec.prev = ⟨0, 0, 0, 255⟩ ∧
  (∀ i : Slot, t.enc.cache.lookup i = ⟨0, 0, 0, 0⟩ ∧ t.dec.cache.lookup i = ⟨0, 0, 0, 0⟩) ∧
  t.enc.run = 0 ∧ t.dec.rrem = 0 ∧ t.enc.pidx = 0 ∧ t.enc.bout = 0 ∧ t.dec.pcnt = 0 ∧ t.dec.bpos = 0 ∧
  t.enc.err = .none ∧ t.dec.err = .none ∧ t.dec.errpos = 0 ∧ t.dec.endMismatch = false ∧ t.dec.runClip = false ∧
  t.enc.pixIn = [] ∧ t.enc.byteOut = [] ∧ t.dec.byteIn = [] ∧ t.dec.pixOut = []

/-- The byte `x` is the byte `y` plus the integer `d`, modulo 256. -/
def isPlus (x y : Byte) (d : Int) : Prop := (x.toNat : Int) = ((y.toNat : Int) + d) % 256

/-- The machine with these two engines and no host input pending. -/
def State.engines (e : Enc) (d : Dec) : State := ⟨e, d, []⟩

end Sys2Proof.Machine
end

