-- ==== Sys2Proof/Certificates/Slice0/Obligations.lean ====
section
/-! DEFINITION. The statements of this model, from the numbered rules of spec/. -/

open Sys2Proof Sys2Proof.Machine

/-! ### Encoding (spec/30_encoding.md) -/

/-- R93 to R100: decoding the encoding of a well-formed instruction gives it back with the bytes after it, every
operand at every value. The END frame ends the stream. -/
def Obligations.DecodeEncodeRoundTrip : Prop :=
  ∀ (i : Instr) (rest : List Byte), i.wellFormed = true → (placeOf i = .trailer → rest = []) →
    decode (placeOf i) (encode i ++ rest) = .ok (i, rest)

/-- R92, R104, R111: bytes that are long enough for their first byte are exactly one chunk, a well-formed one, and
encoding it gives those bytes back. -/
def Obligations.EveryChunkStreamParses : Prop :=
  ∀ (b1 : Byte) (rest : List Byte), chunkLength b1 ≤ rest.length + 1 →
    ∃ i, placeOf i = .chunk ∧ i.wellFormed = true ∧
      decode .chunk (b1 :: rest) = .ok (i, rest.drop (chunkLength b1 - 1)) ∧
      encode i = (b1 :: rest).take (chunkLength b1)

/-- R92: the kind and the length of a chunk from its first byte. -/
def Obligations.FirstByteGivesKindAndLength : Prop :=
  ∀ b1 : Byte,
    (b1.toNat ≤ 0x3F → classify b1 = .index ∧ chunkLength b1 = 1) ∧
    (0x40 ≤ b1.toNat ∧ b1.toNat ≤ 0x7F → classify b1 = .diff ∧ chunkLength b1 = 1) ∧
    (0x80 ≤ b1.toNat ∧ b1.toNat ≤ 0xBF → classify b1 = .luma ∧ chunkLength b1 = 2) ∧
    (0xC0 ≤ b1.toNat ∧ b1.toNat ≤ 0xFD → classify b1 = .run ∧ chunkLength b1 = 1) ∧
    (b1 = 0xFE → classify b1 = .rgb ∧ chunkLength b1 = 4) ∧
    (b1 = 0xFF → classify b1 = .rgba ∧ chunkLength b1 = 5)

/-- R105: no byte that classifies as RUN has payload 62 or 63. -/
def Obligations.RunPayloadAtMost61 : Prop :=
  ∀ b1 : Byte, classify b1 = .run → (b1.extractLsb' 0 6).toNat ≤ 61

/-- Words written out from R93 to R100 decode to the instructions they stand for. -/
def Obligations.WrittenOutWordsDecode : Prop :=
  decode .chunk [0b00110101] = .ok (.index 53, []) ∧
  decode .chunk [0b01110110] = .ok (.diff 3 1 2, []) ∧
  decode .chunk [0b10101111, 0b00110001] = .ok (.luma 47 3 1, []) ∧
  decode .chunk [0b11111101] = .ok (.run 61, []) ∧
  decode .chunk [0xFE, 10, 20, 30] = .ok (.rgb 10 20 30, []) ∧
  decode .chunk [0xFF, 1, 2, 3, 77] = .ok (.rgba 1 2 3 77, []) ∧
  decode .frameStart [0x71, 0x6F, 0x69, 0x66, 0, 0, 1, 0, 0, 1, 0, 0, 3, 1] = .ok (.header 256 65536 3 1, []) ∧
  decode .trailer [0, 0, 0, 0, 0, 0, 0, 1] = .ok (.endMarker, [])

/-! ### A step runs the decoded instruction -/

/-- R200, R201: with no host input pending, a step executes the instruction that the bytes at `BPOS` decode to, a
HEADER with illegal fields included, in each of the three phases; in CHUNKS while a pixel is owed and the host accepts
pixels. In TRAILER it executes END whatever the trailing bytes are (R129, R211). That the decoder moves where the
encoder could as well is the model's choice, log 9. -/
def Obligations.StepRunsDecodedInstruction : Prop :=
  (∀ (s : State) (i : Instr) (bs : List Byte), s.inputs = [] →
    s.dec.bpos + instrLength i ≤ s.dec.blen →
    s.dec.byteIn.readMany s.dec.bpos (instrLength i) = some bs →
    (s.dec.phase = .chunks ∧ s.dec.owes = true ∧ s.dec.outReady = true ∧ decode .chunk bs = .ok (i, []) →
      step s = exec i s) ∧
    (s.dec.phase = .header ∧ decode .frameStart bs = .ok (i, []) → step s = exec i s) ∧
    (s.dec.phase = .trailer ∧ s.dec.bpos + 8 = s.dec.blen ∧ decode .trailer bs = .ok (i, []) →
      step s = exec i s)) ∧
  ∀ (s : State) (T : List Byte), s.inputs = [] → s.dec.phase = .trailer →
    s.dec.byteIn.readMany s.dec.bpos (s.dec.blen - s.dec.bpos) = some T → step s = exec .endMarker s

/-! ### What the chunks do (spec/44_decoder.md) -/

/-- R203 with R209: RGBA produces exactly its four payload bytes, or raises if one of them is missing. -/
def Obligations.RgbaProducesItsPayload : Prop :=
  ∀ (s : State) (n : Nat) (r g b a : Byte), s.dec.inChunks n →
    (s.dec.bpos + 5 ≤ s.dec.blen →
      exec (.rgba r g b a) s = .next { s with dec := s.dec.produced 5 ⟨r, g, b, a⟩ }) ∧
    (s.dec.blen < s.dec.bpos + 5 → exec (.rgba r g b a) s = .next { s with dec := s.dec.cutShort })

/-- R204 with R209: RGB produces its three payload bytes with the alpha of `PREV`, or raises if one of them is
missing. -/
def Obligations.RgbTakesAlphaFromPrev : Prop :=
  ∀ (s : State) (n : Nat) (r g b : Byte), s.dec.inChunks n →
    (s.dec.bpos + 4 ≤ s.dec.blen →
      exec (.rgb r g b) s = .next { s with dec := s.dec.produced 4 ⟨r, g, b, s.dec.prev.a⟩ }) ∧
    (s.dec.blen < s.dec.bpos + 4 → exec (.rgb r g b) s = .next { s with dec := s.dec.cutShort })

/-- R205 with R209: INDEX produces the content of its slot, whole. -/
def Obligations.IndexCopiesItsSlot : Prop :=
  ∀ (s : State) (n : Nat) (i : Slot), s.dec.inChunks n → s.dec.bpos + 1 ≤ s.dec.blen →
    exec (.index i) s = .next { s with dec := s.dec.produced 1 (s.dec.cache.lookup i) }

/-- R206, R156 with R209: DIFF adds to each channel of `PREV` its field minus 2, modulo 256, and keeps alpha. -/
def Obligations.DiffAddsItsDeltas : Prop :=
  ∀ (s : State) (n : Nat) (fr fg fb : BitVec 2) (px : Colour), s.dec.inChunks n → s.dec.bpos + 1 ≤ s.dec.blen →
    isPlus px.r s.dec.prev.r (fr.toNat - 2) → isPlus px.g s.dec.prev.g (fg.toNat - 2) →
    isPlus px.b s.dec.prev.b (fb.toNat - 2) → px.a = s.dec.prev.a →
    exec (.diff fr fg fb) s = .next { s with dec := s.dec.produced 1 px }

/-- R207, R157 with R209: LUMA adds `dg` to green and `dg` with `dr_dg`, `db_dg` to red and blue, modulo 256, or
raises if its second byte is missing. -/
def Obligations.LumaAddsItsDeltas : Prop :=
  ∀ (s : State) (n : Nat) (fg : BitVec 6) (frg fbg : BitVec 4) (px : Colour), s.dec.inChunks n →
    isPlus px.r s.dec.prev.r ((frg.toNat - 8) + (fg.toNat - 32)) → isPlus px.g s.dec.prev.g (fg.toNat - 32) →
    isPlus px.b s.dec.prev.b ((fbg.toNat - 8) + (fg.toNat - 32)) → px.a = s.dec.prev.a →
    (s.dec.bpos + 2 ≤ s.dec.blen → exec (.luma fg frg fbg) s = .next { s with dec := s.dec.produced 2 px }) ∧
    (s.dec.blen < s.dec.bpos + 2 → exec (.luma fg frg fbg) s = .next { s with dec := s.dec.cutShort })

/-- R208: a RUN chunk that fits the image writes `n1 + 1` copies of `PREV` as the next pixels, stores `PREV`, and
changes nothing else but the position, the count and, at the image's end, the phase. -/
def Obligations.RunRepeatsPrev : Prop :=
  ∀ (s : State) (n : Nat) (n1 : BitVec 6), s.dec.inChunks n → s.dec.bpos + 1 ≤ s.dec.blen →
    s.dec.pcnt + (n1.toNat + 1) ≤ n →
    exec (.run n1) s = .next { s with dec := { s.dec with
      bpos := s.dec.bpos + 1
      pixOut := s.dec.pixOut.writeColours s.dec.pcnt (List.replicate (n1.toNat + 1) s.dec.prev)
      pcnt := s.dec.pcnt + (n1.toNat + 1)
      cache := s.dec.cache.store s.dec.prev
      rrem := 0
      phase := if s.dec.pcnt + (n1.toNat + 1) = n then .trailer else .chunks } }

/-- R212: a RUN chunk that asks for more pixels than remain writes only those, sets RUN_CLIP, and the decoder goes
to TRAILER. -/
def Obligations.RunIsClippedAtTheImageEnd : Prop :=
  ∀ (s : State) (n : Nat) (n1 : BitVec 6), s.dec.inChunks n → s.dec.bpos + 1 ≤ s.dec.blen →
    n < s.dec.pcnt + (n1.toNat + 1) →
    exec (.run n1) s = .next { s with dec := { s.dec with
      bpos := s.dec.bpos + 1
      pixOut := s.dec.pixOut.writeColours s.dec.pcnt (List.replicate (n - s.dec.pcnt) s.dec.prev)
      pcnt := n
      cache := s.dec.cache.store s.dec.prev
      rrem := 0
      runClip := true
      phase := .trailer } }

/-- R213: a chunk whose last byte lies beyond BLEN raises TruncatedStreamError at BLEN: no pixel is written, and
neither `PREV` nor the cache changes. -/
def Obligations.TruncatedChunkRaises : Prop :=
  ∀ (s : State) (n : Nat) (i : Instr), placeOf i = .chunk → s.dec.inChunks n →
    s.dec.blen < s.dec.bpos + instrLength i →
    exec i s = .next { s with dec := s.dec.cutShort }

/-- R211: no chunk rule fires outside CHUNKS, nor with no pixel owed. That `exec` then leaves the state is log 18. -/
def Obligations.NoChunkFiresElsewhere : Prop :=
  ∀ (s : State) (i : Instr), placeOf i = .chunk → s.dec.phase ≠ .chunks ∨ s.dec.owes = false → exec i s = .next s

/-- The frame of the six chunks, fired or not: the encoder, the pending inputs, the stream length, the header, the
input stream and END_MISMATCH stay; RUN_CLIP stays unless the chunk is a RUN; every output byte outside the pixels
written stays; every slot stays but that of the pixel produced. -/
def Obligations.ChunkFrame : Prop :=
  ∀ (s t : State) (i : Instr), placeOf i = .chunk → exec i s = .next t →
    t.enc = s.enc ∧ t.inputs = s.inputs ∧ t.dec.blen = s.dec.blen ∧ t.dec.hdr = s.dec.hdr ∧
    t.dec.npix = s.dec.npix ∧ t.dec.byteIn = s.dec.byteIn ∧ t.dec.outReady = s.dec.outReady ∧
    t.dec.endMismatch = s.dec.endMismatch ∧ ((∀ n1, i ≠ .run n1) → t.dec.runClip = s.dec.runClip) ∧
    (∀ a, a < 4 * s.dec.pcnt ∨ 4 * t.dec.pcnt ≤ a → t.dec.pixOut.read a = s.dec.pixOut.read a) ∧
    (∀ k, k ≠ colourHash t.dec.prev → t.dec.cache.lookup k = s.dec.cache.lookup k)

/-! ### The frames (spec/40_header_framer.md) -/

/-- R123, R126: a valid HEADER frame stores its fields, gives `NPIX` and enters CHUNKS, 14 bytes further; nothing
else changes, `PREV` and the cache included. -/
def Obligations.HeaderStoresItsFields : Prop :=
  ∀ (s : State) (w h : Word) (ch cs : Byte), s.dec.phase = .header → s.dec.bpos + 14 ≤ s.dec.blen →
    0 < w.toNat → 0 < h.toNat → ch = 3 ∨ ch = 4 → cs = 0 ∨ cs = 1 →
    exec (.header w h ch cs) s = .next { s with dec := { s.dec with
      bpos := s.dec.bpos + 14
      hdr := some ⟨w, h, ch, cs⟩
      npix := some (w.toNat * h.toNat)
      phase := .chunks } }

/-- R125: a HEADER frame with any illegal field raises ValidationError after its 14 bytes. That `HDR` then holds
the fields read is log 3. -/
def Obligations.IllegalHeaderRaisesValidation : Prop :=
  ∀ (s : State) (w h : Word) (ch cs : Byte), s.dec.phase = .header → s.dec.bpos + 14 ≤ s.dec.blen →
    w.toNat = 0 ∨ h.toNat = 0 ∨ (ch ≠ 3 ∧ ch ≠ 4) ∨ (cs ≠ 0 ∧ cs ≠ 1) →
    exec (.header w h ch cs) s = .next { s with dec := { s.dec with
      bpos := s.dec.bpos + 14
      hdr := some ⟨w, h, ch, cs⟩
      err := .validation
      errpos := s.dec.bpos + 14
      phase := .error } }

/-- R124, R230, R234: the errors of a step in PHASE = HEADER, in reading order, when the whole stream is offered; and
with no error before the fields' check, the step executes the HEADER of the big-endian fields. That the decoder moves
where the encoder could as well is the model's choice, log 9. -/
def Obligations.HeaderErrorsInReadingOrder : Prop :=
  ∀ (s : State) (S : List Byte), s.inputs = [] → s.dec.phase = .header → s.dec.bpos = 0 →
    s.dec.blen = S.length → s.dec.byteIn.readMany 0 S.length = some S →
    (S.length < 4 → step s = .next { s with dec := { s.dec with
      bpos := S.length, err := .truncated, errpos := S.length, phase := .error } }) ∧
    (4 ≤ S.length → S.take 4 ≠ [0x71, 0x6F, 0x69, 0x66] → step s = .next { s with dec := { s.dec with
      bpos := 4, err := .format, errpos := 4, phase := .error } }) ∧
    (4 ≤ S.length → S.length < 14 → S.take 4 = [0x71, 0x6F, 0x69, 0x66] →
      step s = .next { s with dec := { s.dec with
        bpos := S.length, err := .truncated, errpos := S.length, phase := .error } }) ∧
    (14 ≤ S.length → S.take 4 = [0x71, 0x6F, 0x69, 0x66] → ∃ (w h : Word) (ch cs : Byte),
      (w.toNat = 2 ^ 24 * (S.getD 4 0).toNat + 2 ^ 16 * (S.getD 5 0).toNat + 2 ^ 8 * (S.getD 6 0).toNat +
        (S.getD 7 0).toNat) ∧
      (h.toNat = 2 ^ 24 * (S.getD 8 0).toNat + 2 ^ 16 * (S.getD 9 0).toNat + 2 ^ 8 * (S.getD 10 0).toNat +
        (S.getD 11 0).toNat) ∧
      ch = S.getD 12 0 ∧ cs = S.getD 13 0 ∧ step s = exec (.header w h ch cs) s)

/-- R129: the trailer check sets END_MISMATCH unless the bytes left are exactly the end marker, drains them, leaves
`BPOS`, and ends the run DONE; nothing else changes. How the port is held and drained is logs 6 and 15. -/
def Obligations.EndFrameComparesTheTrailer : Prop :=
  ∀ (s : State) (T : List Byte), s.dec.phase = .trailer →
    s.dec.byteIn.readMany s.dec.bpos (s.dec.blen - s.dec.bpos) = some T →
    exec .endMarker s = .next { s with dec := { s.dec with
      endMismatch := if T = [0, 0, 0, 0, 0, 0, 0, 1] then false else true
      byteIn := s.dec.byteIn.dropRange s.dec.bpos s.dec.blen
      phase := .done } }

/-- The frame of HEADER and END, fired or not: the encoder, the pending inputs, `BLEN`, `PCNT`, `PREV`, the cache,
`RREM`, RUN_CLIP and the output pixels stay; HEADER leaves the input stream and END_MISMATCH, END leaves `BPOS`,
`HDR`, `NPIX`, `ERR` and every input byte outside the trailing ones. -/
def Obligations.FramesLeavePixelsAlone : Prop :=
  ∀ (s t : State) (i : Instr), placeOf i ≠ .chunk → exec i s = .next t →
    t.enc = s.enc ∧ t.inputs = s.inputs ∧ t.dec.blen = s.dec.blen ∧ t.dec.pcnt = s.dec.pcnt ∧
    t.dec.prev = s.dec.prev ∧ t.dec.cache = s.dec.cache ∧ t.dec.rrem = s.dec.rrem ∧
    t.dec.runClip = s.dec.runClip ∧ t.dec.outReady = s.dec.outReady ∧
    (∀ a, t.dec.pixOut.read a = s.dec.pixOut.read a) ∧
    (placeOf i = .frameStart → t.dec.endMismatch = s.dec.endMismatch ∧
      ∀ a, t.dec.byteIn.read a = s.dec.byteIn.read a) ∧
    (placeOf i = .trailer → t.dec.bpos = s.dec.bpos ∧ t.dec.hdr = s.dec.hdr ∧ t.dec.npix = s.dec.npix ∧
      t.dec.err = s.dec.err ∧ t.dec.errpos = s.dec.errpos ∧
      ∀ a, a < s.dec.bpos ∨ s.dec.blen ≤ a → t.dec.byteIn.read a = s.dec.byteIn.read a)

/-! ### Errors and waiting (spec/60_exceptions.md) -/

/-- R213: in CHUNKS with a pixel owed and `BPOS = BLEN`, a step raises TruncatedStreamError at BLEN; and so it does
when the payload of the chunk whose first byte is next runs past BLEN. The model's choices: that the decoder moves where
the encoder could as well is log 9, that it raises while the host does not accept pixels is log 11. -/
def Obligations.StepRaisesTruncated : Prop :=
  ∀ (s : State) (n : Nat) (bs : List Byte), s.inputs = [] → s.dec.inChunks n → s.dec.bpos ≤ s.dec.blen →
    s.dec.byteIn.readMany s.dec.bpos (s.dec.blen - s.dec.bpos) = some bs →
    (∀ b1 rest, bs = b1 :: rest → s.dec.blen < s.dec.bpos + chunkLength b1) →
    step s = .next { s with dec := s.dec.cutShort }

/-- R235: `raise` writes ERR, ERRPOS (from BPOS) and PHASE, and nothing else. -/
def Obligations.RaiseWritesExactlyThree : Prop :=
  ∀ (d : Dec) (k : ErrKind), d.raise k = { d with err := k, errpos := d.bpos, phase := .error }

/-- R236: a decoder in ERROR stays in ERROR, with its ERR, unless the step takes a start command of the decoder or
hardware reset; so does the encoder. -/
def Obligations.ErrorIsLeftOnlyByStartOrReset : Prop :=
  ∀ s t : State, step s = .next t →
    (s.dec.phase = .error →
      (t.dec.phase = .error ∧ t.dec.err = s.dec.err ∧ t.dec.errpos = s.dec.errpos) ∨
      (∃ n rest, s.inputs = .decStart n :: rest) ∨ (∃ rest, s.inputs = .hardReset :: rest)) ∧
    (s.enc.phase = .error →
      (t.enc.phase = .error ∧ t.enc.err = s.enc.err) ∨
      (∃ w h ch cs rest, s.inputs = .encStart w h ch cs :: rest) ∨ (∃ rest, s.inputs = .hardReset :: rest))

/-- R268: when neither engine has a step and the host has nothing pending, nothing changes (that a step then answers
the same state is log 10). The encoder has no step when its next pixel is not offered, nor when it has bytes to write
and the host does not accept them; the decoder has none when a byte it needs next (of the header, of a chunk, of the
trailing bytes) is not offered, nor when the host does not accept the pixels of the chunk at `BPOS`. Which steps need
the host's acceptance is log 11. -/
def Obligations.WaitingChangesNothing : Prop :=
  (∀ s : State, s.inputs = [] → s.enc.step = none → decStep s = none → step s = .next s) ∧
  (∀ e : Enc,
    (e.phase = .pixels → e.pidx < e.npix → e.pixIn.readColour e.pidx = none → e.step = none) ∧
    (e.outReady = false → e.phase = .header ∨ e.phase = .finish → e.step = none) ∧
    (∀ cur, e.outReady = false → e.phase = .pixels → e.pidx < e.npix → e.pixIn.readColour e.pidx = some cur →
      cur ≠ e.prev ∨ e.run = 61 → e.step = none)) ∧
  ∀ s : State,
    (∀ k, s.dec.phase = .header → s.dec.bpos ≤ k → k < s.dec.bpos + 14 → k < s.dec.blen →
      s.dec.byteIn.read k = none →
      k < s.dec.bpos + 4 ∨ s.dec.byteIn.readMany s.dec.bpos 4 = some [0x71, 0x6F, 0x69, 0x66] →
      decStep s = none) ∧
    (s.dec.phase = .chunks → s.dec.owes = true → s.dec.bpos < s.dec.blen → s.dec.byteIn.read s.dec.bpos = none →
      decStep s = none) ∧
    (∀ b1 k, s.dec.phase = .chunks → s.dec.owes = true → s.dec.byteIn.read s.dec.bpos = some b1 →
      s.dec.bpos < k → k < s.dec.bpos + chunkLength b1 → k < s.dec.blen → s.dec.byteIn.read k = none →
      decStep s = none) ∧
    (∀ b1 bs, s.dec.phase = .chunks → s.dec.owes = true → s.dec.outReady = false →
      s.dec.bpos + chunkLength b1 ≤ s.dec.blen →
      s.dec.byteIn.readMany s.dec.bpos (chunkLength b1) = some (b1 :: bs) → decStep s = none) ∧
    (∀ k, s.dec.phase = .trailer → s.dec.bpos ≤ k → k < s.dec.blen → s.dec.byteIn.read k = none →
      decStep s = none)

/-! ### Memory, cache and delta unit -/

/-- R63: pixel `k` occupies the bytes 4k (r), 4k+1 (g), 4k+2 (b), 4k+3 (a), and writing it leaves every other byte. -/
def Obligations.PixelBufferLayout : Prop :=
  ∀ (m : Memory) (k : Nat) (c : Colour),
    (m.writeColour k c).read (4 * k) = some c.r ∧ (m.writeColour k c).read (4 * k + 1) = some c.g ∧
    (m.writeColour k c).read (4 * k + 2) = some c.b ∧ (m.writeColour k c).read (4 * k + 3) = some c.a ∧
    ∀ a, a < 4 * k ∨ 4 * k + 4 ≤ a → (m.writeColour k c).read a = m.read a

/-- R140: the hash. -/
def Obligations.HashIsTheWeightedSum : Prop :=
  ∀ c : Colour,
    (colourHash c).toNat = (c.r.toNat * 3 + c.g.toNat * 5 + c.b.toNat * 7 + c.a.toNat * 11) % 64

/-- R141: the hash depends only on the low 6 bits of each channel, and may be computed in any wrapping width of 6
bits or more. -/
def Obligations.HashNeedsSixBits : Prop :=
  ∀ c : Colour,
    (colourHash c).toNat = (3 * (c.r.toNat % 64) + 5 * (c.g.toNat % 64) + 7 * (c.b.toNat % 64) +
      11 * (c.a.toNat % 64)) % 64 ∧
    ∀ w, 6 ≤ w →
      (BitVec.ofNat w (c.r.toNat * 3) + BitVec.ofNat w (c.g.toNat * 5) + BitVec.ofNat w (c.b.toNat * 7) +
        BitVec.ofNat w (c.a.toNat * 11)).toNat % 64 = (colourHash c).toNat

/-- R143, with R142 and R145: a store writes the slot of the hash, whatever it held, and no other; doing it twice is
doing it once; every slot still holds {0,0,0,0} or a Colour whose hash is its number. -/
def Obligations.StoreWritesTheSlotOfItsHash : Prop :=
  ∀ (k : Cache) (c : Colour),
    (∀ i : Slot, (k.store c).lookup i = if i = colourHash c then c else k.lookup i) ∧
    (k.store c).store c = k.store c ∧ (k.sound → (k.store c).sound)

/-- R146: in a fresh cache the colour {0,0,0,0} hits, and no other colour does. -/
def Obligations.OnlyZeroHitsAFreshCache : Prop :=
  ∀ c : Colour, freshCache.lookup (colourHash c) = c ↔ c = ⟨0, 0, 0, 0⟩

/-- R152, R153: the range tests, by the integers whose addition modulo 256 takes `PREV` to the pixel. -/
def Obligations.RangeTestsFindTheDeltas : Prop :=
  ∀ cur prev : Colour,
    (diffFits cur prev = true ↔ cur.a = prev.a ∧ ∃ dr dg db : Int, -2 ≤ dr ∧ dr ≤ 1 ∧ -2 ≤ dg ∧ dg ≤ 1 ∧
      -2 ≤ db ∧ db ≤ 1 ∧ isPlus cur.r prev.r dr ∧ isPlus cur.g prev.g dg ∧ isPlus cur.b prev.b db) ∧
    (lumaFits cur prev = true ↔ cur.a = prev.a ∧ ∃ dg drdg dbdg : Int, -32 ≤ dg ∧ dg ≤ 31 ∧ -8 ≤ drdg ∧ drdg ≤ 7 ∧
      -8 ≤ dbdg ∧ dbdg ≤ 7 ∧ isPlus cur.r prev.r (drdg + dg) ∧ isPlus cur.g prev.g dg ∧
      isPlus cur.b prev.b (dbdg + dg))

/-- R154: each range test is one unsigned comparison, whose operand is then the field; and adding a bias to a channel
delta may be done on the byte difference. -/
def Obligations.RangeTestsAreUnsigned : Prop :=
  (∀ d : Int, -128 ≤ d → d ≤ 127 →
    (inRange (-2) 1 d = true ↔ (wrap8 (d + 2)).toNat < 4) ∧
    (inRange (-32) 31 d = true ↔ (wrap8 (d + 32)).toNat < 64) ∧
    (inRange (-8) 7 d = true ↔ (wrap8 (d + 8)).toNat < 16) ∧
    (inRange (-2) 1 d = true → d + 2 = (wrap8 (d + 2)).toNat) ∧
    (inRange (-32) 31 d = true → d + 32 = (wrap8 (d + 32)).toNat) ∧
    (inRange (-8) 7 d = true → d + 8 = (wrap8 (d + 8)).toNat)) ∧
  (∀ (x y : Byte) (k : Int), wrap8 (chanDelta x y + k) = wrap8 ((x - y).toNat + k))

/-- R159: applying the deltas that were computed gives the pixel back. -/
def Obligations.ApplyInvertsDelta : Prop :=
  ∀ cur prev : Colour,
    (diffFits cur prev = true → diffApply prev (deltaR cur prev) (deltaG cur prev) (deltaB cur prev) = cur) ∧
    (lumaFits cur prev = true → lumaApply prev (deltaG cur prev) (deltaRG cur prev) (deltaBG cur prev) = cur)

/-! ### The encoder (spec/43_encoder.md) -/

/-- R268, R170: with no host input pending and no step of the decoder, a step of the machine is the encoder's. That
inputs and the decoder go first is logs 8 and 9. -/
def Obligations.StepRunsTheEncoder : Prop :=
  ∀ (s : State) (e : Enc), s.inputs = [] → decStep s = none → s.enc.step = some e → step s = .next { s with enc := e }

/-- R122: the HEADER frame, encoder form: 14 bytes, then PIXELS; nothing else changes. -/
def Obligations.EncoderWritesTheHeader : Prop :=
  ∀ e : Enc, e.phase = .header → e.outReady = true →
    e.step = some { e with
      byteOut := e.byteOut.writeMany e.bout (encode (.header e.hdr.w e.hdr.h e.hdr.ch e.hdr.cs))
      bout := e.bout + 14
      phase := .pixels }

/-- R172: a pixel equal to `PREV` with `RUN` below 61 extends the run: nothing is written, and neither `PREV` nor the
cache changes. -/
def Obligations.EqualPixelExtendsTheRun : Prop :=
  ∀ e : Enc, e.reads e.prev → e.run < 61 →
    e.step = some { e with
      pidx := e.pidx + 1
      run := e.run + 1
      phase := if e.pidx + 1 < e.npix then .pixels else .finish }

/-- R172, R173: the pixel that brings the run to 62 flushes it in the same step: the byte FD, `PREV` stored. -/
def Obligations.RunIsFlushedAt62 : Prop :=
  ∀ e : Enc, e.reads e.prev → e.run = 61 →
    e.step = some { e with
      pidx := e.pidx + 1
      byteOut := e.byteOut.write e.bout 0xFD
      bout := e.bout + 1
      cache := e.cache.store e.prev
      run := 0
      phase := if e.pidx + 1 < e.npix then .pixels else .finish }

/-- R174, R171: INDEX is written when the slot of the pixel's hash holds the pixel, whatever else would fit. -/
def Obligations.EncoderWritesIndex : Prop :=
  ∀ (e : Enc) (cur : Colour), e.reads cur → cur ≠ e.prev → e.flushedCache.lookup (colourHash cur) = cur →
    e.step = some (e.wrote cur [BitVec.ofNat 8 (colourHash cur).toNat])

/-- R175, R171: DIFF is written when INDEX does not apply, alpha is the same and the three deltas lie in -2 .. 1. -/
def Obligations.EncoderWritesDiff : Prop :=
  ∀ (e : Enc) (cur : Colour) (dr dg db : Int), e.reads cur → cur ≠ e.prev →
    e.flushedCache.lookup (colourHash cur) ≠ cur → cur.a = e.prev.a →
    -2 ≤ dr → dr ≤ 1 → -2 ≤ dg → dg ≤ 1 → -2 ≤ db → db ≤ 1 →
    isPlus cur.r e.prev.r dr → isPlus cur.g e.prev.g dg → isPlus cur.b e.prev.b db →
    e.step = some (e.wrote cur [BitVec.ofInt 8 (0x40 + 16 * (dr + 2) + 4 * (dg + 2) + (db + 2))])

/-- R176, R171: LUMA is written when INDEX and DIFF do not apply, alpha is the same and the deltas lie in range. -/
def Obligations.EncoderWritesLuma : Prop :=
  ∀ (e : Enc) (cur : Colour) (dg drdg dbdg : Int), e.reads cur → cur ≠ e.prev →
    e.flushedCache.lookup (colourHash cur) ≠ cur → diffFits cur e.prev = false → cur.a = e.prev.a →
    -32 ≤ dg → dg ≤ 31 → -8 ≤ drdg → drdg ≤ 7 → -8 ≤ dbdg → dbdg ≤ 7 →
    isPlus cur.r e.prev.r (drdg + dg) → isPlus cur.g e.prev.g dg → isPlus cur.b e.prev.b (dbdg + dg) →
    e.step = some (e.wrote cur
      [BitVec.ofInt 8 (0x80 + (dg + 32)), BitVec.ofInt 8 (16 * (drdg + 8) + (dbdg + 8))])

/-- R177, R171: RGB is written when INDEX, DIFF and LUMA do not apply and alpha is the same. -/
def Obligations.EncoderWritesRgb : Prop :=
  ∀ (e : Enc) (cur : Colour), e.reads cur → cur ≠ e.prev → e.flushedCache.lookup (colourHash cur) ≠ cur →
    diffFits cur e.prev = false → lumaFits cur e.prev = false → cur.a = e.prev.a →
    e.step = some (e.wrote cur [0xFE, cur.r, cur.g, cur.b])

/-- R178, R171: RGBA is written when INDEX does not apply and alpha differs. -/
def Obligations.EncoderWritesRgba : Prop :=
  ∀ (e : Enc) (cur : Colour), e.reads cur → cur ≠ e.prev → e.flushedCache.lookup (colourHash cur) ≠ cur →
    cur.a ≠ e.prev.a → e.step = some (e.wrote cur [0xFF, cur.r, cur.g, cur.b, cur.a])

/-- R110: a step of the encoder in PIXELS never writes DIFF 0 0 0 (byte 6A) or LUMA 0 0 0 (A0 88). For a pixel equal to
`PREV` it writes nothing or the RUN byte FD; for any other it writes the byte of the pending run, if there is one, and
then the bytes of a chunk that is neither of the two: those bytes do not arise from the deltas of a pixel that differs
from `PREV`. -/
def Obligations.EncoderNeverWritesZeroDeltas : Prop :=
  (∀ (e e' : Enc) (cur : Colour), e.reads cur → e.step = some e' →
    (cur = e.prev →
      (e'.byteOut = e.byteOut ∧ e'.bout = e.bout) ∨
      (e'.byteOut = e.byteOut.write e.bout 0xFD ∧ e'.bout = e.bout + 1)) ∧
    (cur ≠ e.prev → ∃ bs : List Byte, bs ≠ [] ∧ bs ≠ [0x6A] ∧ bs ≠ [0xA0, 0x88] ∧
      e'.byteOut = e.byteOut.writeMany e.bout (e.pendingBytes ++ bs) ∧
      e'.bout = e.bout + (e.pendingBytes ++ bs).length)) ∧
  ∀ (e : Enc) (cur : Colour), cur ≠ e.prev →
    (diffFits cur e.prev = true → diffByte (deltaR cur e.prev) (deltaG cur e.prev) (deltaB cur e.prev) ≠ 0x6A) ∧
    (lumaFits cur e.prev = true →
      [lumaByte0 (deltaG cur e.prev), lumaByte1 (deltaRG cur e.prev) (deltaBG cur e.prev)] ≠ [0xA0, 0x88])

/-- R180, R127: EncFinish flushes a pending run, writes the end marker and is DONE. -/
def Obligations.EncoderFinishes : Prop :=
  ∀ e : Enc, e.phase = .finish → e.outReady = true →
    e.step = some { e with
      byteOut := e.byteOut.writeMany e.bout (e.pendingBytes ++ [0, 0, 0, 0, 0, 0, 0, 1])
      bout := e.bout + (e.pendingBytes.length + 8)
      cache := e.flushedCache
      run := 0
      phase := .done }

/-- R184: `n` pixels equal to the `PREV` in force, then the flush, give n / 62 bytes FD and, if 62 does not divide n,
one byte for the rest. -/
def Obligations.RunCap : Prop :=
  ∀ (e : Enc) (n : Nat), e.run = 0 →
    (Nat.iterate (Enc.pixelStep e.prev) n e).flushPending.byteOut =
      e.byteOut.writeMany e.bout (List.replicate (n / 62) 0xFD ++
        if n % 62 = 0 then [] else [BitVec.ofNat 8 (0xC0 + n % 62 - 1)])

/-! ### Commands, reset, independence (spec/10_state.md, spec/60_exceptions.md, spec/70_reset_and_hazards.md) -/

/-- R120, R121, R34, R240: `ENC.START` in IDLE, DONE or ERROR begins a run from the start state, or, with an illegal
Header, ends in ERROR with nothing written; in any other phase it is ignored. The emptied ports are log 7 and the
`NPIX` of a failed start is log 4. -/
def Obligations.EncoderStart : Prop :=
  ∀ (s : State) (w h : Word) (ch cs : Byte) (rest : List Input), s.inputs = .encStart w h ch cs :: rest →
    (s.enc.phase = .idle ∨ s.enc.phase = .done ∨ s.enc.phase = .error →
      step s = .next { s with
        inputs := rest
        enc :=
          { hdr := ⟨w, h, ch, cs⟩, npix := w.toNat * h.toNat, pidx := 0, bout := 0, prev := ⟨0, 0, 0, 255⟩
            cache := Vector.replicate 64 ⟨0, 0, 0, 0⟩, run := 0, pixIn := [], byteOut := []
            outReady := s.enc.outReady
            phase := if 0 < w.toNat ∧ 0 < h.toNat ∧ (ch = 3 ∨ ch = 4) ∧ (cs = 0 ∨ cs = 1) then .header else .error
            err := if 0 < w.toNat ∧ 0 < h.toNat ∧ (ch = 3 ∨ ch = 4) ∧ (cs = 0 ∨ cs = 1) then .none
              else .validation } }) ∧
    (s.enc.phase = .header ∨ s.enc.phase = .pixels ∨ s.enc.phase = .finish →
      step s = .next { s with inputs := rest })

/-- R34, R240: `DEC.START` in IDLE, DONE or ERROR begins a run from the start state; in any other phase it is
ignored. The emptied ports are log 7. -/
def Obligations.DecoderStart : Prop :=
  ∀ (s : State) (blen : BitVec 64) (rest : List Input), s.inputs = .decStart blen :: rest →
    (s.dec.phase = .idle ∨ s.dec.phase = .done ∨ s.dec.phase = .error →
      step s = .next { s with
        inputs := rest
        dec :=
          { blen := blen.toNat, bpos := 0, hdr := none, npix := none, pcnt := 0, prev := ⟨0, 0, 0, 255⟩
            cache := Vector.replicate 64 ⟨0, 0, 0, 0⟩, rrem := 0, phase := .header, err := .none, errpos := 0
            endMismatch := false, runClip := false, byteIn := [], pixOut := []
            outReady := s.dec.outReady } }) ∧
    (s.dec.phase = .header ∨ s.dec.phase = .chunks ∨ s.dec.phase = .trailer →
      step s = .next { s with inputs := rest })

/-- R260: a hardware reset is always taken (R240), whatever the engines are doing, and leaves the values the rule's table
gives; so does the reset state. The registers it calls unspecified are not spoken of. -/
def Obligations.HardwareReset : Prop :=
  (∀ (s : State) (rest : List Input), s.inputs = .hardReset :: rest → ∃ t, step s = .next t ∧ t.isReset) ∧
  State.reset.isReset

/-- R30, R230: a status read shows the registers and the error's code, and gives the values of R30's table right after
reset. In a sound state DEC.HDR is a valid Header once the header is parsed and no value before (R34, log 3), and a
non-zero code is read exactly in ERROR (R238). -/
def Obligations.StatusReadsShowTheRegisters : Prop :=
  (ErrKind.code .none = 0 ∧ ErrKind.code .format = 1 ∧ ErrKind.code .truncated = 2 ∧ ErrKind.code .validation = 3) ∧
  (State.reset.encStatus = ⟨.idle, 0, 0, 0⟩ ∧ State.reset.decStatus = ⟨.idle, 0, 0, false, false, 0, 0⟩) ∧
  ∀ s : State,
    s.encStatus = ⟨s.enc.phase, s.enc.err.code, s.enc.pidx, s.enc.bout⟩ ∧
    s.decStatus = ⟨s.dec.phase, s.dec.err.code, s.dec.errpos, s.dec.endMismatch, s.dec.runClip, s.dec.pcnt,
      s.dec.bpos⟩ ∧
    s.decHdr = s.dec.hdr ∧
    (s.Inv →
      (s.decStatus.phase = .chunks ∨ s.decStatus.phase = .trailer ∨ s.decStatus.phase = .done →
        ∃ h : Header, h.valid = true ∧ s.decHdr = some h) ∧
      (s.decStatus.phase = .idle ∨ s.decStatus.phase = .header → s.decHdr = none) ∧
      (s.decStatus.phase = .error ↔ s.decStatus.err ≠ 0) ∧ (s.encStatus.phase = .error ↔ s.encStatus.err = 3) ∧
      (s.encStatus.phase ≠ .error → s.encStatus.err = 0))

/-- R216, R235, R238: a run has a result exactly when it is over; it is the error alone in ERROR, and the complete
output in DONE, never both. In a sound state the error is one of the three, the decoder's output is a valid Header with
exactly its pixels, and the encoder's is exactly `BOUT` bytes. How the void output is held is log 24. -/
def Obligations.ResultIsErrorOrCompleteOutput : Prop :=
  ∀ s : State,
    (s.dec.result.isSome = true ↔ s.dec.phase = .done ∨ s.dec.phase = .error) ∧
    (s.enc.result.isSome = true ↔ s.enc.phase = .done ∨ s.enc.phase = .error) ∧
    (s.dec.phase = .error → s.dec.result = some (.error s.dec.err)) ∧
    (s.enc.phase = .error → s.enc.result = some (.error s.enc.err)) ∧
    (s.Inv →
      (s.dec.phase = .error → s.dec.err ≠ .none) ∧
      (s.dec.phase = .done → s.dec.err = .none ∧ ∃ h : Header, h.valid = true ∧
        s.dec.result = some (.done (some h) s.dec.pixOut s.dec.endMismatch s.dec.runClip s.dec.bpos) ∧
        s.dec.pixOut.filledTo (4 * h.pixels)) ∧
      (s.enc.phase = .error → s.enc.err = .validation ∧ s.enc.bout = 0) ∧
      (s.enc.phase = .done → s.enc.err = .none ∧ s.enc.result = some (.done s.enc.byteOut) ∧
        s.enc.byteOut.filledTo s.enc.bout))

/-- R60, R63, R262: a byte offered on `DEC.byte_in` is the next byte of the stream, a pixel offered on `ENC.pix_in`
the next pixel, if the bytes offered so far are the first ones; nothing else changes. That an offer is an input of
the host is log 8. -/
def Obligations.OffersArriveInOrder : Prop :=
  ∀ (s : State) (n : Nat) (rest : List Input),
    (∀ b, s.inputs = .offerByte b :: rest → s.dec.byteIn.wf → s.dec.byteIn.filledTo n →
      step s = .next { s with inputs := rest, dec := { s.dec with byteIn := s.dec.byteIn.write n b } }) ∧
    (∀ c, s.inputs = .offerPixel c :: rest → s.enc.pixIn.wf → s.enc.pixIn.filledTo (4 * n) →
      step s = .next { s with inputs := rest, enc := { s.enc with pixIn := s.enc.pixIn.writeColour n c } })

/-- 93 U7: a host that writes an input buffer out of order while the run that reads it is in progress is refused by
name; between runs it may. -/
def Obligations.AlteredInputIsRefused : Prop :=
  ∀ (s : State) (k : Nat) (c : Colour) (b : Byte) (rest : List Input),
    (s.inputs = .alterPixel k c :: rest → s.enc.phase = .header ∨ s.enc.phase = .pixels ∨ s.enc.phase = .finish →
      step s = .refused .inputAltered) ∧
    (s.inputs = .alterByte k b :: rest → s.dec.phase = .header ∨ s.dec.phase = .chunks ∨ s.dec.phase = .trailer →
      step s = .refused .inputAltered)

/-- R35: executing an instruction neither reads nor changes the encoder, and a step of the encoder neither reads nor
changes the decoder. -/
def Obligations.EnginesShareNothing : Prop :=
  ∀ (s t : State) (e : Enc) (d : Dec),
    (∀ i, exec i s = .next t → t.enc = s.enc ∧ exec i { s with enc := e } = .next { t with enc := e }) ∧
    (decStep s = some (.next t) → t.enc = s.enc ∧ decStep { s with enc := e } = some (.next { t with enc := e })) ∧
    (encStep s = some (.next t) → t.dec = s.dec ∧ encStep { s with dec := d } = some (.next { t with dec := d }))

/-! ### Invariants and whole runs -/

/-- The reset state satisfies the invariant. Its clause that `ENC.NPIX` is the product of the header's fields holds
there by the model's choice of zeros, log 2; its clauses on `DEC.HDR` and `DEC.NPIX` by log 3. -/
def Obligations.ResetIsSound : Prop := State.reset.Inv

/-- R25, R27, R28, R31, R62, R63: every step keeps the invariant, whatever the host does. After a hardware reset the
clause on `ENC.NPIX` holds by log 2, after a failed start by log 4. -/
def Obligations.StepKeepsTheInvariant : Prop := ∀ s t : State, s.Inv → step s = .next t → t.Inv

/-- R147, R214, one pixel: from engines in lockstep, the chunk the encoder writes for a pixel that ends no run is the
encoding of an instruction, and executing that instruction produces the pixel and leaves the engines in lockstep. -/
def Obligations.LockstepOverOnePixel : Prop :=
  ∀ (e : Enc) (s : State) (n : Nat) (cur : Colour), lockstep e s.dec → e.run = 0 → cur ≠ e.prev → s.dec.inChunks n →
    ∃ i, placeOf i = .chunk ∧ i.wellFormed = true ∧
      (e.pixelStep cur).byteOut = e.byteOut.writeMany e.bout (encode i) ∧
      (e.pixelStep cur).bout = e.bout + instrLength i ∧
      (s.dec.bpos + instrLength i ≤ s.dec.blen → ∃ t, exec i s = .next t ∧
        lockstep (e.pixelStep cur) t.dec ∧ t.dec.pcnt = s.dec.pcnt + 1 ∧
        t.dec.bpos = s.dec.bpos + instrLength i ∧ t.dec.pixOut.readColour s.dec.pcnt = some cur)

/-- R147, R173, R208, one run: from engines in lockstep, the byte a flush writes is the encoding of a RUN, and
executing it produces the pending pixels and leaves the engines in lockstep. -/
def Obligations.LockstepOverOneRun : Prop :=
  ∀ (e : Enc) (s : State) (n : Nat), lockstep e s.dec → 1 ≤ e.run → e.run ≤ 62 → s.dec.inChunks n →
    s.dec.pcnt + e.run ≤ n → s.dec.bpos < s.dec.blen →
    ∃ (n1 : BitVec 6) (t : State), (Instr.run n1).wellFormed = true ∧
      e.flushRun.byteOut = e.byteOut.writeMany e.bout (encode (.run n1)) ∧
      exec (.run n1) s = .next t ∧ lockstep e.flushRun t.dec ∧ t.dec.pcnt = s.dec.pcnt + e.run ∧
      t.dec.runClip = s.dec.runClip ∧
      ∀ j, s.dec.pcnt ≤ j → j < s.dec.pcnt + e.run → t.dec.pixOut.readColour j = some e.prev

/-- R170, R182: an encoder run with all its pixels offered ends DONE, and its output has between 22 + ⌈NPIX/62⌉ and
22 + 5·NPIX bytes. -/
def Obligations.EncoderRunEnds : Prop :=
  ∀ (h : Header) (px : List Colour), h.valid = true → px.length = h.pixels →
    ∃ (k : Nat) (e : Enc),
      Host.Core.run core k (State.engines (Enc.loaded h px) Dec.reset) = .next (State.engines e Dec.reset) ∧
      e.phase = .done ∧ e.pidx = h.pixels ∧ e.run = 0 ∧ e.byteOut.filledTo e.bout ∧
      h.pixels ≤ 62 * (e.bout - 22) ∧ e.bout ≤ 22 + 5 * h.pixels

/-- R216: a decoder run on any byte sequence, the empty one included, ends: in ERROR with an error, or DONE with a
valid Header and exactly its number of pixels; and then it stays as it is (R238, log 10). -/
def Obligations.DecoderRunEnds : Prop :=
  ∀ S : List Byte, S.length < 2 ^ 64 →
    ∃ (k : Nat) (d : Dec),
      Host.Core.run core k (State.engines Enc.reset (Dec.loaded S.length (Memory.writeMany [] 0 S))) =
        .next (State.engines Enc.reset d) ∧
      step (State.engines Enc.reset d) = .next (State.engines Enc.reset d) ∧
      ((d.phase = .error ∧ d.err ≠ .none) ∨
        (d.phase = .done ∧ d.err = .none ∧ ∃ h : Header, h.valid = true ∧ d.hdr = some h ∧ d.pcnt = h.pixels ∧
          ∀ j, j < h.pixels → (d.pixOut.readColour j).isSome = true))

/-- R214: for every valid Header and every pixel sequence of its length, the decoder run on the encoder run's output
is DONE with the same Header and the same pixels, no error, no warning, eight bytes left. -/
def Obligations.RoundTrip : Prop :=
  ∀ (h : Header) (px : List Colour), h.valid = true → px.length = h.pixels →
    ∃ (k m : Nat) (e : Enc) (d : Dec),
      Host.Core.run core k (State.engines (Enc.loaded h px) Dec.reset) = .next (State.engines e Dec.reset) ∧
      e.phase = .done ∧
      Host.Core.run core m (State.engines Enc.reset (Dec.loaded e.bout e.byteOut)) =
        .next (State.engines Enc.reset d) ∧
      d.phase = .done ∧ d.err = .none ∧ d.hdr = some h ∧ d.endMismatch = false ∧ d.runClip = false ∧
      d.bpos + 8 = e.bout ∧ d.pcnt = px.length ∧ ∀ j, j < px.length → d.pixOut.readColour j = px[j]?
end

