-- ==== Sys2Proof/Laws/Cache.lean ====
section
/-! SUPPORT. The laws of the colour cache (spec/41_colour_cache.md). -/

namespace Sys2Proof.Machine

/-- R140: the hash as a number. -/
theorem colourHash_toNat (c : Colour) :
    (colourHash c).toNat = (c.r.toNat * 3 + c.g.toNat * 5 + c.b.toNat * 7 + c.a.toNat * 11) % 64 := by
  simp [colourHash]

/-- R142, R143: a lookup after a store. -/
theorem Cache.lookup_store (k : Cache) (c : Colour) (i : Slot) :
    (k.store c).lookup i = if i = colourHash c then c else k.lookup i := by
  simp only [Cache.lookup, Cache.store, Vector.getElem_set]
  by_cases h : i = colourHash c
  · simp [h]
  · rw [if_neg h, if_neg (fun h' => h (BitVec.eq_of_toNat_eq h'.symm))]

/-- Two caches that agree on every slot are equal. -/
theorem Cache.ext_lookup {k k' : Cache} (h : ∀ i, k.lookup i = k'.lookup i) : k = k' := by
  apply Vector.ext
  intro i hi
  have := h (BitVec.ofNat 6 i)
  simpa [Cache.lookup, Nat.mod_eq_of_lt (show i < 64 from hi)] using this

/-- R143: storing a Colour twice is storing it once. -/
theorem Cache.store_store (k : Cache) (c : Colour) : (k.store c).store c = k.store c := by
  apply Cache.ext_lookup
  intro i
  simp only [Cache.lookup_store]
  split <;> rfl

/-- R31: every slot of a fresh cache reads as the unwritten value. -/
theorem freshCache_lookup (i : Slot) : freshCache.lookup i = Config.slotInit := by
  simp [freshCache, Cache.lookup]

/-- R143: a fresh cache is sound. -/
theorem freshCache_sound : freshCache.sound := fun i => .inl (freshCache_lookup i)

/-- R143: a store keeps the cache sound. -/
theorem Cache.sound_store {k : Cache} (h : k.sound) (c : Colour) : (k.store c).sound := by
  intro i
  rw [Cache.lookup_store]
  split
  · rename_i hi; exact .inr hi.symm
  · exact h i

end Sys2Proof.Machine
end

