-- ==== Sys2Proof/Laws/Memory.lean ====
section
/-! SUPPORT. The laws of the stream memories: reading after writing, leaving every other address alone, and
keeping the canonical form `Memory.wf`. -/

namespace Sys2Proof.Machine

@[simp] theorem Memory.read_nil (a : Nat) : Memory.read [] a = none := rfl

/-- A read gives the byte just written there, and elsewhere what it gave before. -/
theorem Memory.read_write (m : Memory) (a x : Nat) (b : Byte) :
    (m.write a b).read x = if x = a then some b else m.read x := by
  induction m with
  | nil => simp only [Memory.write, Memory.read, Memory.unlisted]
  | cons c m ih =>
    obtain ⟨k, v⟩ := c
    simp only [Memory.write]
    split
    · simp only [Memory.read]
    · split
      · simp only [Memory.read]
        split <;> simp_all
      · simp only [Memory.read, ih]
        split <;> split <;> simp_all

@[simp] theorem Memory.read_write_same (m : Memory) (a : Nat) (b : Byte) :
    (m.write a b).read a = some b := by simp [Memory.read_write]

theorem Memory.read_write_other (m : Memory) {a x : Nat} (b : Byte) (h : x ≠ a) :
    (m.write a b).read x = m.read x := by simp [Memory.read_write, h]

/-- What an address reads as after bytes are written from `a` on. -/
theorem Memory.read_writeMany (bs : List Byte) (m : Memory) (a x : Nat) :
    (m.writeMany a bs).read x = if a ≤ x ∧ x < a + bs.length then bs[x - a]? else m.read x := by
  induction bs generalizing m a with
  | nil => simp only [Memory.writeMany, List.length_nil]; split <;> first | omega | rfl
  | cons b bs ih =>
    simp only [Memory.writeMany, ih, Memory.read_write, List.length_cons]
    by_cases hx : x = a
    · subst hx
      rw [if_neg (by omega), if_pos rfl, if_pos (by omega)]
      simp
    · by_cases h1 : a + 1 ≤ x ∧ x < a + 1 + bs.length
      · rw [if_pos h1, if_pos (by omega)]
        obtain ⟨j, hj⟩ : ∃ j, x - a = j + 1 := ⟨x - a - 1, by omega⟩
        rw [hj, show x - (a + 1) = j by omega, List.getElem?_cons_succ]
      · rw [if_neg h1, if_neg hx, if_neg (by omega)]

/-- The keys of a list after a write: the old ones and the written one. -/
theorem Memory.mem_write {m : Memory} {a : Nat} {b : Byte} {c : Host.Cell} (h : c ∈ m.write a b) :
    c = (a, b) ∨ c ∈ m := by
  induction m with
  | nil => simpa [Memory.write] using h
  | cons d m ih =>
    obtain ⟨k, v⟩ := d
    simp only [Memory.write] at h
    split at h
    · simpa using h
    · split at h
      · rcases List.mem_cons.mp h with h | h
        · exact .inl h
        · exact .inr (List.mem_cons_of_mem _ h)
      · rcases List.mem_cons.mp h with h | h
        · exact .inr (h ▸ List.mem_cons_self)
        · exact (ih h).imp id (List.mem_cons_of_mem _)

theorem Memory.wf_nil : Memory.wf [] := List.Pairwise.nil

/-- A write keeps the canonical form. -/
theorem Memory.wf_write {m : Memory} (h : m.wf) (a : Nat) (b : Byte) : (m.write a b).wf := by
  induction m with
  | nil => simp [Memory.write, Memory.wf]
  | cons d m ih =>
    obtain ⟨k, v⟩ := d
    obtain ⟨hk, hm⟩ := List.pairwise_cons.mp h
    simp only [Memory.write]
    split
    · rename_i hlt
      refine List.pairwise_cons.mpr ⟨fun c hc => ?_, h⟩
      rcases List.mem_cons.mp hc with rfl | hc
      · exact hlt
      · exact Nat.lt_trans hlt (hk c hc)
    · split
      · rename_i _ heq
        exact List.pairwise_cons.mpr ⟨fun c hc => heq ▸ hk c hc, hm⟩
      · refine List.pairwise_cons.mpr ⟨fun c hc => ?_, ih hm⟩
        rcases Memory.mem_write hc with rfl | hc
        · simp only; omega
        · exact hk c hc

/-- Writing bytes keeps the canonical form. -/
theorem Memory.wf_writeMany (bs : List Byte) {m : Memory} (h : m.wf) (a : Nat) : (m.writeMany a bs).wf := by
  induction bs generalizing m a with
  | nil => exact h
  | cons b bs ih => exact ih (Memory.wf_write h a b) (a + 1)

/-- Writing a pixel keeps the canonical form. -/
theorem Memory.wf_writeColour {m : Memory} (h : m.wf) (k : Nat) (c : Colour) : (m.writeColour k c).wf :=
  Memory.wf_writeMany _ h _

/-- Writing pixels keeps the canonical form. -/
theorem Memory.wf_writeColours (cs : List Colour) {m : Memory} (h : m.wf) (k : Nat) :
    (m.writeColours k cs).wf := by
  induction cs generalizing m k with
  | nil => exact h
  | cons c cs ih => exact ih (Memory.wf_writeColour h k c) (k + 1)

/-- Dropping cells keeps the canonical form. -/
theorem Memory.wf_dropRange {m : Memory} (h : m.wf) (lo hi : Nat) : (m.dropRange lo hi).wf :=
  List.Pairwise.filter _ h

/-- Dropped addresses read as unlisted, the others as before. -/
theorem Memory.read_dropRange (m : Memory) (lo hi x : Nat) :
    (m.dropRange lo hi).read x = if lo ≤ x ∧ x < hi then none else m.read x := by
  induction m with
  | nil => simp [Memory.dropRange]
  | cons c m ih =>
    obtain ⟨k, v⟩ := c
    simp only [Memory.dropRange, List.filter_cons] at ih ⊢
    split <;> rename_i hk <;> simp at hk <;> simp only [Memory.read, ih] <;> split <;>
      first | rfl | (split <;> simp_all <;> omega)

/-- The bytes read back after they are written. -/
theorem Memory.readMany_eq_some_iff (m : Memory) (n a : Nat) (bs : List Byte) :
    m.readMany a n = some bs ↔ bs.length = n ∧ ∀ k (h : k < bs.length), m.read (a + k) = some bs[k] := by
  induction n generalizing a bs with
  | zero => cases bs <;> simp [Memory.readMany]
  | succ n ih =>
    simp only [Memory.readMany]
    constructor
    · intro h
      split at h
      · rename_i b bs' hb hbs
        obtain rfl := Option.some.inj h
        obtain ⟨hl, hr⟩ := (ih _ _).mp hbs
        refine ⟨by simp [hl], fun k hk => ?_⟩
        cases k with
        | zero => simpa using hb
        | succ k => simpa [Nat.add_assoc, Nat.add_comm, Nat.add_left_comm] using hr k (by simpa using hk)
      · cases h
    · rintro ⟨hl, hr⟩
      cases bs with
      | nil => simp at hl
      | cons b bs =>
        have h0 := hr 0 (by simp)
        have h1 := (ih (a + 1) bs).mpr ⟨by simpa using hl, fun k hk => by
          have := hr (k + 1) (by simpa using hk)
          rwa [List.getElem_cons_succ, show a + (k + 1) = a + 1 + k by omega] at this⟩
        simp only [Nat.add_zero, List.getElem_cons_zero] at h0
        simp [h0, h1]

/-- R63, R67: a pixel reads back whole after it is written, and every other pixel as before. -/
theorem Memory.readColour_writeColour (m : Memory) (k j : Nat) (c : Colour) :
    (m.writeColour k c).readColour j = if j = k then some c else m.readColour j := by
  simp only [Memory.readColour, Memory.writeColour, Memory.read_writeMany, List.length_cons, List.length_nil]
  by_cases h : j = k
  · subst h
    simp only [show 4 * j + 1 - 4 * j = 1 by omega, show 4 * j + 2 - 4 * j = 2 by omega,
      show 4 * j + 3 - 4 * j = 3 by omega, Nat.sub_self]
    repeat rw [if_pos (by omega)]
    simp
  · repeat rw [if_neg (by omega)]

/-- R63: a byte outside the pixel's four is left alone. -/
theorem Memory.read_writeColour_other (m : Memory) (k x : Nat) (c : Colour)
    (h : x < 4 * k ∨ 4 * k + 4 ≤ x) : (m.writeColour k c).read x = m.read x := by
  simp only [Memory.writeColour, Memory.read_writeMany, List.length_cons, List.length_nil]
  rw [if_neg (by omega)]

/-- What a pixel reads as after pixels are written from `k` on. -/
theorem Memory.readColour_writeColours (cs : List Colour) (m : Memory) (k j : Nat) :
    (m.writeColours k cs).readColour j = if k ≤ j ∧ j < k + cs.length then cs[j - k]? else m.readColour j := by
  induction cs generalizing m k with
  | nil => simp only [Memory.writeColours, List.length_nil]; split <;> first | omega | rfl
  | cons c cs ih =>
    simp only [Memory.writeColours, ih, Memory.readColour_writeColour, List.length_cons]
    by_cases hj : j = k
    · subst hj
      rw [if_neg (by omega), if_pos rfl, if_pos (by omega)]
      simp
    · by_cases h1 : k + 1 ≤ j ∧ j < k + 1 + cs.length
      · rw [if_pos h1, if_pos (by omega)]
        obtain ⟨i, hi⟩ : ∃ i, j - k = i + 1 := ⟨j - k - 1, by omega⟩
        rw [hi, show j - (k + 1) = i by omega, List.getElem?_cons_succ]
      · rw [if_neg h1, if_neg hj, if_neg (by omega)]

/-- A byte outside the pixels written is left alone. -/
theorem Memory.read_writeColours_other (cs : List Colour) (m : Memory) (k x : Nat)
    (h : x < 4 * k ∨ 4 * (k + cs.length) ≤ x) : (m.writeColours k cs).read x = m.read x := by
  induction cs generalizing m k with
  | nil => rfl
  | cons c cs ih =>
    simp only [List.length_cons] at h
    simp only [Memory.writeColours]
    rw [ih _ _ (by omega), Memory.read_writeColour_other _ _ _ _ (by omega)]

/-- A filled stream stays filled when the next byte is written. -/
theorem Memory.filledTo_writeMany {m : Memory} {n : Nat} (h : m.filledTo n) (bs : List Byte) :
    (m.writeMany n bs).filledTo (n + bs.length) := by
  intro x
  rw [Memory.read_writeMany]
  split
  · rename_i hx
    simp only [List.getElem?_eq_getElem (show x - n < bs.length by omega), Option.isSome_some, true_iff]
    exact hx.2
  · rw [h x]; omega

/-- R60, R63: in a stream filled up to `n`, the next item goes to `n`. -/
theorem Memory.next_of_filledTo {m : Memory} {n : Nat} (hw : m.wf) (hf : m.filledTo n) : m.next = n := by
  have key : ∀ m : Memory, m.wf → m ≠ [] →
      (m.read (m.next - 1)).isSome = true ∧ 0 < m.next ∧ ∀ a, m.next ≤ a → m.read a = none := by
    intro m
    induction m with
    | nil => exact fun _ h => absurd rfl h
    | cons c m ih =>
      intro hw _
      obtain ⟨k, v⟩ := c
      obtain ⟨h1, h2⟩ := List.pairwise_cons.mp hw
      cases m with
      | nil =>
        refine ⟨by simp [Memory.next, Memory.read], by simp [Memory.next], fun a ha => ?_⟩
        simp only [Memory.next] at ha
        simp only [Memory.read]
        rw [if_neg (by omega)]
        rfl
      | cons c2 m2 =>
        obtain ⟨q1, q2, q3⟩ := ih h2 (by simp)
        have e : Memory.next ((k, v) :: c2 :: m2) = Memory.next (c2 :: m2) := rfl
        have hlt : k < Memory.next (c2 :: m2) := by
          by_contra hc
          have := q3 c2.1 (by have := h1 c2 (by simp); simp only at this; omega)
          simp [Memory.read] at this
        rw [e]
        refine ⟨?_, q2, fun a ha => ?_⟩
        · rw [Memory.read]
          split
          · rfl
          · exact q1
        · rw [Memory.read, if_neg (by omega)]
          exact q3 a ha
  cases hm : m with
  | nil =>
    subst hm
    have := hf 0
    simp only [Memory.read_nil, Option.isSome_none, Bool.false_eq_true, false_iff] at this
    simp only [Memory.next]
    omega
  | cons c m' =>
    obtain ⟨q1, q2, q3⟩ := key m hw (by simp [hm])
    have h1 := (hf _).mp q1
    rw [hm] at q3 q2 h1
    by_contra hc
    have h2 := (hf (Memory.next (c :: m'))).mpr (by omega)
    rw [hm, q3 _ (Nat.le_refl _)] at h2
    cases h2

end Sys2Proof.Machine
end

