-- ==== Sys2Proof/Laws/State.lean ====
section
/-! SUPPORT. One lemma for each field and each named update of the state records, true by `rfl`, so that no
proof unfolds a record update. -/

namespace Sys2Proof.Machine

/-! `State.setDec` -/

@[simp] theorem State.setDec_enc (s : State) (d : Dec) : (State.setDec s d).enc = s.enc := rfl
@[simp] theorem State.setDec_dec (s : State) (d : Dec) : (State.setDec s d).dec = d := rfl
@[simp] theorem State.setDec_inputs (s : State) (d : Dec) : (State.setDec s d).inputs = s.inputs := rfl

/-! `State.setEnc` -/

@[simp] theorem State.setEnc_enc (s : State) (e : Enc) : (State.setEnc s e).enc = e := rfl
@[simp] theorem State.setEnc_dec (s : State) (e : Enc) : (State.setEnc s e).dec = s.dec := rfl
@[simp] theorem State.setEnc_inputs (s : State) (e : Enc) : (State.setEnc s e).inputs = s.inputs := rfl

/-! `State.setInputs` -/

@[simp] theorem State.setInputs_enc (s : State) (l : List Input) : (State.setInputs s l).enc = s.enc := rfl
@[simp] theorem State.setInputs_dec (s : State) (l : List Input) : (State.setInputs s l).dec = s.dec := rfl
@[simp] theorem State.setInputs_inputs (s : State) (l : List Input) : (State.setInputs s l).inputs = l := rfl

/-! `State.hardReset` -/

@[simp] theorem State.hardReset_enc (s : State) :
    s.hardReset.enc = { Enc.reset with outReady := s.enc.outReady } := rfl
@[simp] theorem State.hardReset_dec (s : State) :
    s.hardReset.dec = { Dec.reset with outReady := s.dec.outReady } := rfl
@[simp] theorem State.hardReset_inputs (s : State) : s.hardReset.inputs = s.inputs := rfl

/-! `Enc.byteWrite` -/

@[simp] theorem Enc.byteWrite_hdr (e : Enc) (b : Byte) : (Enc.byteWrite e b).hdr = e.hdr := rfl
@[simp] theorem Enc.byteWrite_npix (e : Enc) (b : Byte) : (Enc.byteWrite e b).npix = e.npix := rfl
@[simp] theorem Enc.byteWrite_pidx (e : Enc) (b : Byte) : (Enc.byteWrite e b).pidx = e.pidx := rfl
@[simp] theorem Enc.byteWrite_bout (e : Enc) (b : Byte) : (Enc.byteWrite e b).bout = e.bout + 1 := rfl
@[simp] theorem Enc.byteWrite_prev (e : Enc) (b : Byte) : (Enc.byteWrite e b).prev = e.prev := rfl
@[simp] theorem Enc.byteWrite_cache (e : Enc) (b : Byte) : (Enc.byteWrite e b).cache = e.cache := rfl
@[simp] theorem Enc.byteWrite_run (e : Enc) (b : Byte) : (Enc.byteWrite e b).run = e.run := rfl
@[simp] theorem Enc.byteWrite_phase (e : Enc) (b : Byte) : (Enc.byteWrite e b).phase = e.phase := rfl
@[simp] theorem Enc.byteWrite_err (e : Enc) (b : Byte) : (Enc.byteWrite e b).err = e.err := rfl
@[simp] theorem Enc.byteWrite_pixIn (e : Enc) (b : Byte) : (Enc.byteWrite e b).pixIn = e.pixIn := rfl
@[simp] theorem Enc.byteWrite_byteOut (e : Enc) (b : Byte) : (Enc.byteWrite e b).byteOut = e.byteOut.write e.bout b := rfl
@[simp] theorem Enc.byteWrite_outReady (e : Enc) (b : Byte) : (Enc.byteWrite e b).outReady = e.outReady := rfl

/-! `Enc.store` -/

@[simp] theorem Enc.store_hdr (e : Enc) (c : Colour) : (Enc.store e c).hdr = e.hdr := rfl
@[simp] theorem Enc.store_npix (e : Enc) (c : Colour) : (Enc.store e c).npix = e.npix := rfl
@[simp] theorem Enc.store_pidx (e : Enc) (c : Colour) : (Enc.store e c).pidx = e.pidx := rfl
@[simp] theorem Enc.store_bout (e : Enc) (c : Colour) : (Enc.store e c).bout = e.bout := rfl
@[simp] theorem Enc.store_prev (e : Enc) (c : Colour) : (Enc.store e c).prev = e.prev := rfl
@[simp] theorem Enc.store_cache (e : Enc) (c : Colour) : (Enc.store e c).cache = e.cache.store c := rfl
@[simp] theorem Enc.store_run (e : Enc) (c : Colour) : (Enc.store e c).run = e.run := rfl
@[simp] theorem Enc.store_phase (e : Enc) (c : Colour) : (Enc.store e c).phase = e.phase := rfl
@[simp] theorem Enc.store_err (e : Enc) (c : Colour) : (Enc.store e c).err = e.err := rfl
@[simp] theorem Enc.store_pixIn (e : Enc) (c : Colour) : (Enc.store e c).pixIn = e.pixIn := rfl
@[simp] theorem Enc.store_byteOut (e : Enc) (c : Colour) : (Enc.store e c).byteOut = e.byteOut := rfl
@[simp] theorem Enc.store_outReady (e : Enc) (c : Colour) : (Enc.store e c).outReady = e.outReady := rfl

/-! `Enc.setPrev` -/

@[simp] theorem Enc.setPrev_hdr (e : Enc) (c : Colour) : (Enc.setPrev e c).hdr = e.hdr := rfl
@[simp] theorem Enc.setPrev_npix (e : Enc) (c : Colour) : (Enc.setPrev e c).npix = e.npix := rfl
@[simp] theorem Enc.setPrev_pidx (e : Enc) (c : Colour) : (Enc.setPrev e c).pidx = e.pidx := rfl
@[simp] theorem Enc.setPrev_bout (e : Enc) (c : Colour) : (Enc.setPrev e c).bout = e.bout := rfl
@[simp] theorem Enc.setPrev_prev (e : Enc) (c : Colour) : (Enc.setPrev e c).prev = c := rfl
@[simp] theorem Enc.setPrev_cache (e : Enc) (c : Colour) : (Enc.setPrev e c).cache = e.cache := rfl
@[simp] theorem Enc.setPrev_run (e : Enc) (c : Colour) : (Enc.setPrev e c).run = e.run := rfl
@[simp] theorem Enc.setPrev_phase (e : Enc) (c : Colour) : (Enc.setPrev e c).phase = e.phase := rfl
@[simp] theorem Enc.setPrev_err (e : Enc) (c : Colour) : (Enc.setPrev e c).err = e.err := rfl
@[simp] theorem Enc.setPrev_pixIn (e : Enc) (c : Colour) : (Enc.setPrev e c).pixIn = e.pixIn := rfl
@[simp] theorem Enc.setPrev_byteOut (e : Enc) (c : Colour) : (Enc.setPrev e c).byteOut = e.byteOut := rfl
@[simp] theorem Enc.setPrev_outReady (e : Enc) (c : Colour) : (Enc.setPrev e c).outReady = e.outReady := rfl

/-! `Enc.setRun` -/

@[simp] theorem Enc.setRun_hdr (e : Enc) (n : Nat) : (Enc.setRun e n).hdr = e.hdr := rfl
@[simp] theorem Enc.setRun_npix (e : Enc) (n : Nat) : (Enc.setRun e n).npix = e.npix := rfl
@[simp] theorem Enc.setRun_pidx (e : Enc) (n : Nat) : (Enc.setRun e n).pidx = e.pidx := rfl
@[simp] theorem Enc.setRun_bout (e : Enc) (n : Nat) : (Enc.setRun e n).bout = e.bout := rfl
@[simp] theorem Enc.setRun_prev (e : Enc) (n : Nat) : (Enc.setRun e n).prev = e.prev := rfl
@[simp] theorem Enc.setRun_cache (e : Enc) (n : Nat) : (Enc.setRun e n).cache = e.cache := rfl
@[simp] theorem Enc.setRun_run (e : Enc) (n : Nat) : (Enc.setRun e n).run = n := rfl
@[simp] theorem Enc.setRun_phase (e : Enc) (n : Nat) : (Enc.setRun e n).phase = e.phase := rfl
@[simp] theorem Enc.setRun_err (e : Enc) (n : Nat) : (Enc.setRun e n).err = e.err := rfl
@[simp] theorem Enc.setRun_pixIn (e : Enc) (n : Nat) : (Enc.setRun e n).pixIn = e.pixIn := rfl
@[simp] theorem Enc.setRun_byteOut (e : Enc) (n : Nat) : (Enc.setRun e n).byteOut = e.byteOut := rfl
@[simp] theorem Enc.setRun_outReady (e : Enc) (n : Nat) : (Enc.setRun e n).outReady = e.outReady := rfl

/-! `Enc.setPhase` -/

@[simp] theorem Enc.setPhase_hdr (e : Enc) (p : EncPhase) : (Enc.setPhase e p).hdr = e.hdr := rfl
@[simp] theorem Enc.setPhase_npix (e : Enc) (p : EncPhase) : (Enc.setPhase e p).npix = e.npix := rfl
@[simp] theorem Enc.setPhase_pidx (e : Enc) (p : EncPhase) : (Enc.setPhase e p).pidx = e.pidx := rfl
@[simp] theorem Enc.setPhase_bout (e : Enc) (p : EncPhase) : (Enc.setPhase e p).bout = e.bout := rfl
@[simp] theorem Enc.setPhase_prev (e : Enc) (p : EncPhase) : (Enc.setPhase e p).prev = e.prev := rfl
@[simp] theorem Enc.setPhase_cache (e : Enc) (p : EncPhase) : (Enc.setPhase e p).cache = e.cache := rfl
@[simp] theorem Enc.setPhase_run (e : Enc) (p : EncPhase) : (Enc.setPhase e p).run = e.run := rfl
@[simp] theorem Enc.setPhase_phase (e : Enc) (p : EncPhase) : (Enc.setPhase e p).phase = p := rfl
@[simp] theorem Enc.setPhase_err (e : Enc) (p : EncPhase) : (Enc.setPhase e p).err = e.err := rfl
@[simp] theorem Enc.setPhase_pixIn (e : Enc) (p : EncPhase) : (Enc.setPhase e p).pixIn = e.pixIn := rfl
@[simp] theorem Enc.setPhase_byteOut (e : Enc) (p : EncPhase) : (Enc.setPhase e p).byteOut = e.byteOut := rfl
@[simp] theorem Enc.setPhase_outReady (e : Enc) (p : EncPhase) : (Enc.setPhase e p).outReady = e.outReady := rfl

/-! `Enc.raise` -/

@[simp] theorem Enc.raise_hdr (e : Enc) (k : ErrKind) : (Enc.raise e k).hdr = e.hdr := rfl
@[simp] theorem Enc.raise_npix (e : Enc) (k : ErrKind) : (Enc.raise e k).npix = e.npix := rfl
@[simp] theorem Enc.raise_pidx (e : Enc) (k : ErrKind) : (Enc.raise e k).pidx = e.pidx := rfl
@[simp] theorem Enc.raise_bout (e : Enc) (k : ErrKind) : (Enc.raise e k).bout = e.bout := rfl
@[simp] theorem Enc.raise_prev (e : Enc) (k : ErrKind) : (Enc.raise e k).prev = e.prev := rfl
@[simp] theorem Enc.raise_cache (e : Enc) (k : ErrKind) : (Enc.raise e k).cache = e.cache := rfl
@[simp] theorem Enc.raise_run (e : Enc) (k : ErrKind) : (Enc.raise e k).run = e.run := rfl
@[simp] theorem Enc.raise_phase (e : Enc) (k : ErrKind) : (Enc.raise e k).phase = .error := rfl
@[simp] theorem Enc.raise_err (e : Enc) (k : ErrKind) : (Enc.raise e k).err = k := rfl
@[simp] theorem Enc.raise_pixIn (e : Enc) (k : ErrKind) : (Enc.raise e k).pixIn = e.pixIn := rfl
@[simp] theorem Enc.raise_byteOut (e : Enc) (k : ErrKind) : (Enc.raise e k).byteOut = e.byteOut := rfl
@[simp] theorem Enc.raise_outReady (e : Enc) (k : ErrKind) : (Enc.raise e k).outReady = e.outReady := rfl

/-! `Dec.raise` -/

@[simp] theorem Dec.raise_blen (d : Dec) (k : ErrKind) : (Dec.raise d k).blen = d.blen := rfl
@[simp] theorem Dec.raise_bpos (d : Dec) (k : ErrKind) : (Dec.raise d k).bpos = d.bpos := rfl
@[simp] theorem Dec.raise_hdr (d : Dec) (k : ErrKind) : (Dec.raise d k).hdr = d.hdr := rfl
@[simp] theorem Dec.raise_npix (d : Dec) (k : ErrKind) : (Dec.raise d k).npix = d.npix := rfl
@[simp] theorem Dec.raise_pcnt (d : Dec) (k : ErrKind) : (Dec.raise d k).pcnt = d.pcnt := rfl
@[simp] theorem Dec.raise_prev (d : Dec) (k : ErrKind) : (Dec.raise d k).prev = d.prev := rfl
@[simp] theorem Dec.raise_cache (d : Dec) (k : ErrKind) : (Dec.raise d k).cache = d.cache := rfl
@[simp] theorem Dec.raise_rrem (d : Dec) (k : ErrKind) : (Dec.raise d k).rrem = d.rrem := rfl
@[simp] theorem Dec.raise_phase (d : Dec) (k : ErrKind) : (Dec.raise d k).phase = .error := rfl
@[simp] theorem Dec.raise_err (d : Dec) (k : ErrKind) : (Dec.raise d k).err = k := rfl
@[simp] theorem Dec.raise_errpos (d : Dec) (k : ErrKind) : (Dec.raise d k).errpos = d.bpos := rfl
@[simp] theorem Dec.raise_endMismatch (d : Dec) (k : ErrKind) : (Dec.raise d k).endMismatch = d.endMismatch := rfl
@[simp] theorem Dec.raise_runClip (d : Dec) (k : ErrKind) : (Dec.raise d k).runClip = d.runClip := rfl
@[simp] theorem Dec.raise_byteIn (d : Dec) (k : ErrKind) : (Dec.raise d k).byteIn = d.byteIn := rfl
@[simp] theorem Dec.raise_pixOut (d : Dec) (k : ErrKind) : (Dec.raise d k).pixOut = d.pixOut := rfl
@[simp] theorem Dec.raise_outReady (d : Dec) (k : ErrKind) : (Dec.raise d k).outReady = d.outReady := rfl

/-! `Dec.setPhase` -/

@[simp] theorem Dec.setPhase_blen (d : Dec) (p : DecPhase) : (Dec.setPhase d p).blen = d.blen := rfl
@[simp] theorem Dec.setPhase_bpos (d : Dec) (p : DecPhase) : (Dec.setPhase d p).bpos = d.bpos := rfl
@[simp] theorem Dec.setPhase_hdr (d : Dec) (p : DecPhase) : (Dec.setPhase d p).hdr = d.hdr := rfl
@[simp] theorem Dec.setPhase_npix (d : Dec) (p : DecPhase) : (Dec.setPhase d p).npix = d.npix := rfl
@[simp] theorem Dec.setPhase_pcnt (d : Dec) (p : DecPhase) : (Dec.setPhase d p).pcnt = d.pcnt := rfl
@[simp] theorem Dec.setPhase_prev (d : Dec) (p : DecPhase) : (Dec.setPhase d p).prev = d.prev := rfl
@[simp] theorem Dec.setPhase_cache (d : Dec) (p : DecPhase) : (Dec.setPhase d p).cache = d.cache := rfl
@[simp] theorem Dec.setPhase_rrem (d : Dec) (p : DecPhase) : (Dec.setPhase d p).rrem = d.rrem := rfl
@[simp] theorem Dec.setPhase_phase (d : Dec) (p : DecPhase) : (Dec.setPhase d p).phase = p := rfl
@[simp] theorem Dec.setPhase_err (d : Dec) (p : DecPhase) : (Dec.setPhase d p).err = d.err := rfl
@[simp] theorem Dec.setPhase_errpos (d : Dec) (p : DecPhase) : (Dec.setPhase d p).errpos = d.errpos := rfl
@[simp] theorem Dec.setPhase_endMismatch (d : Dec) (p : DecPhase) : (Dec.setPhase d p).endMismatch = d.endMismatch := rfl
@[simp] theorem Dec.setPhase_runClip (d : Dec) (p : DecPhase) : (Dec.setPhase d p).runClip = d.runClip := rfl
@[simp] theorem Dec.setPhase_byteIn (d : Dec) (p : DecPhase) : (Dec.setPhase d p).byteIn = d.byteIn := rfl
@[simp] theorem Dec.setPhase_pixOut (d : Dec) (p : DecPhase) : (Dec.setPhase d p).pixOut = d.pixOut := rfl
@[simp] theorem Dec.setPhase_outReady (d : Dec) (p : DecPhase) : (Dec.setPhase d p).outReady = d.outReady := rfl

/-! `Dec.advance` -/

@[simp] theorem Dec.advance_blen (d : Dec) (n : Nat) : (Dec.advance d n).blen = d.blen := rfl
@[simp] theorem Dec.advance_bpos (d : Dec) (n : Nat) : (Dec.advance d n).bpos = d.bpos + n := rfl
@[simp] theorem Dec.advance_hdr (d : Dec) (n : Nat) : (Dec.advance d n).hdr = d.hdr := rfl
@[simp] theorem Dec.advance_npix (d : Dec) (n : Nat) : (Dec.advance d n).npix = d.npix := rfl
@[simp] theorem Dec.advance_pcnt (d : Dec) (n : Nat) : (Dec.advance d n).pcnt = d.pcnt := rfl
@[simp] theorem Dec.advance_prev (d : Dec) (n : Nat) : (Dec.advance d n).prev = d.prev := rfl
@[simp] theorem Dec.advance_cache (d : Dec) (n : Nat) : (Dec.advance d n).cache = d.cache := rfl
@[simp] theorem Dec.advance_rrem (d : Dec) (n : Nat) : (Dec.advance d n).rrem = d.rrem := rfl
@[simp] theorem Dec.advance_phase (d : Dec) (n : Nat) : (Dec.advance d n).phase = d.phase := rfl
@[simp] theorem Dec.advance_err (d : Dec) (n : Nat) : (Dec.advance d n).err = d.err := rfl
@[simp] theorem Dec.advance_errpos (d : Dec) (n : Nat) : (Dec.advance d n).errpos = d.errpos := rfl
@[simp] theorem Dec.advance_endMismatch (d : Dec) (n : Nat) : (Dec.advance d n).endMismatch = d.endMismatch := rfl
@[simp] theorem Dec.advance_runClip (d : Dec) (n : Nat) : (Dec.advance d n).runClip = d.runClip := rfl
@[simp] theorem Dec.advance_byteIn (d : Dec) (n : Nat) : (Dec.advance d n).byteIn = d.byteIn := rfl
@[simp] theorem Dec.advance_pixOut (d : Dec) (n : Nat) : (Dec.advance d n).pixOut = d.pixOut := rfl
@[simp] theorem Dec.advance_outReady (d : Dec) (n : Nat) : (Dec.advance d n).outReady = d.outReady := rfl

/-! `Dec.pixWrite` -/

@[simp] theorem Dec.pixWrite_blen (d : Dec) (c : Colour) : (Dec.pixWrite d c).blen = d.blen := rfl
@[simp] theorem Dec.pixWrite_bpos (d : Dec) (c : Colour) : (Dec.pixWrite d c).bpos = d.bpos := rfl
@[simp] theorem Dec.pixWrite_hdr (d : Dec) (c : Colour) : (Dec.pixWrite d c).hdr = d.hdr := rfl
@[simp] theorem Dec.pixWrite_npix (d : Dec) (c : Colour) : (Dec.pixWrite d c).npix = d.npix := rfl
@[simp] theorem Dec.pixWrite_pcnt (d : Dec) (c : Colour) : (Dec.pixWrite d c).pcnt = d.pcnt + 1 := rfl
@[simp] theorem Dec.pixWrite_prev (d : Dec) (c : Colour) : (Dec.pixWrite d c).prev = d.prev := rfl
@[simp] theorem Dec.pixWrite_cache (d : Dec) (c : Colour) : (Dec.pixWrite d c).cache = d.cache := rfl
@[simp] theorem Dec.pixWrite_rrem (d : Dec) (c : Colour) : (Dec.pixWrite d c).rrem = d.rrem := rfl
@[simp] theorem Dec.pixWrite_phase (d : Dec) (c : Colour) : (Dec.pixWrite d c).phase = d.phase := rfl
@[simp] theorem Dec.pixWrite_err (d : Dec) (c : Colour) : (Dec.pixWrite d c).err = d.err := rfl
@[simp] theorem Dec.pixWrite_errpos (d : Dec) (c : Colour) : (Dec.pixWrite d c).errpos = d.errpos := rfl
@[simp] theorem Dec.pixWrite_endMismatch (d : Dec) (c : Colour) : (Dec.pixWrite d c).endMismatch = d.endMismatch := rfl
@[simp] theorem Dec.pixWrite_runClip (d : Dec) (c : Colour) : (Dec.pixWrite d c).runClip = d.runClip := rfl
@[simp] theorem Dec.pixWrite_byteIn (d : Dec) (c : Colour) : (Dec.pixWrite d c).byteIn = d.byteIn := rfl
@[simp] theorem Dec.pixWrite_pixOut (d : Dec) (c : Colour) : (Dec.pixWrite d c).pixOut = d.pixOut.writeColour d.pcnt c := rfl
@[simp] theorem Dec.pixWrite_outReady (d : Dec) (c : Colour) : (Dec.pixWrite d c).outReady = d.outReady := rfl

/-! `Dec.store` -/

@[simp] theorem Dec.store_blen (d : Dec) (c : Colour) : (Dec.store d c).blen = d.blen := rfl
@[simp] theorem Dec.store_bpos (d : Dec) (c : Colour) : (Dec.store d c).bpos = d.bpos := rfl
@[simp] theorem Dec.store_hdr (d : Dec) (c : Colour) : (Dec.store d c).hdr = d.hdr := rfl
@[simp] theorem Dec.store_npix (d : Dec) (c : Colour) : (Dec.store d c).npix = d.npix := rfl
@[simp] theorem Dec.store_pcnt (d : Dec) (c : Colour) : (Dec.store d c).pcnt = d.pcnt := rfl
@[simp] theorem Dec.store_prev (d : Dec) (c : Colour) : (Dec.store d c).prev = d.prev := rfl
@[simp] theorem Dec.store_cache (d : Dec) (c : Colour) : (Dec.store d c).cache = d.cache.store c := rfl
@[simp] theorem Dec.store_rrem (d : Dec) (c : Colour) : (Dec.store d c).rrem = d.rrem := rfl
@[simp] theorem Dec.store_phase (d : Dec) (c : Colour) : (Dec.store d c).phase = d.phase := rfl
@[simp] theorem Dec.store_err (d : Dec) (c : Colour) : (Dec.store d c).err = d.err := rfl
@[simp] theorem Dec.store_errpos (d : Dec) (c : Colour) : (Dec.store d c).errpos = d.errpos := rfl
@[simp] theorem Dec.store_endMismatch (d : Dec) (c : Colour) : (Dec.store d c).endMismatch = d.endMismatch := rfl
@[simp] theorem Dec.store_runClip (d : Dec) (c : Colour) : (Dec.store d c).runClip = d.runClip := rfl
@[simp] theorem Dec.store_byteIn (d : Dec) (c : Colour) : (Dec.store d c).byteIn = d.byteIn := rfl
@[simp] theorem Dec.store_pixOut (d : Dec) (c : Colour) : (Dec.store d c).pixOut = d.pixOut := rfl
@[simp] theorem Dec.store_outReady (d : Dec) (c : Colour) : (Dec.store d c).outReady = d.outReady := rfl

/-! `Dec.setPrev` -/

@[simp] theorem Dec.setPrev_blen (d : Dec) (c : Colour) : (Dec.setPrev d c).blen = d.blen := rfl
@[simp] theorem Dec.setPrev_bpos (d : Dec) (c : Colour) : (Dec.setPrev d c).bpos = d.bpos := rfl
@[simp] theorem Dec.setPrev_hdr (d : Dec) (c : Colour) : (Dec.setPrev d c).hdr = d.hdr := rfl
@[simp] theorem Dec.setPrev_npix (d : Dec) (c : Colour) : (Dec.setPrev d c).npix = d.npix := rfl
@[simp] theorem Dec.setPrev_pcnt (d : Dec) (c : Colour) : (Dec.setPrev d c).pcnt = d.pcnt := rfl
@[simp] theorem Dec.setPrev_prev (d : Dec) (c : Colour) : (Dec.setPrev d c).prev = c := rfl
@[simp] theorem Dec.setPrev_cache (d : Dec) (c : Colour) : (Dec.setPrev d c).cache = d.cache := rfl
@[simp] theorem Dec.setPrev_rrem (d : Dec) (c : Colour) : (Dec.setPrev d c).rrem = d.rrem := rfl
@[simp] theorem Dec.setPrev_phase (d : Dec) (c : Colour) : (Dec.setPrev d c).phase = d.phase := rfl
@[simp] theorem Dec.setPrev_err (d : Dec) (c : Colour) : (Dec.setPrev d c).err = d.err := rfl
@[simp] theorem Dec.setPrev_errpos (d : Dec) (c : Colour) : (Dec.setPrev d c).errpos = d.errpos := rfl
@[simp] theorem Dec.setPrev_endMismatch (d : Dec) (c : Colour) : (Dec.setPrev d c).endMismatch = d.endMismatch := rfl
@[simp] theorem Dec.setPrev_runClip (d : Dec) (c : Colour) : (Dec.setPrev d c).runClip = d.runClip := rfl
@[simp] theorem Dec.setPrev_byteIn (d : Dec) (c : Colour) : (Dec.setPrev d c).byteIn = d.byteIn := rfl
@[simp] theorem Dec.setPrev_pixOut (d : Dec) (c : Colour) : (Dec.setPrev d c).pixOut = d.pixOut := rfl
@[simp] theorem Dec.setPrev_outReady (d : Dec) (c : Colour) : (Dec.setPrev d c).outReady = d.outReady := rfl

/-! `Dec.setRrem` -/

@[simp] theorem Dec.setRrem_blen (d : Dec) (n : Nat) : (Dec.setRrem d n).blen = d.blen := rfl
@[simp] theorem Dec.setRrem_bpos (d : Dec) (n : Nat) : (Dec.setRrem d n).bpos = d.bpos := rfl
@[simp] theorem Dec.setRrem_hdr (d : Dec) (n : Nat) : (Dec.setRrem d n).hdr = d.hdr := rfl
@[simp] theorem Dec.setRrem_npix (d : Dec) (n : Nat) : (Dec.setRrem d n).npix = d.npix := rfl
@[simp] theorem Dec.setRrem_pcnt (d : Dec) (n : Nat) : (Dec.setRrem d n).pcnt = d.pcnt := rfl
@[simp] theorem Dec.setRrem_prev (d : Dec) (n : Nat) : (Dec.setRrem d n).prev = d.prev := rfl
@[simp] theorem Dec.setRrem_cache (d : Dec) (n : Nat) : (Dec.setRrem d n).cache = d.cache := rfl
@[simp] theorem Dec.setRrem_rrem (d : Dec) (n : Nat) : (Dec.setRrem d n).rrem = n := rfl
@[simp] theorem Dec.setRrem_phase (d : Dec) (n : Nat) : (Dec.setRrem d n).phase = d.phase := rfl
@[simp] theorem Dec.setRrem_err (d : Dec) (n : Nat) : (Dec.setRrem d n).err = d.err := rfl
@[simp] theorem Dec.setRrem_errpos (d : Dec) (n : Nat) : (Dec.setRrem d n).errpos = d.errpos := rfl
@[simp] theorem Dec.setRrem_endMismatch (d : Dec) (n : Nat) : (Dec.setRrem d n).endMismatch = d.endMismatch := rfl
@[simp] theorem Dec.setRrem_runClip (d : Dec) (n : Nat) : (Dec.setRrem d n).runClip = d.runClip := rfl
@[simp] theorem Dec.setRrem_byteIn (d : Dec) (n : Nat) : (Dec.setRrem d n).byteIn = d.byteIn := rfl
@[simp] theorem Dec.setRrem_pixOut (d : Dec) (n : Nat) : (Dec.setRrem d n).pixOut = d.pixOut := rfl
@[simp] theorem Dec.setRrem_outReady (d : Dec) (n : Nat) : (Dec.setRrem d n).outReady = d.outReady := rfl

/-! `Dec.clip` -/

@[simp] theorem Dec.clip_blen (d : Dec) : (Dec.clip d).blen = d.blen := rfl
@[simp] theorem Dec.clip_bpos (d : Dec) : (Dec.clip d).bpos = d.bpos := rfl
@[simp] theorem Dec.clip_hdr (d : Dec) : (Dec.clip d).hdr = d.hdr := rfl
@[simp] theorem Dec.clip_npix (d : Dec) : (Dec.clip d).npix = d.npix := rfl
@[simp] theorem Dec.clip_pcnt (d : Dec) : (Dec.clip d).pcnt = d.pcnt := rfl
@[simp] theorem Dec.clip_prev (d : Dec) : (Dec.clip d).prev = d.prev := rfl
@[simp] theorem Dec.clip_cache (d : Dec) : (Dec.clip d).cache = d.cache := rfl
@[simp] theorem Dec.clip_rrem (d : Dec) : (Dec.clip d).rrem = d.rrem := rfl
@[simp] theorem Dec.clip_phase (d : Dec) : (Dec.clip d).phase = d.phase := rfl
@[simp] theorem Dec.clip_err (d : Dec) : (Dec.clip d).err = d.err := rfl
@[simp] theorem Dec.clip_errpos (d : Dec) : (Dec.clip d).errpos = d.errpos := rfl
@[simp] theorem Dec.clip_endMismatch (d : Dec) : (Dec.clip d).endMismatch = d.endMismatch := rfl
@[simp] theorem Dec.clip_runClip (d : Dec) : (Dec.clip d).runClip = true := rfl
@[simp] theorem Dec.clip_byteIn (d : Dec) : (Dec.clip d).byteIn = d.byteIn := rfl
@[simp] theorem Dec.clip_pixOut (d : Dec) : (Dec.clip d).pixOut = d.pixOut := rfl
@[simp] theorem Dec.clip_outReady (d : Dec) : (Dec.clip d).outReady = d.outReady := rfl

/-! `Dec.truncate` -/

@[simp] theorem Dec.truncate_blen (d : Dec) : (Dec.truncate d).blen = d.blen := rfl
@[simp] theorem Dec.truncate_bpos (d : Dec) : (Dec.truncate d).bpos = d.blen := rfl
@[simp] theorem Dec.truncate_hdr (d : Dec) : (Dec.truncate d).hdr = d.hdr := rfl
@[simp] theorem Dec.truncate_npix (d : Dec) : (Dec.truncate d).npix = d.npix := rfl
@[simp] theorem Dec.truncate_pcnt (d : Dec) : (Dec.truncate d).pcnt = d.pcnt := rfl
@[simp] theorem Dec.truncate_prev (d : Dec) : (Dec.truncate d).prev = d.prev := rfl
@[simp] theorem Dec.truncate_cache (d : Dec) : (Dec.truncate d).cache = d.cache := rfl
@[simp] theorem Dec.truncate_rrem (d : Dec) : (Dec.truncate d).rrem = d.rrem := rfl
@[simp] theorem Dec.truncate_phase (d : Dec) : (Dec.truncate d).phase = .error := rfl
@[simp] theorem Dec.truncate_err (d : Dec) : (Dec.truncate d).err = .truncated := rfl
@[simp] theorem Dec.truncate_errpos (d : Dec) : (Dec.truncate d).errpos = d.blen := rfl
@[simp] theorem Dec.truncate_endMismatch (d : Dec) : (Dec.truncate d).endMismatch = d.endMismatch := rfl
@[simp] theorem Dec.truncate_runClip (d : Dec) : (Dec.truncate d).runClip = d.runClip := rfl
@[simp] theorem Dec.truncate_byteIn (d : Dec) : (Dec.truncate d).byteIn = d.byteIn := rfl
@[simp] theorem Dec.truncate_pixOut (d : Dec) : (Dec.truncate d).pixOut = d.pixOut := rfl
@[simp] theorem Dec.truncate_outReady (d : Dec) : (Dec.truncate d).outReady = d.outReady := rfl

/-! `Dec.checkTrailer` -/

@[simp] theorem Dec.checkTrailer_blen (d : Dec) (t : List Byte) : (Dec.checkTrailer t d).blen = d.blen := rfl
@[simp] theorem Dec.checkTrailer_bpos (d : Dec) (t : List Byte) : (Dec.checkTrailer t d).bpos = d.bpos := rfl
@[simp] theorem Dec.checkTrailer_hdr (d : Dec) (t : List Byte) : (Dec.checkTrailer t d).hdr = d.hdr := rfl
@[simp] theorem Dec.checkTrailer_npix (d : Dec) (t : List Byte) : (Dec.checkTrailer t d).npix = d.npix := rfl
@[simp] theorem Dec.checkTrailer_pcnt (d : Dec) (t : List Byte) : (Dec.checkTrailer t d).pcnt = d.pcnt := rfl
@[simp] theorem Dec.checkTrailer_prev (d : Dec) (t : List Byte) : (Dec.checkTrailer t d).prev = d.prev := rfl
@[simp] theorem Dec.checkTrailer_cache (d : Dec) (t : List Byte) : (Dec.checkTrailer t d).cache = d.cache := rfl
@[simp] theorem Dec.checkTrailer_rrem (d : Dec) (t : List Byte) : (Dec.checkTrailer t d).rrem = d.rrem := rfl
@[simp] theorem Dec.checkTrailer_phase (d : Dec) (t : List Byte) : (Dec.checkTrailer t d).phase = .done := rfl
@[simp] theorem Dec.checkTrailer_err (d : Dec) (t : List Byte) : (Dec.checkTrailer t d).err = d.err := rfl
@[simp] theorem Dec.checkTrailer_errpos (d : Dec) (t : List Byte) : (Dec.checkTrailer t d).errpos = d.errpos := rfl
@[simp] theorem Dec.checkTrailer_endMismatch (d : Dec) (t : List Byte) : (Dec.checkTrailer t d).endMismatch = decide (t ≠ Config.endMarker) := rfl
@[simp] theorem Dec.checkTrailer_runClip (d : Dec) (t : List Byte) : (Dec.checkTrailer t d).runClip = d.runClip := rfl
@[simp] theorem Dec.checkTrailer_byteIn (d : Dec) (t : List Byte) : (Dec.checkTrailer t d).byteIn = d.byteIn.dropRange d.bpos d.blen := rfl
@[simp] theorem Dec.checkTrailer_pixOut (d : Dec) (t : List Byte) : (Dec.checkTrailer t d).pixOut = d.pixOut := rfl
@[simp] theorem Dec.checkTrailer_outReady (d : Dec) (t : List Byte) : (Dec.checkTrailer t d).outReady = d.outReady := rfl

/-! `Dec.single` -/

@[simp] theorem Dec.single_blen (d : Dec) (c : Colour) : (Dec.single c d).blen = d.blen := rfl
@[simp] theorem Dec.single_bpos (d : Dec) (c : Colour) : (Dec.single c d).bpos = d.bpos := rfl
@[simp] theorem Dec.single_hdr (d : Dec) (c : Colour) : (Dec.single c d).hdr = d.hdr := rfl
@[simp] theorem Dec.single_npix (d : Dec) (c : Colour) : (Dec.single c d).npix = d.npix := rfl
@[simp] theorem Dec.single_pcnt (d : Dec) (c : Colour) : (Dec.single c d).pcnt = d.pcnt + 1 := rfl
@[simp] theorem Dec.single_prev (d : Dec) (c : Colour) : (Dec.single c d).prev = c := rfl
@[simp] theorem Dec.single_cache (d : Dec) (c : Colour) : (Dec.single c d).cache = d.cache.store c := rfl
@[simp] theorem Dec.single_rrem (d : Dec) (c : Colour) : (Dec.single c d).rrem = d.rrem := rfl
@[simp] theorem Dec.single_phase (d : Dec) (c : Colour) : (Dec.single c d).phase = d.phase := rfl
@[simp] theorem Dec.single_err (d : Dec) (c : Colour) : (Dec.single c d).err = d.err := rfl
@[simp] theorem Dec.single_errpos (d : Dec) (c : Colour) : (Dec.single c d).errpos = d.errpos := rfl
@[simp] theorem Dec.single_endMismatch (d : Dec) (c : Colour) : (Dec.single c d).endMismatch = d.endMismatch := rfl
@[simp] theorem Dec.single_runClip (d : Dec) (c : Colour) : (Dec.single c d).runClip = d.runClip := rfl
@[simp] theorem Dec.single_byteIn (d : Dec) (c : Colour) : (Dec.single c d).byteIn = d.byteIn := rfl
@[simp] theorem Dec.single_pixOut (d : Dec) (c : Colour) : (Dec.single c d).pixOut = d.pixOut.writeColour d.pcnt c := rfl
@[simp] theorem Dec.single_outReady (d : Dec) (c : Colour) : (Dec.single c d).outReady = d.outReady := rfl

end Sys2Proof.Machine
end

