-- ==== Sys2Proof/Laws/Decoder.lean ====
section
/-! SUPPORT. What the shared operations of the decoder can do: reading (spec/20_memory.md R61), the frame of a
chunk step (spec/44_decoder.md R201), the repetition of a RUN chunk (R208, R212). -/

namespace Sys2Proof.Machine

/-! ### Reading -/

/-- R61: what `ByteRead` can do. -/
theorem Dec.byteRead_cases (d : Dec) :
    (d.blen ≤ d.bpos ∧ d.byteRead = .short (d.raise .truncated)) ∨
    (d.bpos < d.blen ∧ d.byteIn.read d.bpos = none ∧ d.byteRead = .waiting) ∨
    (∃ b, d.bpos < d.blen ∧ d.byteIn.read d.bpos = some b ∧ d.byteRead = .got b (d.advance 1)) := by
  unfold Dec.byteRead
  by_cases h : d.blen ≤ d.bpos
  · exact .inl ⟨h, if_pos h⟩
  · rw [if_neg h]
    cases hb : d.byteIn.read d.bpos with
    | none => exact .inr (.inl ⟨by omega, rfl, rfl⟩)
    | some b => exact .inr (.inr ⟨b, by omega, rfl, rfl⟩)

@[simp] theorem Dec.advance_zero (d : Dec) : d.advance 0 = d := rfl

theorem Dec.advance_advance (d : Dec) (m n : Nat) : (d.advance m).advance n = d.advance (m + n) := by
  simp [Dec.advance, Nat.add_assoc]

theorem Dec.truncate_of_eq {d : Dec} (h : d.blen = d.bpos) : d.truncate = d.raise .truncated := by
  cases d
  simp only at h
  subst h
  rfl

/-- R61: what reading `n` bytes can do, if `BPOS` is not past `BLEN`: the bytes are there and are got; or the
stream ends inside them and the error is raised at BLEN; or the host has not offered one. -/
theorem Dec.readBytes_cases (n : Nat) (d : Dec) (h : d.bpos ≤ d.blen) :
    (∃ bs, d.bpos + n ≤ d.blen ∧ d.byteIn.readMany d.bpos n = some bs ∧
      d.readBytes n = .got bs (d.advance n)) ∨
    (d.blen < d.bpos + n ∧ (d.byteIn.readMany d.bpos (d.blen - d.bpos)).isSome = true ∧
      d.readBytes n = .short d.truncate) ∨
    (d.byteIn.readMany d.bpos (min n (d.blen - d.bpos)) = none ∧ d.readBytes n = .waiting) := by
  induction n generalizing d with
  | zero => exact .inl ⟨[], by omega, rfl, rfl⟩
  | succ n ih =>
    rcases d.byteRead_cases with ⟨hl, hr⟩ | ⟨hl, hb, hr⟩ | ⟨b, hl, hb, hr⟩
    · refine .inr (.inl ⟨by omega, ?_, ?_⟩)
      · rw [show d.blen - d.bpos = 0 by omega]; rfl
      · have : d.blen = d.bpos := by omega
        simp only [Dec.readBytes, hr, Dec.truncate_of_eq this]
    · refine .inr (.inr ⟨?_, by simp only [Dec.readBytes, hr]⟩)
      obtain ⟨j, hj⟩ : ∃ j, min (n + 1) (d.blen - d.bpos) = j + 1 := ⟨min (n + 1) (d.blen - d.bpos) - 1, by omega⟩
      rw [hj, Memory.readMany, hb]
    · rcases ih (d.advance 1) (by simp only [Dec.advance_bpos, Dec.advance_blen]; omega) with
        ⟨bs, h1, h2, h3⟩ | ⟨h1, h2, h3⟩ | ⟨h2, h3⟩ <;>
        simp only [Dec.advance_bpos, Dec.advance_blen, Dec.advance_byteIn] at *
      · refine .inl ⟨b :: bs, by omega, by simp only [Memory.readMany, hb, h2], ?_⟩
        simp only [Dec.readBytes, hr, h3, Dec.advance_advance, Nat.add_comm 1 n]
      · refine .inr (.inl ⟨by omega, ?_, by simp only [Dec.readBytes, hr, h3]; rfl⟩)
        obtain ⟨j, hj⟩ : ∃ j, d.blen - d.bpos = j + 1 := ⟨d.blen - d.bpos - 1, by omega⟩
        rw [show d.blen - (d.bpos + 1) = j by omega] at h2
        obtain ⟨bs, hbs⟩ := Option.isSome_iff_exists.mp h2
        simp only [hj, Memory.readMany, hb, hbs, Option.isSome_some]
      · refine .inr (.inr ⟨?_, by simp only [Dec.readBytes, hr, h3]⟩)
        obtain ⟨j, hj⟩ : ∃ j, min (n + 1) (d.blen - d.bpos) = j + 1 := ⟨min (n + 1) (d.blen - d.bpos) - 1, by omega⟩
        rw [show min n (d.blen - (d.bpos + 1)) = j by omega] at h2
        simp only [hj, Memory.readMany, hb, h2]

/-- R61: bytes that are there are got. -/
theorem Dec.readBytes_of_readMany (n : Nat) (d : Dec) (bs : List Byte) (h : d.bpos + n ≤ d.blen)
    (hb : d.byteIn.readMany d.bpos n = some bs) : d.readBytes n = .got bs (d.advance n) := by
  rcases d.readBytes_cases n (by omega) with ⟨bs', _, h2, h3⟩ | ⟨h1, _⟩ | ⟨h2, _⟩
  · rw [hb] at h2; cases h2; exact h3
  · omega
  · rw [Nat.min_eq_left (by omega), hb] at h2; cases h2

/-- R61, R268: while one of the bytes is not offered, reading waits. -/
theorem Dec.readBytes_waiting {n k : Nat} {d : Dec} (h0 : d.bpos ≤ k) (hn : k < d.bpos + n) (hl : k < d.blen)
    (hk : d.byteIn.read k = none) : d.readBytes n = .waiting := by
  have no : ∀ {j bs}, k < d.bpos + j → d.byteIn.readMany d.bpos j ≠ some bs := by
    intro j bs hj hr
    obtain ⟨hlen, hget⟩ := (Memory.readMany_eq_some_iff _ _ _ _).mp hr
    have := hget (k - d.bpos) (by omega)
    rw [show d.bpos + (k - d.bpos) = k by omega, hk] at this
    cases this
  rcases d.readBytes_cases n (by omega) with ⟨bs, h1, h2, h3⟩ | ⟨h1, h2, h3⟩ | ⟨h2, h3⟩
  · exact absurd h2 (no hn)
  · obtain ⟨bs, hbs⟩ := Option.isSome_iff_exists.mp h2
    exact absurd hbs (no (by omega))
  · exact h3

/-! ### The frame of a chunk step -/

/-! `Dec.leaveChunks` changes the phase only. -/

@[simp] theorem Dec.leaveChunks_blen (d : Dec) : d.leaveChunks.blen = d.blen := by unfold Dec.leaveChunks; split <;> rfl
@[simp] theorem Dec.leaveChunks_bpos (d : Dec) : d.leaveChunks.bpos = d.bpos := by unfold Dec.leaveChunks; split <;> rfl
@[simp] theorem Dec.leaveChunks_hdr (d : Dec) : d.leaveChunks.hdr = d.hdr := by unfold Dec.leaveChunks; split <;> rfl
@[simp] theorem Dec.leaveChunks_npix (d : Dec) : d.leaveChunks.npix = d.npix := by unfold Dec.leaveChunks; split <;> rfl
@[simp] theorem Dec.leaveChunks_pcnt (d : Dec) : d.leaveChunks.pcnt = d.pcnt := by unfold Dec.leaveChunks; split <;> rfl
@[simp] theorem Dec.leaveChunks_prev (d : Dec) : d.leaveChunks.prev = d.prev := by unfold Dec.leaveChunks; split <;> rfl
@[simp] theorem Dec.leaveChunks_cache (d : Dec) : d.leaveChunks.cache = d.cache := by unfold Dec.leaveChunks; split <;> rfl
@[simp] theorem Dec.leaveChunks_rrem (d : Dec) : d.leaveChunks.rrem = d.rrem := by unfold Dec.leaveChunks; split <;> rfl
@[simp] theorem Dec.leaveChunks_err (d : Dec) : d.leaveChunks.err = d.err := by unfold Dec.leaveChunks; split <;> rfl
@[simp] theorem Dec.leaveChunks_errpos (d : Dec) : d.leaveChunks.errpos = d.errpos := by unfold Dec.leaveChunks; split <;> rfl
@[simp] theorem Dec.leaveChunks_endMismatch (d : Dec) : d.leaveChunks.endMismatch = d.endMismatch := by unfold Dec.leaveChunks; split <;> rfl
@[simp] theorem Dec.leaveChunks_runClip (d : Dec) : d.leaveChunks.runClip = d.runClip := by unfold Dec.leaveChunks; split <;> rfl
@[simp] theorem Dec.leaveChunks_byteIn (d : Dec) : d.leaveChunks.byteIn = d.byteIn := by unfold Dec.leaveChunks; split <;> rfl
@[simp] theorem Dec.leaveChunks_pixOut (d : Dec) : d.leaveChunks.pixOut = d.pixOut := by unfold Dec.leaveChunks; split <;> rfl
@[simp] theorem Dec.leaveChunks_outReady (d : Dec) : d.leaveChunks.outReady = d.outReady := by unfold Dec.leaveChunks; split <;> rfl

/-- R210: what `owes` says once `NPIX` has a value. -/
theorem Dec.owes_iff {d : Dec} {n : Nat} (h : d.npix = some n) : d.owes = true ↔ d.pcnt < n := by
  simp [Dec.owes, h]

theorem Dec.owes_of_inChunks {d : Dec} {n : Nat} (h : d.inChunks n) : d.owes = true := by
  simp [Dec.owes, h.2.1, h.2.2]

/-- R201: a chunk fires in CHUNKS while a pixel is owed. -/
theorem Dec.chunk_fires {d : Dec} {n : Nat} (h : d.inChunks n) {len : Nat} (hl : d.bpos + len ≤ d.blen)
    (act : Dec → Dec) : d.chunk len act = (act (d.advance len)).leaveChunks := by
  simp only [Dec.chunk]
  rw [if_pos ⟨h.1, Dec.owes_of_inChunks h⟩, if_pos hl]

/-- R213: a chunk whose bytes run past BLEN raises. -/
theorem Dec.chunk_truncated {d : Dec} {n : Nat} (h : d.inChunks n) {len : Nat} (hl : d.blen < d.bpos + len)
    (act : Dec → Dec) : d.chunk len act = d.truncate := by
  simp only [Dec.chunk]
  rw [if_pos ⟨h.1, Dec.owes_of_inChunks h⟩, if_neg (by omega)]

/-- R211: elsewhere nothing changes. -/
theorem Dec.chunk_elsewhere {d : Dec} (h : d.phase ≠ .chunks ∨ d.owes = false) (len : Nat) (act : Dec → Dec) :
    d.chunk len act = d := by
  simp only [Dec.chunk]
  rw [if_neg]
  rintro ⟨h1, h2⟩
  rcases h with h | h
  · exact h h1
  · rw [h] at h2; cases h2

/-- Where a chunk step can end. -/
theorem Dec.chunk_cases (d : Dec) (len : Nat) (act : Dec → Dec) :
    (∃ n, d.inChunks n ∧ d.bpos + len ≤ d.blen ∧ d.chunk len act = (act (d.advance len)).leaveChunks) ∨
    (∃ n, d.inChunks n ∧ d.blen < d.bpos + len ∧ d.chunk len act = d.truncate) ∨
    ((d.phase ≠ .chunks ∨ d.owes = false) ∧ d.chunk len act = d) := by
  by_cases h : d.phase = .chunks ∧ d.owes = true
  · obtain ⟨hp, ho⟩ := h
    obtain ⟨n, hn⟩ : ∃ n, d.inChunks n := by
      revert ho
      cases hn : d.npix with
      | none => simp [Dec.owes, hn]
      | some n => exact fun ho => ⟨n, hp, hn, by simpa [Dec.owes, hn] using ho⟩
    by_cases hl : d.bpos + len ≤ d.blen
    · exact .inl ⟨n, hn, hl, Dec.chunk_fires hn hl act⟩
    · exact .inr (.inl ⟨n, hn, by omega, Dec.chunk_truncated hn (by omega) act⟩)
  · have h' : d.phase ≠ .chunks ∨ d.owes = false := by
      by_cases hp : d.phase = .chunks
      · exact .inr (by simpa [hp] using h)
      · exact .inl hp
    exact .inr (.inr ⟨h', Dec.chunk_elsewhere h' len act⟩)

/-- R209, R201: a single-pixel chunk that fires. -/
theorem Dec.single_leaveChunks {d : Dec} {n : Nat} (h : d.inChunks n) (len : Nat) (px : Colour) :
    (Dec.single px (d.advance len)).leaveChunks = d.produced len px := by
  obtain ⟨hp, hn, hl⟩ := h
  have ho : (Dec.single px (d.advance len)).owes = true ↔ d.pcnt + 1 < n := Dec.owes_iff hn
  have hphase : d.npix = some (d.pcnt + 1) ↔ ¬ d.pcnt + 1 < n := by rw [hn, Option.some.injEq]; omega
  by_cases hlt : d.pcnt + 1 < n
  · rw [Dec.leaveChunks, if_pos (ho.mpr hlt), Dec.produced, if_neg (fun h => hphase.mp h hlt), ← hp]
    rfl
  · rw [Dec.leaveChunks, if_neg (fun h => hlt (ho.mp h)), Dec.produced, if_pos (hphase.mpr hlt)]
    rfl

/-! ### RUN -/

/-- R208, R212: what repeating `PREV` does, when pixels are counted against `n`: it writes the smaller of the
repetitions asked for and the pixels left, and clips if fewer are left. -/
theorem Dec.repeatPrev_eq (k : Nat) (d : Dec) (n : Nat) (hn : d.npix = some n) (hl : d.pcnt ≤ n) :
    d.repeatPrev k = { d with
      pixOut := d.pixOut.writeColours d.pcnt (List.replicate (min k (n - d.pcnt)) d.prev)
      pcnt := d.pcnt + min k (n - d.pcnt)
      cache := if min k (n - d.pcnt) = 0 then d.cache else d.cache.store d.prev
      rrem := 0
      runClip := d.runClip || decide (n - d.pcnt < k) } := by
  induction k generalizing d with
  | zero => simp [Dec.repeatPrev, Dec.setRrem, Memory.writeColours]
  | succ k ih =>
    simp only [Dec.repeatPrev]
    by_cases ho : d.pcnt < n
    · rw [if_pos ((Dec.owes_iff hn).mpr ho)]
      rw [ih _ (by simpa using hn) (by simp; omega)]
      obtain ⟨j, hj⟩ : ∃ j, min (k + 1) (n - d.pcnt) = j + 1 := ⟨min (k + 1) (n - d.pcnt) - 1, by omega⟩
      have hj' : min k (n - (d.pcnt + 1)) = j := by omega
      have hclip : (n - (d.pcnt + 1) < k) = (n - d.pcnt < k + 1) := propext (by omega)
      have hstore : (if j = 0 then d.cache.store d.prev else (d.cache.store d.prev).store d.prev) =
          d.cache.store d.prev := by split <;> simp [Cache.store_store]
      simp only [Dec.store, Dec.pixWrite, Dec.setRrem, hj, hj', hclip, hstore, List.replicate_succ,
        Memory.writeColours, Nat.add_right_comm d.pcnt 1 j, Nat.succ_ne_zero, if_false]
      rfl
    · rw [if_neg (by simp [Dec.owes, hn, ho])]
      have : n - d.pcnt = 0 := by omega
      simp [this, Dec.clip, Dec.setRrem, Memory.writeColours]

/-- R208, R212: what a RUN chunk that fires does, for `k` repetitions asked for. -/
theorem Dec.repeatPrev_leaveChunks {d : Dec} {n : Nat} (h : d.inChunks n) (len : Nat) {k : Nat} (hk : 0 < k) :
    (Dec.repeatPrev k (d.advance len)).leaveChunks = { d with
      bpos := d.bpos + len
      pixOut := d.pixOut.writeColours d.pcnt (List.replicate (min k (n - d.pcnt)) d.prev)
      pcnt := d.pcnt + min k (n - d.pcnt)
      cache := d.cache.store d.prev
      rrem := 0
      runClip := d.runClip || decide (n - d.pcnt < k)
      phase := if n ≤ d.pcnt + k then .trailer else .chunks } := by
  obtain ⟨hp, hn, hl⟩ := h
  have hmin : min k (n - d.pcnt) ≠ 0 := by omega
  have hrep : Dec.repeatPrev k (d.advance len) = { d with
      bpos := d.bpos + len
      pixOut := d.pixOut.writeColours d.pcnt (List.replicate (min k (n - d.pcnt)) d.prev)
      pcnt := d.pcnt + min k (n - d.pcnt)
      cache := d.cache.store d.prev
      rrem := 0
      runClip := d.runClip || decide (n - d.pcnt < k) } := by
    rw [Dec.repeatPrev_eq k (d.advance len) n hn (Nat.le_of_lt hl)]
    simp only [Dec.advance]
    congr 1
    exact if_neg hmin
  have ho : (Dec.repeatPrev k (d.advance len)).owes = true ↔ d.pcnt + min k (n - d.pcnt) < n := by
    rw [hrep]
    exact Dec.owes_iff hn
  rw [Dec.leaveChunks]
  by_cases hle : n ≤ d.pcnt + k
  · rw [if_neg (fun h => by have := ho.mp h; omega), hrep, if_pos hle]
    rfl
  · rw [if_pos (ho.mpr (by omega)), hrep, if_neg hle, ← hp]

end Sys2Proof.Machine
end

