-- ==== Sys2Proof/Laws/Delta.lean ====
section
/-! SUPPORT. The arithmetic of the delta unit (spec/42_delta_unit.md), by the relation `isPlus`. -/

namespace Sys2Proof.Machine

/-- R150: adding an integer and wrapping is the relation `isPlus`. -/
theorem wrap8_of_isPlus {x y : Byte} {d : Int} (h : isPlus x y d) : wrap8 (y.toNat + d) = x := by
  apply BitVec.eq_of_toNat_eq
  have := x.isLt
  simp only [isPlus, wrap8, BitVec.toNat_ofInt] at *
  omega

/-- R151: the delta that was computed takes the previous channel to the current one. -/
theorem isPlus_chanDelta (x y : Byte) : isPlus x y (chanDelta x y) := by
  have := x.isLt
  have := y.isLt
  simp only [isPlus, chanDelta, sgn8, BitVec.toInt_ofInt, Int.bmod_def]
  norm_num
  split <;> omega

/-- R151: an `s8` that takes the previous channel to the current one is the delta. -/
theorem chanDelta_of_isPlus {x y : Byte} {d : Int} (h : isPlus x y d) (h1 : -128 ≤ d) (h2 : d ≤ 127) :
    chanDelta x y = d := by
  have := x.isLt
  have := y.isLt
  simp only [isPlus, chanDelta, sgn8, BitVec.toInt_ofInt, Int.bmod_def] at *
  norm_num
  split <;> omega

/-- Two integers that take a byte to the same byte differ by a multiple of 256. -/
theorem isPlus_unique {x y : Byte} {d d' : Int} (h : isPlus x y d) (h' : isPlus x y d') : (d - d') % 256 = 0 := by
  simp only [isPlus] at *
  omega

/-- spec/00_scope.md section 5: what `sgn8` is. -/
theorem sgn8_spec (d : Int) : -128 ≤ sgn8 d ∧ sgn8 d ≤ 127 ∧ (sgn8 d - d) % 256 = 0 := by
  simp only [sgn8, BitVec.toInt_ofInt, Int.bmod_def]
  norm_num
  split <;> omega

theorem inRange_iff (lo hi d : Int) : inRange lo hi d = true ↔ lo ≤ d ∧ d ≤ hi := by
  simp [inRange]

theorem alphaSame_iff (cur prev : Colour) : alphaSame cur prev = true ↔ cur.a = prev.a := by
  simp [alphaSame]

end Sys2Proof.Machine
end

