-- ==== Sys2Proof/Laws/Encoder.lean ====
section
/-! SUPPORT. What the shared operations of the encoder can do: writing bytes (spec/20_memory.md R62), flushing a run
(spec/43_encoder.md R173), one pixel step (R171, R172, R179) and finishing (R180). -/

namespace Sys2Proof.Machine

/-- Bytes written one after the other are written together. -/
theorem Memory.writeMany_append (xs ys : List Byte) (m : Memory) (a : Nat) :
    m.writeMany a (xs ++ ys) = (m.writeMany a xs).writeMany (a + xs.length) ys := by
  induction xs generalizing m a with
  | nil => rfl
  | cons x xs ih =>
    simp only [List.cons_append, Memory.writeMany, ih, List.length_cons, Nat.add_assoc, Nat.add_comm 1]

/-- R62: what writing bytes does. -/
theorem Enc.bytesWrite_eq (bs : List Byte) (e : Enc) :
    e.bytesWrite bs = { e with byteOut := e.byteOut.writeMany e.bout bs, bout := e.bout + bs.length } := by
  induction bs generalizing e with
  | nil => rfl
  | cons b bs ih =>
    simp only [Enc.bytesWrite, ih, Enc.byteWrite, Memory.writeMany, List.length_cons, Nat.add_assoc, Nat.add_comm 1]

/-- R173: the byte of a run. -/
theorem runByte_eq {n : Nat} (h : 0 < n) : runByte n = BitVec.ofNat 8 (0xC0 + n - 1) := by
  simp only [runByte, Nat.add_sub_assoc (show 1 ≤ n from h)]

/-- R171, R180: what flushing the pending run, if there is one, does. -/
theorem Enc.flushPending_eq (e : Enc) :
    e.flushPending = { e with
      byteOut := e.byteOut.writeMany e.bout e.pendingBytes
      bout := e.bout + e.pendingBytes.length
      cache := e.flushedCache
      run := 0 } := by
  unfold Enc.flushPending Enc.pendingBytes Enc.flushedCache
  by_cases h : e.run = 0
  · simp only [h, Nat.lt_irrefl, if_true, if_false]
    rw [← h]
    rfl
  · simp only [h, Nat.pos_of_ne_zero h, if_true, if_false, Enc.flushRun, runByte_eq (Nat.pos_of_ne_zero h)]
    rfl

/-- R173: the byte out, the cache and the counter of a flush, with the run's bytes as a list. -/
theorem Enc.pendingBytes_length_le (e : Enc) : e.pendingBytes.length ≤ 1 := by
  unfold Enc.pendingBytes
  split <;> simp

/-- R171, R174 to R179: a pixel that differs from `PREV`, once the bytes of its chunk are known. -/
theorem Enc.pixelStep_eq {e : Enc} {cur : Colour} {bs : List Byte} (hne : cur ≠ e.prev)
    (hbs : e.flushPending.emitPixel cur = e.flushPending.bytesWrite bs) :
    e.pixelStep cur = { e with
      byteOut := e.byteOut.writeMany e.bout (e.pendingBytes ++ bs)
      bout := e.bout + (e.pendingBytes ++ bs).length
      cache := e.flushedCache.store cur
      run := 0
      prev := cur } := by
  rw [Enc.pixelStep, if_neg hne, hbs, Enc.bytesWrite_eq, Enc.flushPending_eq]
  simp only [Enc.store, Enc.setPrev, Memory.writeMany_append, List.length_append, Nat.add_assoc]

/-- R174 to R178, R181: which chunk is written, and its bytes. -/
theorem Enc.emitPixel_cases (e : Enc) (cur : Colour) :
    (e.cache.lookup (colourHash cur) = cur ∧
      e.emitPixel cur = e.bytesWrite [(colourHash cur).setWidth 8]) ∨
    (e.cache.lookup (colourHash cur) ≠ cur ∧ diffFits cur e.prev = true ∧
      e.emitPixel cur = e.bytesWrite [diffByte (deltaR cur e.prev) (deltaG cur e.prev) (deltaB cur e.prev)]) ∨
    (e.cache.lookup (colourHash cur) ≠ cur ∧ diffFits cur e.prev = false ∧ lumaFits cur e.prev = true ∧
      e.emitPixel cur =
        e.bytesWrite [lumaByte0 (deltaG cur e.prev), lumaByte1 (deltaRG cur e.prev) (deltaBG cur e.prev)]) ∨
    (e.cache.lookup (colourHash cur) ≠ cur ∧ diffFits cur e.prev = false ∧ lumaFits cur e.prev = false ∧
      cur.a = e.prev.a ∧ e.emitPixel cur = e.bytesWrite [0xFE, cur.r, cur.g, cur.b]) ∨
    (e.cache.lookup (colourHash cur) ≠ cur ∧ diffFits cur e.prev = false ∧ lumaFits cur e.prev = false ∧
      cur.a ≠ e.prev.a ∧ e.emitPixel cur = e.bytesWrite [0xFF, cur.r, cur.g, cur.b, cur.a]) := by
  unfold Enc.emitPixel
  by_cases h1 : e.cache.lookup (colourHash cur) = cur
  · exact .inl ⟨h1, if_pos h1⟩
  rw [if_neg h1]
  by_cases h2 : diffFits cur e.prev = true
  · exact .inr (.inl ⟨h1, h2, if_pos h2⟩)
  rw [if_neg h2]
  rw [Bool.not_eq_true] at h2
  by_cases h3 : lumaFits cur e.prev = true
  · exact .inr (.inr (.inl ⟨h1, h2, h3, if_pos h3⟩))
  rw [if_neg h3]
  rw [Bool.not_eq_true] at h3
  by_cases h4 : cur.a = e.prev.a
  · exact .inr (.inr (.inr (.inl ⟨h1, h2, h3, h4, if_pos (by simp [alphaSame, h4])⟩)))
  · exact .inr (.inr (.inr (.inr ⟨h1, h2, h3, h4, if_neg (by simp [alphaSame, h4])⟩)))

/-- R172: the two ways a pixel equal to `PREV` extends the run. -/
theorem Enc.pixelStep_prev (e : Enc) :
    e.pixelStep e.prev =
      if e.run = 61 then
        { e with byteOut := e.byteOut.write e.bout 0xFD, bout := e.bout + 1, cache := e.cache.store e.prev, run := 0 }
      else { e with run := e.run + 1 } := by
  rw [Enc.pixelStep, if_pos rfl, Enc.extendRun]
  by_cases h : e.run = 61
  · rw [if_pos (show e.run + 1 = Config.runMax by rw [h]; rfl), if_pos h, h]
    rfl
  · rw [if_neg (show e.run + 1 ≠ Config.runMax by simp only [Config.runMax]; omega), if_neg h]
    rfl

/-- R170, R171: what a step in PIXELS does once the next pixel is there and the host accepts bytes. -/
theorem Enc.step_reads {e : Enc} {cur : Colour} (h : e.reads cur) :
    e.step = some ((Enc.pixelStep cur { e with pidx := e.pidx + 1 }).leavePixels) := by
  obtain ⟨hp, hl, hc, hr⟩ := h
  simp only [Enc.step, hp, hl, Enc.pixRead, hc, hr, or_true, if_true]

/-- R171: leaving the pixel phase changes `PHASE` only. -/
theorem Enc.leavePixels_eq (e : Enc) : e.leavePixels = { e with phase := if e.pidx < e.npix then e.phase else .finish } := by
  unfold Enc.leavePixels
  split <;> rfl

end Sys2Proof.Machine
end

