-- ==== Sys2Proof/Laws/Encoding.lean ====
section
/-! SUPPORT. The bit-level facts of spec/30_encoding.md that decoding and encoding rest on: what the first byte
of each chunk classifies as, and how its fields read back. -/

namespace Sys2Proof

theorem classify_index : ∀ i : Slot, classify (0b00#2 ++ i : Byte) = .index := by decide

theorem classify_diff : ∀ fr fg fb : BitVec 2, classify (0b01#2 ++ fr ++ fg ++ fb : Byte) = .diff := by decide

theorem classify_luma : ∀ fg : BitVec 6, classify (0b10#2 ++ fg : Byte) = .luma := by decide

theorem classify_run : ∀ n1 : BitVec 6, n1.toNat ≤ 61 → classify (0b11#2 ++ n1 : Byte) = .run := by decide

theorem classify_tagRGB : classify Config.tagRGB = .rgb := by decide

theorem classify_tagRGBA : classify Config.tagRGBA = .rgba := by decide

/-- The payload of a one-tag byte reads back. -/
theorem payload_append : ∀ (t : BitVec 2) (i : BitVec 6), (t ++ i : Byte).extractLsb' 0 6 = i := by decide

theorem diff_fields : ∀ fr fg fb : BitVec 2,
    (0b01#2 ++ fr ++ fg ++ fb : Byte).extractLsb' 4 2 = fr ∧ (0b01#2 ++ fr ++ fg ++ fb : Byte).extractLsb' 2 2 = fg ∧
      (0b01#2 ++ fr ++ fg ++ fb : Byte).extractLsb' 0 2 = fb := by decide

theorem luma_fields : ∀ frg fbg : BitVec 4,
    (frg ++ fbg : Byte).extractLsb' 4 4 = frg ∧ (frg ++ fbg : Byte).extractLsb' 0 4 = fbg := by decide

theorem bytes_of_index : ∀ b : Byte, classify b = .index → (0b00#2 ++ b.extractLsb' 0 6 : Byte) = b := by decide

theorem bytes_of_diff : ∀ b : Byte, classify b = .diff →
    (0b01#2 ++ b.extractLsb' 4 2 ++ b.extractLsb' 2 2 ++ b.extractLsb' 0 2 : Byte) = b := by decide

theorem bytes_of_luma : ∀ b : Byte, classify b = .luma → (0b10#2 ++ b.extractLsb' 0 6 : Byte) = b := by decide

theorem bytes_of_nibbles : ∀ b : Byte, (b.extractLsb' 4 4 ++ b.extractLsb' 0 4 : Byte) = b := by decide

theorem bytes_of_run : ∀ b : Byte, classify b = .run → (0b11#2 ++ b.extractLsb' 0 6 : Byte) = b := by decide

theorem byte_of_rgb : ∀ b : Byte, classify b = .rgb → b = Config.tagRGB := by decide

theorem byte_of_rgba : ∀ b : Byte, classify b = .rgba → b = Config.tagRGBA := by decide

/-- The number of a concatenation. -/
theorem append_toNat {n m : Nat} (x : BitVec n) (y : BitVec m) : (x ++ y).toNat = x.toNat * 2 ^ m + y.toNat := by
  rw [BitVec.toNat_append, ← Nat.shiftLeft_add_eq_or_of_lt y.isLt, Nat.shiftLeft_eq]

/-- R102: `W = 2^24 s[4] + 2^16 s[5] + 2^8 s[6] + s[7]`. -/
theorem be32_toNat (b3 b2 b1 b0 : Byte) :
    (be32 b3 b2 b1 b0).toNat = 2 ^ 24 * b3.toNat + 2 ^ 16 * b2.toNat + 2 ^ 8 * b1.toNat + b0.toNat := by
  simp only [be32, append_toNat]
  omega

/-- R64, R102: a 32-bit number is assembled from its bytes. -/
theorem be32_be32Bytes (w : Word) :
    be32 (w.extractLsb' 24 8) (w.extractLsb' 16 8) (w.extractLsb' 8 8) (w.extractLsb' 0 8) = w := by
  apply BitVec.eq_of_toNat_eq
  have := w.isLt
  simp only [be32_toNat, BitVec.extractLsb'_toNat, Nat.shiftRight_eq_div_pow]
  omega

end Sys2Proof
end

