-- ==== Sys2Proof/Laws/Exec.lean ====
section
/-! SUPPORT. What every instruction, every step of an engine and every run have in common: an instruction acts on the
decoder alone (spec/10_state.md R35), the Header's validity as a proposition (R21), when a start is accepted
(spec/60_exceptions.md R240), runs joined end to end. -/

namespace Sys2Proof.Machine

/-- R21, R106: a valid Header. -/
theorem Header.valid_iff (h : Header) :
    h.valid = true ↔ 0 < h.w.toNat ∧ 0 < h.h.toNat ∧ (h.ch = 3 ∨ h.ch = 4) ∧ (h.cs = 0 ∨ h.cs = 1) := by
  simp [Header.valid, and_assoc]

/-- R126: after validation there is at least one pixel. -/
theorem Header.pixels_pos {h : Header} (hv : h.valid = true) : 0 < h.pixels :=
  Nat.mul_pos ((Header.valid_iff h).mp hv).1 ((Header.valid_iff h).mp hv).2.1

theorem Enc.accepts_iff (e : Enc) : e.accepts = true ↔ e.phase = .idle ∨ e.phase = .done ∨ e.phase = .error := by
  simp [Enc.accepts, or_assoc]

theorem Dec.accepts_iff (d : Dec) : d.accepts = true ↔ d.phase = .idle ∨ d.phase = .done ∨ d.phase = .error := by
  simp [Dec.accepts, or_assoc]

/-- R35: an instruction is a function of the decoder's state that answers a new state of the decoder. -/
theorem exec_dec (i : Instr) : ∃ f : Dec → Dec, ∀ s : State, exec i s = .next (s.setDec (f s.dec)) := by
  cases i with
  | header w h ch cs =>
    exact ⟨fun d =>
      if d.phase = .header then
        if d.bpos + Config.hdrLen ≤ d.blen then (d.advance Config.hdrLen).takeHeader ⟨w, h, ch, cs⟩ else d.truncate
      else d, fun _ => rfl⟩
  | endMarker =>
    exact ⟨fun d =>
      match d.phase, d.trail with
      | .trailer, some t => d.checkTrailer t
      | _, _ => d, fun _ => rfl⟩
  | rgba r g b a => exact ⟨_, fun _ => rfl⟩
  | rgb r g b => exact ⟨_, fun _ => rfl⟩
  | index k => exact ⟨_, fun _ => rfl⟩
  | diff fr fg fb => exact ⟨_, fun _ => rfl⟩
  | luma fg frg fbg => exact ⟨_, fun _ => rfl⟩
  | run n1 => exact ⟨_, fun _ => rfl⟩

/-- Bytes read together are read in two parts. -/
theorem Memory.readMany_split {m : Memory} {a x y : Nat} {l : List Byte} (h : m.readMany a (x + y) = some l) :
    m.readMany a x = some (l.take x) ∧ m.readMany (a + x) y = some (l.drop x) := by
  simp only [Memory.readMany_eq_some_iff] at *
  obtain ⟨hl, hr⟩ := h
  refine ⟨⟨by simp; omega, fun k hk => ?_⟩, by simp; omega, fun k hk => ?_⟩
  · simp at hk
    rw [hr k (by omega)]
    simp
  · simp at hk
    rw [Nat.add_assoc, hr (x + k) (by omega)]
    simp

/-- R63: a filled pixel buffer stays filled when the next pixels are written. -/
theorem Memory.filledTo_writeColours (cs : List Colour) {m : Memory} {k : Nat} (h : m.filledTo (4 * k)) :
    (m.writeColours k cs).filledTo (4 * (k + cs.length)) := by
  induction cs generalizing m k with
  | nil => exact h
  | cons c cs ih =>
    have := ih (m := m.writeColour k c) (k := k + 1) (by
      have := Memory.filledTo_writeMany h [c.r, c.g, c.b, c.a]
      simpa [Nat.mul_add, Memory.writeColour] using this)
    simp only [Memory.writeColours, List.length_cons]
    rwa [show k + (cs.length + 1) = k + 1 + cs.length by omega]

/-- R171: a pixel's chunk has between one and five bytes. -/
theorem Enc.emitPixel_bytes (e : Enc) (cur : Colour) :
    ∃ bs : List Byte, bs ≠ [] ∧ bs.length ≤ 5 ∧ e.emitPixel cur = e.bytesWrite bs := by
  rcases e.emitPixel_cases cur with ⟨_, h⟩ | ⟨_, _, h⟩ | ⟨_, _, _, h⟩ | ⟨_, _, _, _, h⟩ | ⟨_, _, _, _, h⟩ <;>
    exact ⟨_, by simp, by simp, h⟩

/-- A run followed by a run is a run. -/
theorem run_append {k m : Nat} {s t : State} {o : Host.Outcome State Fault Refusal}
    (h1 : Host.Core.run core k s = .next t) (h2 : Host.Core.run core m t = o) :
    Host.Core.run core (k + m) s = o := by
  induction k generalizing s with
  | zero =>
    obtain rfl := Host.Outcome.next.inj h1
    rw [Nat.zero_add]
    exact h2
  | succ k ih =>
    rw [show k + 1 + m = (k + m) + 1 by omega]
    simp only [Host.Core.run] at h1 ⊢
    split at h1
    · exact ih h1
    · cases h1
    · cases h1

theorem run_one {s t : State} (h : step s = .next t) : Host.Core.run core 1 s = .next t := by
  simp only [Host.Core.run, core, h]

end Sys2Proof.Machine
end

