-- ==== Sys2Proof/Laws/PerInstr.lean ====
section
/-! SUPPORT. The statements made of every instruction, one lemma for each constructor. -/

namespace Sys2Proof.Laws.EncodeLength

/-- R90: the encoding of an instruction is as long as its format. -/
def Statement (i : Instr) : Prop := (encode i).length = instrLength i

theorem header (w h : Word) (ch cs : Byte) : Statement (.header w h ch cs) := rfl

theorem rgba (r g b a : Byte) : Statement (.rgba r g b a) := rfl

theorem rgb (r g b : Byte) : Statement (.rgb r g b) := rfl

theorem index (i : Slot) : Statement (.index i) := rfl

theorem diff (fr fg fb : BitVec 2) : Statement (.diff fr fg fb) := rfl

theorem luma (fg : BitVec 6) (frg fbg : BitVec 4) : Statement (.luma fg frg fbg) := rfl

theorem run (n1 : BitVec 6) : Statement (.run n1) := rfl

theorem endMarker : Statement .endMarker := rfl

end Sys2Proof.Laws.EncodeLength
end

