-- ==== Sys2Proof/Tests/Slice0.lean ====
section
/-! SUPPORT. Tests on fixed values, their results taken from spec/95_test_vectors.md or by hand from the encodings of
spec/30_encoding.md; and for each statement with hypotheses a witness, values that meet the hypotheses together. -/

namespace Sys2Proof.Tests

open Sys2Proof Sys2Proof.Machine

/-! ### Well-formedness: an ill-formed term for each check -/

theorem test_width_zero_is_ill_formed : (Instr.header 0 5 4 0).wellFormed = false := by decide

theorem test_height_zero_is_ill_formed : (Instr.header 5 0 4 0).wellFormed = false := by decide

theorem test_channels_five_is_ill_formed : (Instr.header 1 1 5 0).wellFormed = false := by decide

theorem test_colorspace_two_is_ill_formed : (Instr.header 1 1 3 2).wellFormed = false := by decide

theorem test_run_62_is_ill_formed : (Instr.run 62).wellFormed = false := by decide

theorem test_run_61_is_well_formed : (Instr.run 61).wellFormed = true := by decide

/-! ### Decoding: words written out bit by bit from R93 to R100 -/

/-- V-K2. -/
theorem test_decode_index : decode .chunk [0b00111111, 7] = .ok (.index 63, [7]) := by decide

/-- V-DC8: fields 3, 1, 2. -/
theorem test_decode_diff : decode .chunk [0b01110110] = .ok (.diff 3 1 2, []) := by decide

/-- V-DC9: AF 31. -/
theorem test_decode_luma : decode .chunk [0b10101111, 0b00110001] = .ok (.luma 47 3 1, []) := by decide

/-- V-DC11: C2. -/
theorem test_decode_run : decode .chunk [0b11000010] = .ok (.run 2, []) := by decide

/-- V-DC13: payload bytes FE and FF are data. -/
theorem test_decode_rgb : decode .chunk [0xFE, 0xFE, 0xFF, 0xFE] = .ok (.rgb 0xFE 0xFF 0xFE, []) := by decide

/-- V-DC1. -/
theorem test_decode_rgba : decode .chunk [0xFF, 1, 2, 3, 0x4D] = .ok (.rgba 1 2 3 77, []) := by decide

/-- R122: `HEADER 4294967295 1 3 1`. -/
theorem test_decode_header :
    decode .frameStart [0x71, 0x6F, 0x69, 0x66, 0xFF, 0xFF, 0xFF, 0xFF, 0, 0, 0, 1, 3, 1] =
      .ok (.header 4294967295 1 3 1, []) := by decide

theorem test_decode_end : decode .trailer [0, 0, 0, 0, 0, 0, 0, 1] = .ok (.endMarker, []) := by decide

/-- R124: "QOIF" in capitals is refused by name. -/
theorem test_decode_bad_magic : decode .frameStart [0x51, 0x4F, 0x49, 0x46] = .error .badMagic := by decide

/-- R108: LUMA without its second byte is refused by name. -/
theorem test_decode_truncated : decode .chunk [0xA5] = .error .truncated := by decide

/-- R129: seven bytes left are refused by name. -/
theorem test_decode_bad_end : decode .trailer [0, 0, 0, 0, 0, 0, 1] = .error .badEndMarker := by decide

/-- The rows of the opcode table as it numbers their bits. -/
theorem test_table_words :
    decodeTableWord 32 0x716F6966 = some (.header 0 0 0 0) ∧ decodeTableWord 8 0xFF = some (.rgba 0 0 0 0) ∧
    decodeTableWord 8 0xFE = some (.rgb 0 0 0) ∧ decodeTableWord 8 0x05 = some (.index 5) ∧
    decodeTableWord 8 0x76 = some (.diff 3 1 2) ∧ decodeTableWord 16 0x31AF = some (.luma 47 3 1) ∧
    decodeTableWord 8 0xC2 = some (.run 2) ∧ decodeTableWord 64 1 = some .endMarker := by decide

/-! ### One decoder step for each instruction -/

/-- A decoder run at offset 14 in CHUNKS: `n` pixels, `k` of them written, the bytes `bs` left. -/
def decoding (n k : Nat) (prev : Colour) (cache : Cache) (bs : List Byte) : Dec :=
  { Dec.loaded (14 + bs.length) (Memory.writeMany [] 14 bs) with
    phase := .chunks, hdr := some ⟨BitVec.ofNat 32 n, 1, 4, 0⟩, npix := some n, pcnt := k, bpos := 14
    prev := prev, cache := cache }

/-- The machine with that decoder. -/
def decodingState (n k : Nat) (prev : Colour) (bs : List Byte) : State :=
  State.engines Enc.reset (decoding n k prev freshCache bs)

/-- What a test looks at after a step: the pixel `j`, `PREV`, the slot `i`, `BPOS`, `PCNT`, `RUN_CLIP`. -/
def seen (j : Nat) (i : Slot) : Host.Outcome State Fault Refusal → Option (Option Colour × Colour × Colour × Nat × Nat × Bool)
  | .next t => some (t.dec.pixOut.readColour j, t.dec.prev, t.dec.cache.lookup i, t.dec.bpos, t.dec.pcnt, t.dec.runClip)
  | .fault _ => none
  | .refused _ => none

/-- V-DC14. -/
theorem test_rgba : seen 0 22 (step (decodingState 9 0 ⟨254, 255, 254, 255⟩ [0xFF, 0xFF, 0xFE, 0xFF, 0xFE])) =
    some (some ⟨255, 254, 255, 254⟩, ⟨255, 254, 255, 254⟩, ⟨255, 254, 255, 254⟩, 19, 1, false) := by decide

/-- V-DC2: alpha from `PREV`. -/
theorem test_rgb : seen 4 3 (step (decodingState 9 4 ⟨1, 2, 3, 77⟩ [0xFE, 9, 8, 7])) =
    some (some ⟨9, 8, 7, 77⟩, ⟨9, 8, 7, 77⟩, ⟨9, 8, 7, 77⟩, 18, 5, false) := by decide

/-- V-DC5: the slot read is the one named, alpha and all. -/
theorem test_index :
    seen 0 0 (step (State.engines Enc.reset
      (decoding 9 0 ⟨5, 5, 5, 0⟩ (freshCache.store ⟨5, 5, 5, 255⟩) [0x00]))) =
    some (some ⟨5, 5, 5, 255⟩, ⟨5, 5, 5, 255⟩, ⟨5, 5, 5, 255⟩, 15, 1, false) := by decide

/-- V-DC8: the field positions, and the wrap of green. -/
theorem test_diff : seen 0 51 (step (decodingState 9 0 ⟨0, 0, 0, 255⟩ [0x76])) =
    some (some ⟨1, 255, 0, 255⟩, ⟨1, 255, 0, 255⟩, ⟨1, 255, 0, 255⟩, 15, 1, false) := by decide

/-- V-DC9. -/
theorem test_luma : seen 0 42 (step (decodingState 9 0 ⟨10, 20, 30, 255⟩ [0xAF, 0x31])) =
    some (some ⟨20, 35, 38, 255⟩, ⟨20, 35, 38, 255⟩, ⟨20, 35, 38, 255⟩, 16, 1, false) := by decide

/-- V-DC11: the third of three pixels; the slot of `PREV` is stored to. -/
theorem test_run : seen 2 9 (step (decodingState 9 0 ⟨10, 20, 30, 255⟩ [0xC2])) =
    some (some ⟨10, 20, 30, 255⟩, ⟨10, 20, 30, 255⟩, ⟨10, 20, 30, 255⟩, 15, 3, false) := by decide

/-- R212: `NPIX = 2`, chunk C4: two pixels, RUN_CLIP, slot 53. -/
theorem test_run_clipped : seen 1 53 (step (decodingState 2 0 ⟨0, 0, 0, 255⟩ [0xC4])) =
    some (some ⟨0, 0, 0, 255⟩, ⟨0, 0, 0, 255⟩, ⟨0, 0, 0, 255⟩, 15, 2, true) := by decide

/-- A decoder run just started on these bytes. -/
def starting (bs : List Byte) : State := State.engines Enc.reset (Dec.loaded bs.length (Memory.writeMany [] 0 bs))

/-- What a test looks at after a frame. -/
structure Framed where
  phase : DecPhase
  err : ErrKind
  bpos : Nat
  hdr : Option Header
  npix : Option Nat
  endMismatch : Bool
deriving DecidableEq, Repr

/-- What stands in the decoder after a frame. -/
def framed : Host.Outcome State Fault Refusal → Option Framed
  | .next t => some ⟨t.dec.phase, t.dec.err, t.dec.bpos, t.dec.hdr, t.dec.npix, t.dec.endMismatch⟩
  | .fault _ => none
  | .refused _ => none

/-- R123. -/
theorem test_header : framed (step (starting [0x71, 0x6F, 0x69, 0x66, 0, 0, 0, 4, 0, 0, 0, 1, 4, 0])) =
    some ⟨.chunks, .none, 14, some ⟨4, 1, 4, 0⟩, some 4, false⟩ := by decide

/-- R125: channels 5. -/
theorem test_header_invalid :
    framed (step (starting [0x71, 0x6F, 0x69, 0x66, 0, 0, 0, 1, 0, 0, 0, 1, 5, 0])) =
      some ⟨.error, .validation, 14, some ⟨1, 1, 5, 0⟩, none, false⟩ := by decide

/-- A decoder run in TRAILER at offset 19 (R129). -/
def trailing (bs : List Byte) : State :=
  State.engines Enc.reset
    { Dec.loaded (19 + bs.length) (Memory.writeMany [] 19 bs) with
      phase := .trailer, hdr := some ⟨1, 1, 4, 0⟩, npix := some 1, pcnt := 1, bpos := 19 }

/-- R129. -/
theorem test_end : framed (step (trailing [0, 0, 0, 0, 0, 0, 0, 1])) =
    some ⟨.done, .none, 19, some ⟨1, 1, 4, 0⟩, some 1, false⟩ := by decide

/-- R129: fewer than eight bytes left. -/
theorem test_end_mismatch : framed (step (trailing [0, 0, 0, 0, 0, 0, 1])) =
    some ⟨.done, .none, 19, some ⟨1, 1, 4, 0⟩, some 1, true⟩ := by decide

/-! ### One encoder step for each instruction -/

/-- An encoder run in PIXELS, its next pixel `cur`, 14 bytes written. -/
def encoding (prev : Colour) (run : Nat) (cache : Cache) (cur : Colour) : Enc :=
  { Enc.loaded ⟨9, 1, 4, 0⟩ [cur] with phase := .pixels, prev := prev, run := run, cache := cache, bout := 14 }

/-- The bytes written, and the new `RUN`. -/
def wrote (e : Option Enc) : Option (Option (List Byte) × Nat) :=
  e.map fun t => (t.byteOut.readMany 14 (t.bout - 14), t.run)

/-- V-E3: the run hits 62. -/
theorem test_encode_run : wrote (encoding ⟨10, 20, 30, 255⟩ 61 freshCache ⟨10, 20, 30, 255⟩).step =
    some (some [0xFD], 0) := by decide

/-- V-E7: DIFF would fit, INDEX wins. -/
theorem test_encode_index :
    wrote (encoding ⟨11, 21, 31, 255⟩ 0 (freshCache.store ⟨10, 20, 30, 255⟩) ⟨10, 20, 30, 255⟩).step =
    some (some [0x09], 0) := by decide

/-- V-E4: the flush, then DIFF against the run's colour. -/
theorem test_encode_diff : wrote (encoding ⟨10, 20, 30, 255⟩ 3 freshCache ⟨11, 21, 31, 255⟩).step =
    some (some [0xC2, 0x7F], 0) := by decide

/-- V-E14. -/
theorem test_encode_luma : wrote (encoding ⟨250, 250, 250, 255⟩ 0 freshCache ⟨4, 10, 3, 255⟩).step =
    some (some [0xB0, 0x21], 0) := by decide

/-- V-E18: a collision. -/
theorem test_encode_rgb :
    wrote (encoding ⟨1, 2, 3, 255⟩ 0 (freshCache.store ⟨1, 2, 3, 255⟩) ⟨65, 2, 3, 255⟩).step =
    some (some [0xFE, 0x41, 0x02, 0x03], 0) := by decide

/-- V-E17: the longest step. -/
theorem test_encode_rgba : wrote (encoding ⟨5, 5, 5, 255⟩ 2 freshCache ⟨5, 5, 5, 0⟩).step =
    some (some [0xC1, 0xFF, 5, 5, 5, 0], 0) := by decide

/-- V-F2. -/
theorem test_encode_end :
    wrote (Enc.step { encoding ⟨10, 20, 30, 255⟩ 3 freshCache ⟨0, 0, 0, 0⟩ with phase := .finish }) =
    some (some [0xC2, 0, 0, 0, 0, 0, 0, 0, 1], 0) := by decide

/-- R122: `HEADER 4 1 4 0`. -/
theorem test_encode_header :
    ((Enc.loaded ⟨4, 1, 4, 0⟩ []).step.map fun t => t.byteOut.readMany 0 t.bout) =
    some (some [0x71, 0x6F, 0x69, 0x66, 0, 0, 0, 4, 0, 0, 0, 1, 4, 0]) := by decide

/-! ### Where `withFetchWord` puts an instruction -/

/-- The first step after reset runs the instruction placed. -/
theorem test_first_step_runs_the_word :
    step (State.reset.withFetchWord 8 0x76) = exec (.diff 3 1 2) (State.reset.withFetchWord 8 0x76) ∧
    step (State.reset.withFetchWord 32 0x716F6966) =
      exec (.header 0 0 0 0) (State.reset.withFetchWord 32 0x716F6966) ∧
    step (State.reset.withFetchWord 64 1) = exec .endMarker (State.reset.withFetchWord 64 1) := ⟨rfl, rfl, rfl⟩

/-! ### Witnesses: values that meet the hypotheses of a statement together, each clause at a boundary -/

theorem witness_DecodeEncodeRoundTrip :
    ((Instr.run 61).wellFormed = true ∧ (placeOf (.run 61) = .trailer → ([1, 2] : List Byte) = [])) ∧
    (Instr.endMarker.wellFormed = true ∧ (placeOf .endMarker = .trailer → ([] : List Byte) = [])) := by decide

theorem witness_EveryChunkStreamParses :
    chunkLength 0xFF ≤ ([1, 2, 3, 4] : List Byte).length + 1 ∧ chunkLength 0xFD ≤ ([] : List Byte).length + 1 := by
  decide

/-- Each range of first bytes at both ends. -/
theorem witness_FirstByteGivesKindAndLength :
    (classify 0x00 = .index ∧ classify 0x3F = .index ∧ classify 0x40 = .diff ∧ classify 0x7F = .diff) ∧
    (classify 0x80 = .luma ∧ classify 0xBF = .luma ∧ classify 0xC0 = .run ∧ classify 0xFD = .run) ∧
    (classify 0xFE = .rgb ∧ classify 0xFF = .rgba) := by decide

theorem witness_RunPayloadAtMost61 : classify 0xFD = .run := by decide

theorem inChunks_decoding {n k : Nat} (h : k < n) (prev : Colour) (bs : List Byte) :
    (decodingState n k prev bs).dec.inChunks n := ⟨rfl, rfl, h⟩

theorem witness_StepRunsDecodedInstruction_chunk :
    let s := decodingState 1 0 ⟨0, 0, 0, 255⟩ [0xAF, 0x31]
    s.inputs = [] ∧ (Instr.luma 47 3 1).wellFormed = true ∧ s.dec.bpos + 2 ≤ s.dec.blen ∧
    s.dec.byteIn.readMany s.dec.bpos 2 = some [0xAF, 0x31] ∧ s.dec.phase = .chunks ∧ s.dec.owes = true ∧
    s.dec.outReady = true ∧ decode .chunk [0xAF, 0x31] = .ok (.luma 47 3 1, []) := by decide

theorem witness_StepRunsDecodedInstruction_header :
    let bs : List Byte := [0x71, 0x6F, 0x69, 0x66, 0, 0, 0, 4, 0, 0, 0, 1, 4, 0]
    let s := starting bs
    s.inputs = [] ∧ (Instr.header 4 1 4 0).wellFormed = true ∧ s.dec.bpos + 14 ≤ s.dec.blen ∧
    s.dec.byteIn.readMany s.dec.bpos 14 = some bs ∧ s.dec.phase = .header ∧
    decode .frameStart bs = .ok (.header 4 1 4 0, []) := by decide

theorem witness_StepRunsDecodedInstruction_end :
    let bs : List Byte := [0, 0, 0, 0, 0, 0, 0, 1]
    let s := trailing bs
    s.inputs = [] ∧ s.dec.bpos + 8 = s.dec.blen ∧ s.dec.byteIn.readMany s.dec.bpos 8 = some bs ∧
    s.dec.phase = .trailer ∧ decode .trailer bs = .ok (.endMarker, []) := by decide

/-- No trailing byte at all, and eight of which one is wrong. -/
theorem witness_StepRunsDecodedInstruction_mismatch :
    ((trailing []).inputs = [] ∧ (trailing []).dec.phase = .trailer ∧
      (trailing []).dec.byteIn.readMany 19 (19 - 19) = some []) ∧
    (trailing [0, 0, 0, 0, 0, 0, 0, 2]).dec.byteIn.readMany 19 (27 - 19) = some [0, 0, 0, 0, 0, 0, 0, 2] := by decide

/-- The payload ends exactly at BLEN, and one byte beyond it; the last pixel of the image. -/
theorem witness_RgbaProducesItsPayload :
    (let s := decodingState 1 0 ⟨0, 0, 0, 255⟩ [0xFF, 1, 2, 3, 4]; s.dec.inChunks 1 ∧ s.dec.bpos + 5 ≤ s.dec.blen) ∧
    (let s := decodingState 1 0 ⟨0, 0, 0, 255⟩ [0xFF, 1, 2, 3]; s.dec.inChunks 1 ∧ s.dec.blen < s.dec.bpos + 5) :=
  ⟨⟨inChunks_decoding (by decide) _ _, by decide⟩, ⟨inChunks_decoding (by decide) _ _, by decide⟩⟩

theorem witness_RgbTakesAlphaFromPrev :
    (let s := decodingState 1 0 ⟨0, 0, 0, 255⟩ [0xFE, 1, 2, 3]; s.dec.inChunks 1 ∧ s.dec.bpos + 4 ≤ s.dec.blen) ∧
    (let s := decodingState 1 0 ⟨0, 0, 0, 255⟩ [0xFE, 1, 2]; s.dec.inChunks 1 ∧ s.dec.blen < s.dec.bpos + 4) :=
  ⟨⟨inChunks_decoding (by decide) _ _, by decide⟩, ⟨inChunks_decoding (by decide) _ _, by decide⟩⟩

theorem witness_IndexCopiesItsSlot :
    let s := decodingState 9 1 ⟨0, 0, 0, 255⟩ [0x3F]
    s.dec.inChunks 9 ∧ s.dec.bpos + 1 ≤ s.dec.blen := ⟨inChunks_decoding (by decide) _ _, by decide⟩

/-- The deltas at both ends of their range: 0 - 2 wraps to 254, 255 + 1 to 0. -/
theorem witness_DiffAddsItsDeltas :
    let s := decodingState 9 0 ⟨0, 255, 7, 9⟩ [0b01001101]
    s.dec.inChunks 9 ∧ s.dec.bpos + 1 ≤ s.dec.blen ∧ isPlus 254 s.dec.prev.r ((0 : BitVec 2).toNat - 2) ∧
    isPlus 0 s.dec.prev.g ((3 : BitVec 2).toNat - 2) ∧ isPlus 6 s.dec.prev.b ((1 : BitVec 2).toNat - 2) ∧
    (9 : Byte) = s.dec.prev.a :=
  ⟨inChunks_decoding (by decide) _ _, by decide, by unfold isPlus; decide, by unfold isPlus; decide,
    by unfold isPlus; decide, rfl⟩

/-- V-DD12: all three fields at their greatest. -/
theorem witness_LumaAddsItsDeltas :
    let s := decodingState 9 0 ⟨255, 255, 255, 9⟩ [0xBF, 0xFF]
    s.dec.inChunks 9 ∧ s.dec.bpos + 2 ≤ s.dec.blen ∧
    isPlus 37 s.dec.prev.r (((15 : BitVec 4).toNat - 8) + ((63 : BitVec 6).toNat - 32)) ∧
    isPlus 30 s.dec.prev.g ((63 : BitVec 6).toNat - 32) ∧
    isPlus 37 s.dec.prev.b (((15 : BitVec 4).toNat - 8) + ((63 : BitVec 6).toNat - 32)) ∧
    (9 : Byte) = s.dec.prev.a ∧
    (decodingState 9 0 ⟨255, 255, 255, 9⟩ [0xBF]).dec.blen < (decodingState 9 0 ⟨255, 255, 255, 9⟩ [0xBF]).dec.bpos + 2 :=
  ⟨inChunks_decoding (by decide) _ _, by decide, by unfold isPlus; decide, by unfold isPlus; decide,
    by unfold isPlus; decide, rfl, by decide⟩

/-- A run that ends exactly at the image's end, and one that ends a pixel before it. -/
theorem witness_RunRepeatsPrev :
    (let s := decodingState 62 0 ⟨0, 0, 0, 255⟩ [0xFD]
     s.dec.inChunks 62 ∧ s.dec.bpos + 1 ≤ s.dec.blen ∧ s.dec.pcnt + ((61 : BitVec 6).toNat + 1) ≤ 62) ∧
    (let s := decodingState 63 0 ⟨0, 0, 0, 255⟩ [0xFD]
     s.dec.inChunks 63 ∧ s.dec.bpos + 1 ≤ s.dec.blen ∧ s.dec.pcnt + ((61 : BitVec 6).toNat + 1) ≤ 63) :=
  ⟨⟨inChunks_decoding (by decide) _ _, by decide, by decide⟩, ⟨inChunks_decoding (by decide) _ _, by decide, by decide⟩⟩

/-- A run that asks for one pixel too many. -/
theorem witness_RunIsClippedAtTheImageEnd :
    let s := decodingState 61 0 ⟨0, 0, 0, 255⟩ [0xFD]
    s.dec.inChunks 61 ∧ s.dec.bpos + 1 ≤ s.dec.blen ∧ 61 < s.dec.pcnt + ((61 : BitVec 6).toNat + 1) :=
  ⟨inChunks_decoding (by decide) _ _, by decide, by decide⟩

/-- R213's example: LUMA with one byte left; and no byte left at all. -/
theorem witness_TruncatedChunkRaises :
    (let s := decodingState 1 0 ⟨0, 0, 0, 255⟩ [0xA5]
     placeOf (.luma 37 8 8) = .chunk ∧ s.dec.inChunks 1 ∧ s.dec.blen < s.dec.bpos + instrLength (.luma 37 8 8)) ∧
    (let s := decodingState 1 0 ⟨0, 0, 0, 255⟩ []
     placeOf (.index 0) = .chunk ∧ s.dec.inChunks 1 ∧ s.dec.blen < s.dec.bpos + instrLength (.index 0)) :=
  ⟨⟨rfl, inChunks_decoding (by decide) _ _, by decide⟩, ⟨rfl, inChunks_decoding (by decide) _ _, by decide⟩⟩

theorem witness_NoChunkFiresElsewhere :
    placeOf (.run 0) = .chunk ∧ (trailing [0xC0]).dec.phase ≠ .chunks ∧
    (decodingState 1 1 ⟨0, 0, 0, 255⟩ [0xC0]).dec.owes = false := by decide

theorem witness_ChunkFrame :
    ∃ t, placeOf (.run 4) = .chunk ∧ exec (.run 4) (decodingState 2 1 ⟨0, 0, 0, 255⟩ [0xC4]) = .next t ∧
      (3 < 4 * 1 ∨ 4 * t.dec.pcnt ≤ 3) ∧ (3 < 4 * 1 ∨ 4 * t.dec.pcnt ≤ 8) ∧ (52 : Slot) ≠ colourHash t.dec.prev ∧
      (∀ n1, Instr.rgb 0 0 0 ≠ .run n1) :=
  ⟨_, rfl, rfl, by decide, by decide, by decide, fun _ h => Instr.noConfusion h⟩

/-- The largest width, the smallest height. -/
theorem witness_HeaderStoresItsFields :
    let s := starting [0x71, 0x6F, 0x69, 0x66, 0xFF, 0xFF, 0xFF, 0xFF, 0, 0, 0, 1, 3, 1]
    s.dec.phase = .header ∧ s.dec.bpos + 14 ≤ s.dec.blen ∧ 0 < (0xFFFFFFFF : Word).toNat ∧ 0 < (1 : Word).toNat ∧
    ((3 : Byte) = 3 ∨ (3 : Byte) = 4) ∧ ((1 : Byte) = 0 ∨ (1 : Byte) = 1) := by decide

/-- Each of the four conditions, alone. -/
theorem witness_IllegalHeaderRaisesValidation :
    let s := starting [0x71, 0x6F, 0x69, 0x66, 0, 0, 0, 0, 0, 0, 0, 1, 4, 0]
    s.dec.phase = .header ∧ s.dec.bpos + 14 ≤ s.dec.blen ∧ (0 : Word).toNat = 0 ∧
    ((2 : Byte) ≠ 3 ∧ (2 : Byte) ≠ 4) ∧ ((5 : Byte) ≠ 3 ∧ (5 : Byte) ≠ 4) ∧ ((2 : Byte) ≠ 0 ∧ (2 : Byte) ≠ 1) := by
  decide

/-- The four clauses: 3 bytes; 4 bytes of another format; 13 bytes; 14 bytes. -/
theorem witness_HeaderErrorsInReadingOrder :
    (let S : List Byte := [0x71, 0x6F, 0x69]
     (starting S).inputs = [] ∧ (starting S).dec.phase = .header ∧ (starting S).dec.bpos = 0 ∧
     (starting S).dec.blen = S.length ∧ (starting S).dec.byteIn.readMany 0 S.length = some S ∧ S.length < 4) ∧
    (let S : List Byte := [0x89, 0x50, 0x4E, 0x47]
     (starting S).dec.byteIn.readMany 0 S.length = some S ∧ 4 ≤ S.length ∧ S.take 4 ≠ [0x71, 0x6F, 0x69, 0x66]) ∧
    (let S : List Byte := [0x71, 0x6F, 0x69, 0x66, 0, 0, 0, 1, 0, 0, 0, 1, 4]
     (starting S).dec.byteIn.readMany 0 S.length = some S ∧ S.length < 14 ∧ S.take 4 = [0x71, 0x6F, 0x69, 0x66]) ∧
    (let S : List Byte := [0x71, 0x6F, 0x69, 0x66, 0, 0, 0, 1, 0, 0, 0, 1, 4, 0]
     (starting S).dec.byteIn.readMany 0 S.length = some S ∧ 14 ≤ S.length ∧ S.take 4 = [0x71, 0x6F, 0x69, 0x66]) := by
  decide

/-- No byte left, eight right ones, nine. -/
theorem witness_EndFrameComparesTheTrailer :
    ((trailing []).dec.phase = .trailer ∧ (trailing []).dec.byteIn.readMany 19 0 = some []) ∧
    (trailing [0, 0, 0, 0, 0, 0, 0, 1]).dec.byteIn.readMany 19 8 = some [0, 0, 0, 0, 0, 0, 0, 1] ∧
    (trailing [0, 0, 0, 0, 0, 0, 0, 1, 0]).dec.byteIn.readMany 19 9 = some [0, 0, 0, 0, 0, 0, 0, 1, 0] := by decide

theorem witness_FramesLeavePixelsAlone :
    (∃ t, placeOf .endMarker ≠ .chunk ∧ exec .endMarker (trailing [0, 0, 0, 0, 0, 0, 0, 1]) = .next t ∧
      placeOf .endMarker = .trailer ∧ (18 < 19 ∨ 27 ≤ 18)) ∧
    (∃ t, placeOf (.header 4 1 4 0) ≠ .chunk ∧ exec (.header 4 1 4 0) (starting []) = .next t ∧
      placeOf (.header 4 1 4 0) = .frameStart) :=
  ⟨⟨_, by decide, rfl, by decide, by decide⟩, ⟨_, by decide, rfl, by decide⟩⟩

/-- No byte left; and the first byte of a LUMA alone. -/
theorem witness_StepRaisesTruncated :
    (let s := decodingState 1 0 ⟨0, 0, 0, 255⟩ []
     s.inputs = [] ∧ s.dec.inChunks 1 ∧ s.dec.bpos ≤ s.dec.blen ∧
     s.dec.byteIn.readMany s.dec.bpos (s.dec.blen - s.dec.bpos) = some []) ∧
    (let s := decodingState 1 0 ⟨0, 0, 0, 255⟩ [0xA5]
     s.inputs = [] ∧ s.dec.inChunks 1 ∧ s.dec.bpos ≤ s.dec.blen ∧
     s.dec.byteIn.readMany s.dec.bpos (s.dec.blen - s.dec.bpos) = some [0xA5] ∧
     ∀ b1 rest, [0xA5] = b1 :: rest → s.dec.blen < s.dec.bpos + chunkLength b1) :=
  ⟨⟨rfl, inChunks_decoding (by decide) _ _, by decide, by decide⟩,
    ⟨rfl, inChunks_decoding (by decide) _ _, by decide, by decide, fun b1 rest h => by
      obtain ⟨rfl, -⟩ := List.cons.inj h
      decide⟩⟩

/-- Both engines in ERROR: nothing pending, each start, and hardware reset. -/
def failed (l : List Input) : State :=
  ⟨Enc.reset.raise .validation, Dec.reset.raise .format, l⟩

theorem witness_ErrorIsLeftOnlyByStartOrReset :
    (failed []).dec.phase = .error ∧ (failed []).enc.phase = .error ∧
    (∃ t, step (failed []) = .next t) ∧ (∃ t, step (failed [.decStart 0]) = .next t) ∧
    (∃ t, step (failed [.encStart 1 1 4 0]) = .next t) ∧ (∃ t, step (failed [.hardReset]) = .next t) :=
  ⟨by decide, by decide, ⟨_, rfl⟩, ⟨_, rfl⟩, ⟨_, rfl⟩, ⟨_, rfl⟩⟩

theorem witness_WaitingChangesNothing :
    (State.reset.inputs = [] ∧ State.reset.enc.step = none ∧ (decStep State.reset).isNone = true) ∧
    (let e := { Enc.loaded ⟨1, 1, 4, 0⟩ [] with phase := EncPhase.pixels }
     e.phase = .pixels ∧ e.pidx < e.npix ∧ e.pixIn.readColour e.pidx = none) ∧
    (let d := { decoding 1 0 ⟨0, 0, 0, 255⟩ freshCache [0xC0] with byteIn := [] }
     d.phase = .chunks ∧ d.owes = true ∧ d.bpos < d.blen ∧ d.byteIn.read d.bpos = none) := by decide

/-- Bytes to write (a header, a pixel that differs from `PREV`, the 62nd of a run) and a host that accepts none. -/
theorem witness_WaitingChangesNothing_output :
    (let e := { Enc.loaded ⟨1, 1, 4, 0⟩ [] with outReady := false }; e.outReady = false ∧ e.phase = .header) ∧
    (let e := { encoding ⟨0, 0, 0, 255⟩ 0 freshCache ⟨1, 1, 1, 255⟩ with outReady := false }
     e.outReady = false ∧ e.phase = .pixels ∧ e.pidx < e.npix ∧
     e.pixIn.readColour e.pidx = some ⟨1, 1, 1, 255⟩ ∧ (⟨1, 1, 1, 255⟩ : Colour) ≠ e.prev) ∧
    (let e := { encoding ⟨0, 0, 0, 255⟩ 61 freshCache ⟨0, 0, 0, 255⟩ with outReady := false }
     e.pixIn.readColour e.pidx = some e.prev ∧ e.run = 61) ∧
    (let d := { decoding 1 0 ⟨0, 0, 0, 255⟩ freshCache [0xA0, 0x88] with outReady := false }
     d.phase = .chunks ∧ d.owes = true ∧ d.outReady = false ∧ d.bpos + chunkLength 0xA0 ≤ d.blen ∧
     d.byteIn.readMany d.bpos (chunkLength 0xA0) = some [0xA0, 0x88]) := by decide

/-- The last byte of the magic, the last byte of the header, a payload byte, the last trailing byte, not offered. -/
theorem witness_WaitingChangesNothing_input :
    (let d := Dec.loaded 14 (Memory.writeMany [] 0 [0x71, 0x6F, 0x69])
     d.phase = .header ∧ d.bpos ≤ 3 ∧ 3 < d.bpos + 14 ∧ 3 < d.blen ∧ d.byteIn.read 3 = none ∧ 3 < d.bpos + 4) ∧
    (let d := Dec.loaded 14 (Memory.writeMany [] 0 [0x71, 0x6F, 0x69, 0x66, 0, 0, 0, 1, 0, 0, 0, 1, 4])
     13 < d.bpos + 14 ∧ 13 < d.blen ∧ d.byteIn.read 13 = none ∧
     d.byteIn.readMany d.bpos 4 = some [0x71, 0x6F, 0x69, 0x66]) ∧
    (let d := { decoding 1 0 ⟨0, 0, 0, 255⟩ freshCache [0xA0] with blen := 16 }
     d.phase = .chunks ∧ d.owes = true ∧ d.byteIn.read d.bpos = some 0xA0 ∧ d.bpos < 15 ∧
     15 < d.bpos + chunkLength 0xA0 ∧ 15 < d.blen ∧ d.byteIn.read 15 = none) ∧
    (let d := { (trailing [0, 0, 0, 0, 0, 0, 0]).dec with blen := 27 }
     d.phase = .trailer ∧ d.bpos ≤ 26 ∧ 26 < d.blen ∧ d.byteIn.read 26 = none) := by decide

/-- Both neighbours of pixel 1's bytes. -/
theorem witness_PixelBufferLayout :
    (3 < 4 * 1 ∨ 4 * 1 + 4 ≤ 3) ∧ (8 < 4 * 1 ∨ 4 * 1 + 4 ≤ 8) := by decide

theorem witness_StoreWritesTheSlotOfItsHash : freshCache.sound ∧ (52 : Slot) ≠ colourHash ⟨0, 0, 0, 255⟩ :=
  ⟨freshCache_sound, by decide⟩

/-- Both ends of each range, and the values one beyond (R152, R153). -/
theorem witness_RangeTestsAreUnsigned :
    (-128 : Int) ≤ -128 ∧ (127 : Int) ≤ 127 ∧
    inRange (-2) 1 (-2) = true ∧ inRange (-2) 1 1 = true ∧ inRange (-2) 1 2 = false ∧ inRange (-2) 1 (-3) = false ∧
    inRange (-32) 31 (-32) = true ∧ inRange (-32) 31 31 = true ∧ inRange (-32) 31 32 = false ∧
    inRange (-8) 7 (-8) = true ∧ inRange (-8) 7 7 = true ∧ inRange (-8) 7 8 = false := by decide

theorem witness_HashNeedsSixBits : 6 ≤ 6 := by decide

theorem witness_ApplyInvertsDelta :
    diffFits ⟨254, 254, 254, 255⟩ ⟨0, 0, 0, 255⟩ = true ∧
    lumaFits ⟨138, 131, 138, 255⟩ ⟨100, 100, 100, 255⟩ = true ∧
    lumaFits ⟨60, 68, 60, 255⟩ ⟨100, 100, 100, 255⟩ = true := by decide

theorem witness_StepRunsTheEncoder :
    let s := State.engines (Enc.loaded ⟨4, 1, 4, 0⟩ []) Dec.reset
    s.inputs = [] ∧ (decStep s).isNone = true ∧ ∃ e, s.enc.step = some e := ⟨rfl, by decide, _, rfl⟩

theorem witness_EncoderWritesTheHeader :
    (Enc.loaded ⟨4, 1, 4, 0⟩ []).phase = .header ∧ (Enc.loaded ⟨4, 1, 4, 0⟩ []).outReady = true := by decide

theorem reads_encoding (prev : Colour) (run : Nat) (cache : Cache) (cur : Colour) :
    (encoding prev run cache cur).reads cur :=
  ⟨rfl, by show 0 < 9; decide, by simp [encoding, Enc.loaded, Enc.fresh, Enc.reset, Memory.readColour_writeColours], rfl⟩

/-- `RUN` at both ends. -/
theorem witness_EqualPixelExtendsTheRun :
    ((encoding ⟨0, 0, 0, 255⟩ 0 freshCache ⟨0, 0, 0, 255⟩).reads ⟨0, 0, 0, 255⟩ ∧
      (encoding ⟨0, 0, 0, 255⟩ 0 freshCache ⟨0, 0, 0, 255⟩).run < 61) ∧
    ((encoding ⟨0, 0, 0, 255⟩ 60 freshCache ⟨0, 0, 0, 255⟩).reads ⟨0, 0, 0, 255⟩ ∧
      (encoding ⟨0, 0, 0, 255⟩ 60 freshCache ⟨0, 0, 0, 255⟩).run < 61) :=
  ⟨⟨reads_encoding _ _ _ _, by decide⟩, ⟨reads_encoding _ _ _ _, by decide⟩⟩

theorem witness_RunIsFlushedAt62 :
    (encoding ⟨0, 0, 0, 255⟩ 61 freshCache ⟨0, 0, 0, 255⟩).reads ⟨0, 0, 0, 255⟩ ∧
      (encoding ⟨0, 0, 0, 255⟩ 61 freshCache ⟨0, 0, 0, 255⟩).run = 61 := ⟨reads_encoding _ _ _ _, rfl⟩

/-- V-E9: the unwritten slot. -/
theorem witness_EncoderWritesIndex :
    let e := encoding ⟨0, 0, 0, 255⟩ 0 freshCache ⟨0, 0, 0, 0⟩
    e.reads ⟨0, 0, 0, 0⟩ ∧ (⟨0, 0, 0, 0⟩ : Colour) ≠ e.prev ∧
    e.flushedCache.lookup (colourHash ⟨0, 0, 0, 0⟩) = ⟨0, 0, 0, 0⟩ :=
  ⟨reads_encoding _ _ _ _, by decide, by decide⟩

/-- V-E12, with a run pending: the deltas at their least. -/
theorem witness_EncoderWritesDiff :
    let e := encoding ⟨0, 0, 0, 255⟩ 61 freshCache ⟨254, 254, 254, 255⟩
    e.reads ⟨254, 254, 254, 255⟩ ∧ (⟨254, 254, 254, 255⟩ : Colour) ≠ e.prev ∧
    e.flushedCache.lookup (colourHash ⟨254, 254, 254, 255⟩) ≠ ⟨254, 254, 254, 255⟩ ∧ (255 : Byte) = e.prev.a ∧
    isPlus 254 0 (-2) :=
  ⟨reads_encoding _ _ _ _, by decide, by decide, by decide, by unfold isPlus; decide⟩

/-- V-DELTA20: all three fields at their greatest. -/
theorem witness_EncoderWritesLuma :
    let e := encoding ⟨100, 100, 100, 255⟩ 0 freshCache ⟨138, 131, 138, 255⟩
    e.reads ⟨138, 131, 138, 255⟩ ∧ (⟨138, 131, 138, 255⟩ : Colour) ≠ e.prev ∧
    e.flushedCache.lookup (colourHash ⟨138, 131, 138, 255⟩) ≠ ⟨138, 131, 138, 255⟩ ∧
    diffFits ⟨138, 131, 138, 255⟩ e.prev = false ∧ (255 : Byte) = e.prev.a ∧
    isPlus 138 100 (7 + 31) ∧ isPlus 131 100 31 :=
  ⟨reads_encoding _ _ _ _, by decide, by decide, by decide, by decide, by unfold isPlus; decide,
    by unfold isPlus; decide⟩

/-- V-DELTA18: `dr_dg = 8`. -/
theorem witness_EncoderWritesRgb :
    let e := encoding ⟨100, 100, 100, 255⟩ 0 freshCache ⟨108, 100, 100, 255⟩
    e.reads ⟨108, 100, 100, 255⟩ ∧ (⟨108, 100, 100, 255⟩ : Colour) ≠ e.prev ∧
    e.flushedCache.lookup (colourHash ⟨108, 100, 100, 255⟩) ≠ ⟨108, 100, 100, 255⟩ ∧
    diffFits ⟨108, 100, 100, 255⟩ e.prev = false ∧ lumaFits ⟨108, 100, 100, 255⟩ e.prev = false ∧
    (255 : Byte) = e.prev.a :=
  ⟨reads_encoding _ _ _ _, by decide, by decide, by decide, by decide, by decide⟩

/-- V-DELTA25: the colour deltas would fit DIFF. -/
theorem witness_EncoderWritesRgba :
    let e := encoding ⟨5, 5, 5, 255⟩ 0 freshCache ⟨6, 6, 6, 254⟩
    e.reads ⟨6, 6, 6, 254⟩ ∧ (⟨6, 6, 6, 254⟩ : Colour) ≠ e.prev ∧
    e.flushedCache.lookup (colourHash ⟨6, 6, 6, 254⟩) ≠ ⟨6, 6, 6, 254⟩ ∧ (254 : Byte) ≠ e.prev.a :=
  ⟨reads_encoding _ _ _ _, by decide, by decide, by decide⟩

theorem witness_EncoderNeverWritesZeroDeltas :
    (⟨1, 0, 0, 255⟩ : Colour) ≠ Enc.reset.prev ∧ diffFits ⟨1, 0, 0, 255⟩ Enc.reset.prev = true ∧
    lumaFits ⟨1, 0, 0, 255⟩ Enc.reset.prev = true := by decide

/-- A pixel equal to `PREV`, the 62nd of a run, and one that differs from it by one. -/
theorem witness_EncoderNeverWritesZeroDeltas_step :
    (let e := encoding ⟨0, 0, 0, 255⟩ 61 freshCache ⟨0, 0, 0, 255⟩
     e.reads ⟨0, 0, 0, 255⟩ ∧ ⟨0, 0, 0, 255⟩ = e.prev ∧ ∃ e', e.step = some e') ∧
    (let e := encoding ⟨0, 0, 0, 255⟩ 61 freshCache ⟨1, 0, 0, 255⟩
     e.reads ⟨1, 0, 0, 255⟩ ∧ (⟨1, 0, 0, 255⟩ : Colour) ≠ e.prev ∧ ∃ e', e.step = some e') :=
  ⟨⟨reads_encoding _ _ _ _, rfl, _, rfl⟩, ⟨reads_encoding _ _ _ _, by decide, _, rfl⟩⟩

theorem witness_EncoderFinishes :
    let e := { encoding ⟨0, 0, 0, 255⟩ 61 freshCache ⟨0, 0, 0, 0⟩ with phase := EncPhase.finish }
    e.phase = .finish ∧ e.outReady = true := by decide

theorem witness_RunCap : Enc.reset.run = 0 := by decide

/-- A start in each phase that accepts it and in each that does not, with a legal and an illegal Header. -/
theorem witness_EncoderStart :
    (failed [.encStart 1 1 4 0]).inputs = [.encStart 1 1 4 0] ∧ (failed [.encStart 0 1 4 0]).enc.phase = .error ∧
    State.reset.enc.phase = .idle ∧ (Enc.loaded ⟨1, 1, 4, 0⟩ []).phase = .header := by decide

theorem witness_DecoderStart :
    (failed [.decStart 0]).inputs = [.decStart 0] ∧ (failed [.decStart 0]).dec.phase = .error ∧
    State.reset.dec.phase = .idle ∧ (starting []).dec.phase = .header := by decide

/-- A reset taken in ERROR, and one taken while both engines are in a run. -/
theorem witness_HardwareReset :
    (failed [.hardReset]).inputs = .hardReset :: [] ∧
    (let s : State := ⟨Enc.loaded ⟨1, 1, 4, 0⟩ [], Dec.loaded 1 [], [.hardReset]⟩
     s.inputs = .hardReset :: [] ∧ s.enc.phase = .header ∧ s.dec.phase = .header) := by decide

/-- Runs in ERROR of both engines. -/
def bothInError : State :=
  State.engines ((Enc.fresh ⟨0, 1, 4, 0⟩ true).raise .validation) ((Dec.loaded 0 []).raise .truncated)

theorem bothInError_inv : bothInError.Inv := by
  refine ⟨⟨by decide, by decide, freshCache_sound, by decide, by decide, fun a => ?_, ?_⟩,
    ⟨by decide, by decide, freshCache_sound, by decide, by decide, by decide, fun a => ?_, ?_⟩⟩
  · simp [bothInError, State.engines, Enc.fresh, Enc.reset, Enc.raise]
  · exact ⟨rfl, rfl, rfl, rfl, rfl⟩
  · simp [bothInError, State.engines, Dec.loaded, Dec.fresh, Dec.reset, Dec.raise]
  · exact ⟨by decide, rfl, rfl, rfl⟩

/-- Runs of one pixel that both engines have DONE. -/
def bothDone : State :=
  State.engines
    { Enc.fresh ⟨1, 1, 4, 0⟩ true with
      phase := .done, pidx := 1, bout := 22, byteOut := Memory.writeMany [] 0 (List.replicate 22 0) }
    { Dec.loaded 22 [] with
      phase := .done, hdr := some ⟨1, 1, 4, 0⟩, npix := some 1, pcnt := 1, bpos := 14
      pixOut := Memory.writeColours [] 0 [⟨1, 2, 3, 4⟩] }

theorem bothDone_inv : bothDone.Inv := by
  have h0 : Memory.filledTo [] 0 := fun a => by simp
  refine ⟨⟨by decide, by decide, freshCache_sound, by decide, by decide,
      Memory.filledTo_writeMany h0 (List.replicate 22 0), ?_⟩,
    ⟨by decide, by decide, freshCache_sound, by decide, by decide, by decide,
      Memory.filledTo_writeColours [⟨1, 2, 3, 4⟩] (k := 0) h0, ?_⟩⟩
  · exact ⟨rfl, by decide, rfl, rfl, by decide⟩
  · exact ⟨⟨⟨1, 1, 4, 0⟩, by decide, rfl, rfl, by decide, rfl⟩, rfl⟩

/-- Sound states in DONE and in ERROR, and a decoder in each of the two phases before the header is parsed. -/
theorem witness_StatusReadsShowTheRegisters :
    (bothDone.Inv ∧ bothDone.decStatus.phase = .done ∧ bothDone.encStatus.phase ≠ .error) ∧
    (bothInError.Inv ∧ bothInError.decStatus.phase = .error ∧ bothInError.encStatus.phase = .error) ∧
    (starting []).decStatus.phase = .header ∧ State.reset.decStatus.phase = .idle :=
  ⟨⟨bothDone_inv, rfl, by decide⟩, ⟨bothInError_inv, rfl, rfl⟩, rfl, rfl⟩

theorem witness_ResultIsErrorOrCompleteOutput :
    (bothInError.Inv ∧ bothInError.dec.phase = .error ∧ bothInError.enc.phase = .error) ∧
    (bothDone.Inv ∧ bothDone.dec.phase = .done ∧ bothDone.enc.phase = .done) :=
  ⟨⟨bothInError_inv, rfl, rfl⟩, ⟨bothDone_inv, rfl, rfl⟩⟩

/-- Status reads of a run in TRAILER, and the code of an error (R30, R230). -/
theorem test_status :
    (trailing []).decStatus = ⟨.trailer, 0, 0, false, false, 1, 19⟩ ∧
    bothInError.decStatus = ⟨.error, 2, 0, false, false, 0, 0⟩ ∧ bothInError.encStatus = ⟨.error, 3, 0, 0⟩ := by decide

/-- The first byte, and the second pixel. -/
theorem witness_OffersArriveInOrder :
    (Memory.wf [] ∧ Memory.filledTo [] 0) ∧
    (Memory.wf [(0, 1), (1, 2), (2, 3), (3, 4)] ∧ Memory.filledTo [(0, 1), (1, 2), (2, 3), (3, 4)] (4 * 1)) := by
  refine ⟨⟨by decide, fun a => by simp⟩, by decide, fun a => ?_⟩
  simp only [Memory.read, Memory.unlisted]
  repeat' split
  all_goals simp only [Option.isSome_some, Option.isSome_none, true_iff, Bool.false_eq_true, false_iff]; omega

theorem witness_AlteredInputIsRefused :
    let s : State := ⟨Enc.loaded ⟨1, 1, 4, 0⟩ [], Dec.loaded 1 [], [.alterPixel 0 ⟨1, 1, 1, 1⟩]⟩
    s.inputs = [.alterPixel 0 ⟨1, 1, 1, 1⟩] ∧ s.enc.phase = .header ∧ s.dec.phase = .header := by decide

theorem witness_EnginesShareNothing :
    (∃ t, exec (.run 0) (decodingState 1 0 ⟨0, 0, 0, 255⟩ [0xC0]) = .next t) ∧
    (∃ t, decStep (decodingState 1 0 ⟨0, 0, 0, 255⟩ [0xC0]) = some (.next t)) ∧
    (∃ t, encStep (State.engines (Enc.loaded ⟨1, 1, 4, 0⟩ []) Dec.reset) = some (.next t)) :=
  ⟨⟨_, rfl⟩, ⟨_, rfl⟩, ⟨_, rfl⟩⟩

/-- An encoder run with its pixel offered and a decoder run without a byte offered: a sound state with a next one. -/
theorem witness_StepKeepsTheInvariant :
    let s := State.engines (Enc.loaded ⟨1, 1, 4, 0⟩ [⟨1, 2, 3, 4⟩]) (Dec.loaded 1 [])
    s.Inv ∧ ∃ t, step s = .next t := by
  refine ⟨⟨⟨by decide, by decide, freshCache_sound, by decide, by decide, fun a => ?_, ?_⟩,
    ⟨by decide, by decide, freshCache_sound, by decide, by decide, by decide, fun a => ?_, ?_⟩⟩, _, rfl⟩
  · simp [State.engines, Enc.loaded, Enc.fresh, Enc.reset]
  · exact ⟨rfl, by decide, rfl, rfl, rfl⟩
  · simp [State.engines, Dec.loaded, Dec.fresh, Dec.reset]
  · exact ⟨rfl, rfl, rfl, rfl, rfl, rfl, rfl⟩

theorem witness_LockstepOverOnePixel :
    let e := encoding ⟨0, 0, 0, 255⟩ 0 freshCache ⟨1, 1, 1, 255⟩
    let s := decodingState 1 0 ⟨0, 0, 0, 255⟩ [0x7F]
    lockstep e s.dec ∧ e.run = 0 ∧ (⟨1, 1, 1, 255⟩ : Colour) ≠ e.prev ∧ s.dec.inChunks 1 ∧
    s.dec.bpos + instrLength (.diff 3 3 3) ≤ s.dec.blen :=
  ⟨⟨rfl, rfl⟩, rfl, by decide, inChunks_decoding (by decide) _ _, by decide⟩

/-- The longest run, ending at the image's end. -/
theorem witness_LockstepOverOneRun :
    let e := encoding ⟨0, 0, 0, 255⟩ 62 freshCache ⟨1, 1, 1, 255⟩
    let s := decodingState 62 0 ⟨0, 0, 0, 255⟩ [0xFD]
    lockstep e s.dec ∧ 1 ≤ e.run ∧ e.run ≤ 62 ∧ s.dec.inChunks 62 ∧ s.dec.pcnt + e.run ≤ 62 ∧
    s.dec.bpos < s.dec.blen :=
  ⟨⟨rfl, rfl⟩, by decide, by decide, inChunks_decoding (by decide) _ _, by decide, by decide⟩

/-- The hypotheses of the two statements about encoder runs and of the round trip. -/
theorem witness_EncoderRunEnds_and_RoundTrip :
    (⟨1, 1, 3, 1⟩ : Header).valid = true ∧ [(⟨9, 9, 9, 255⟩ : Colour)].length = (⟨1, 1, 3, 1⟩ : Header).pixels := by
  decide

theorem witness_DecoderRunEnds : ([] : List Byte).length < 2 ^ 64 := by decide

end Sys2Proof.Tests
end

section
/-! SUPPORT. The encoder's invariant step by step (spec/10_state.md R22, R25, R28, R62; spec/43_encoder.md R170 to
R173, R180): what one step of the encoder can do, and that each of these moves keeps `Enc.Inv`. -/

namespace Sys2Proof.Machine

/-- R122: what writing the HEADER frame does to the encoder. -/
theorem Enc.emitHeader_eq (e : Enc) :
    ∃ bs : List Byte, bs.length = 14 ∧
      e.emitHeader = { e with byteOut := e.byteOut.writeMany e.bout bs, bout := e.bout + 14, phase := .pixels } :=
  ⟨_, rfl, by rw [Enc.emitHeader, Enc.bytesWrite_eq]; rfl⟩

/-- R180, R127: what finishing does to the encoder. -/
theorem Enc.finish_eq (e : Enc) :
    ∃ bs : List Byte, 8 ≤ bs.length ∧
      e.finish = { e with
        byteOut := e.byteOut.writeMany e.bout bs
        bout := e.bout + bs.length
        cache := e.flushedCache
        run := 0
        phase := .done } := by
  refine ⟨e.pendingBytes ++ [0, 0, 0, 0, 0, 0, 0, 1], by simp, ?_⟩
  rw [Enc.finish, Enc.emitEnd, Enc.bytesWrite_eq, Enc.flushPending_eq]
  simp only [Enc.setPhase, Memory.writeMany_append, List.length_append, Nat.add_assoc]

/-- R143: flushing the pending run keeps the cache sound. -/
theorem Enc.flushedCache_sound {e : Enc} (h : e.cache.sound) : e.flushedCache.sound := by
  unfold Enc.flushedCache
  split
  · exact h
  · exact Cache.sound_store h e.prev

/-- R171: every pixel step appends bytes to the output and changes `CACHE`, `RUN` and `PREV`; a sound cache and a
`RUN` of at most 61 stay so. -/
theorem Enc.pixelStep_appends (e : Enc) (cur : Colour) :
    ∃ (bs : List Byte) (k : Cache) (n : Nat), (e.cache.sound → k.sound) ∧ (e.run ≤ 61 → n ≤ 61) ∧
      e.pixelStep cur = { e with
        byteOut := e.byteOut.writeMany e.bout bs
        bout := e.bout + bs.length
        cache := k
        run := n
        prev := cur } := by
  by_cases hc : cur = e.prev
  · subst hc
    rw [Enc.pixelStep_prev]
    by_cases hr : e.run = 61
    · exact ⟨[0xFD], e.cache.store e.prev, 0, fun h => Cache.sound_store h _, fun _ => by omega, if_pos hr⟩
    · exact ⟨[], e.cache, e.run + 1, id, fun _ => by omega, if_neg hr⟩
  · obtain ⟨bs, -, -, hbs⟩ := e.flushPending.emitPixel_bytes cur
    exact ⟨e.pendingBytes ++ bs, e.flushedCache.store cur, 0,
      fun h => Cache.sound_store (Enc.flushedCache_sound h) cur, fun _ => by omega, Enc.pixelStep_eq hc hbs⟩

/-- R170: everything one step of the encoder can do. -/
theorem Enc.step_cases {e e' : Enc} (h : e.step = some e') :
    (e.phase = .header ∧ e' = e.emitHeader) ∨
    (∃ cur, e.phase = .pixels ∧ e.pidx < e.npix ∧
      e' = (Enc.pixelStep cur { e with pidx := e.pidx + 1 }).leavePixels) ∨
    (e.phase = .pixels ∧ e.npix ≤ e.pidx ∧ e' = e.setPhase .finish) ∨
    (e.phase = .finish ∧ e' = e.finish) := by
  unfold Enc.step at h
  cases hp : e.phase with
  | header =>
    simp only [hp, Option.ite_none_right_eq_some, Option.some.injEq] at h
    exact .inl ⟨rfl, h.2.symm⟩
  | pixels =>
    simp only [hp] at h
    by_cases hl : e.pidx < e.npix
    · cases hc : e.pixIn.readColour e.pidx with
      | none => simp only [hl, if_true, Enc.pixRead, hc, reduceCtorEq] at h
      | some cur =>
        simp only [hl, if_true, Enc.pixRead, hc, Option.ite_none_right_eq_some, Option.some.injEq] at h
        exact .inr (.inl ⟨cur, rfl, hl, hp ▸ h.2.symm⟩)
    · simp only [hl, if_false, Option.some.injEq] at h
      exact .inr (.inr (.inl ⟨rfl, Nat.le_of_not_lt hl, h.symm⟩))
  | finish =>
    simp only [hp, Option.ite_none_right_eq_some, Option.some.injEq] at h
    exact .inr (.inr (.inr ⟨rfl, h.2.symm⟩))
  | idle => simp only [hp, reduceCtorEq] at h
  | done => simp only [hp, reduceCtorEq] at h
  | error => simp only [hp, reduceCtorEq] at h

/-- R122: writing the HEADER frame keeps the invariant; at least one pixel is then to be read. -/
theorem Enc.inv_emitHeader {e : Enc} (h : e.Inv) (hp : e.phase = .header) : e.emitHeader.Inv := by
  obtain ⟨hpix, hout, hcache, hrun, hnpix, hfill, hphase⟩ := h
  simp only [Enc.phaseSound, hp] at hphase
  obtain ⟨herr, hvalid, hpidx, hbout, -⟩ := hphase
  obtain ⟨bs, hlen, heq⟩ := e.emitHeader_eq
  have hpos := Header.pixels_pos hvalid
  rw [heq]
  exact ⟨hpix, Memory.wf_writeMany bs hout _, hcache, hrun, hnpix, hlen ▸ Memory.filledTo_writeMany hfill bs,
    herr, hvalid, by simp only; omega, by simp only; omega⟩

/-- R171: a pixel step keeps the invariant, whether it stays in PIXELS or leaves for FINISH. -/
theorem Enc.inv_pixelStep {e : Enc} (h : e.Inv) (hp : e.phase = .pixels) (hl : e.pidx < e.npix) (cur : Colour) :
    (Enc.pixelStep cur { e with pidx := e.pidx + 1 }).leavePixels.Inv := by
  obtain ⟨hpix, hout, hcache, hrun, hnpix, hfill, hphase⟩ := h
  simp only [Enc.phaseSound, hp] at hphase
  obtain ⟨herr, hvalid, -, hbout⟩ := hphase
  obtain ⟨bs, k, n, hk, hn, heq⟩ := Enc.pixelStep_appends { e with pidx := e.pidx + 1 } cur
  rw [heq, Enc.leavePixels_eq]
  refine ⟨hpix, Memory.wf_writeMany bs hout _, hk hcache, hn hrun, hnpix, Memory.filledTo_writeMany hfill bs, ?_⟩
  by_cases hmore : e.pidx + 1 < e.npix
  · simp only [Enc.phaseSound, hmore, if_true, hp]
    exact ⟨herr, hvalid, trivial, by omega⟩
  · simp only [Enc.phaseSound, hmore, if_false]
    exact ⟨herr, hvalid, by omega, by omega⟩

/-- R180: finishing keeps the invariant. -/
theorem Enc.inv_finish {e : Enc} (h : e.Inv) (hp : e.phase = .finish) : e.finish.Inv := by
  obtain ⟨hpix, hout, hcache, -, hnpix, hfill, hphase⟩ := h
  simp only [Enc.phaseSound, hp] at hphase
  obtain ⟨herr, hvalid, hpidx, hbout⟩ := hphase
  obtain ⟨bs, hlen, heq⟩ := e.finish_eq
  rw [heq]
  exact ⟨hpix, Memory.wf_writeMany bs hout _, Enc.flushedCache_sound hcache, Nat.zero_le 61, hnpix,
    Memory.filledTo_writeMany hfill bs, herr, hvalid, hpidx, rfl, by simp only; omega⟩

/-- R170: every step of the encoder keeps its invariant. -/
theorem Enc.inv_step {e e' : Enc} (h : e.Inv) (hs : e.step = some e') : e'.Inv := by
  rcases Enc.step_cases hs with ⟨hp, rfl⟩ | ⟨cur, hp, hl, rfl⟩ | ⟨hp, hl, rfl⟩ | ⟨hp, rfl⟩
  · exact Enc.inv_emitHeader h hp
  · exact Enc.inv_pixelStep h hp hl cur
  · obtain ⟨-, -, -, -, -, -, hphase⟩ := h
    simp only [Enc.phaseSound, hp] at hphase
    obtain ⟨-, -, hlt, -⟩ := hphase
    omega
  · exact Enc.inv_finish h hp

/-- The acceptance flag is the host's; the invariant does not speak of it. -/
theorem Enc.inv_outReady {e : Enc} (h : e.Inv) (ready : Bool) : Enc.Inv { e with outReady := ready } := h

/-- The invariant asks of the input pixels only that they are held in canonical form. -/
theorem Enc.inv_pixIn {e : Enc} (h : e.Inv) {m : Memory} (hm : m.wf) : Enc.Inv { e with pixIn := m } := by
  obtain ⟨-, hrest⟩ := h
  exact ⟨hm, hrest⟩

/-- An empty stream is filled up to 0. -/
theorem Memory.filledTo_nil : Memory.filledTo [] 0 := fun a => by simp

/-- R260: the encoder after hardware reset meets the invariant. -/
theorem Enc.inv_reset : Enc.reset.Inv :=
  ⟨Memory.wf_nil, Memory.wf_nil, freshCache_sound, Nat.zero_le 61, rfl, Memory.filledTo_nil, rfl, rfl, rfl, rfl⟩

/-- R34, R120: `ENC.START` keeps the invariant, accepted or not, the Header valid or not. -/
theorem Enc.inv_start {e : Enc} (h : e.Inv) (hd : Header) : (e.start hd).Inv := by
  unfold Enc.start
  split
  · split
    · next hv =>
      exact ⟨Memory.wf_nil, Memory.wf_nil, freshCache_sound, Nat.zero_le 61, rfl, Memory.filledTo_nil,
        rfl, hv, rfl, rfl, rfl⟩
    · next hv =>
      exact ⟨Memory.wf_nil, Memory.wf_nil, freshCache_sound, Nat.zero_le 61, rfl, Memory.filledTo_nil,
        rfl, Bool.eq_false_iff.mpr hv, rfl, rfl, rfl⟩
  · exact h

end Sys2Proof.Machine
end

section
/-! SUPPORT. What the decoder can do in one step, and its invariant (spec/10_state.md R23, R27, R28, R35;
spec/44_decoder.md R201, R208 to R213; spec/40_header_framer.md R123 to R129): the instructions sorted by the shared operation they run,
the moves of the fetch that execute nothing, and that each of these keeps `Dec.Inv`. -/

namespace Sys2Proof.Machine

/-! ### The instructions by the operation they run -/

/-- R201, R209: every chunk but RUN produces one pixel, a function of the decoder past the chunk's bytes. -/
theorem exec_chunk_cases {i : Instr} (h : placeOf i = .chunk) :
    (∃ px : Dec → Colour, ∀ s : State,
      exec i s = .next (s.setDec (s.dec.chunk (instrLength i) fun d => d.single (px d)))) ∨
    (∃ n1, i = .run n1) := by
  cases i with
  | rgba r g b a => exact .inl ⟨fun _ => ⟨r, g, b, a⟩, fun _ => rfl⟩
  | rgb r g b => exact .inl ⟨fun d => ⟨r, g, b, d.prev.a⟩, fun _ => rfl⟩
  | index k => exact .inl ⟨fun d => d.cache.lookup k, fun _ => rfl⟩
  | diff fr fg fb =>
    exact .inl ⟨fun d => diffApply d.prev (unbias 2 fr.toNat) (unbias 2 fg.toNat) (unbias 2 fb.toNat), fun _ => rfl⟩
  | luma fg frg fbg =>
    exact .inl ⟨fun d => lumaApply d.prev (unbias 32 fg.toNat) (unbias 8 frg.toNat) (unbias 8 fbg.toNat),
      fun _ => rfl⟩
  | run n1 => exact .inr ⟨n1, rfl⟩
  | header w h ch cs => cases h
  | endMarker => cases h

/-- R208: RUN repeats `PREV` in the frame of a chunk of one byte. -/
theorem exec_run (n1 : BitVec 6) (s : State) :
    exec (.run n1) s = .next (s.setDec (s.dec.chunk 1 (Dec.repeatPrev (runLength n1)))) := rfl

/-- R101: a run length is at least 1. -/
theorem runLength_pos (n1 : BitVec 6) : 0 < runLength n1 := Nat.succ_pos _

/-! ### The moves of the fetch that execute nothing -/

/-- R213: reading to the end of the stream and one byte further, as reading the bytes left and raising. -/
theorem Dec.truncate_eq_raise {d : Dec} (h : d.bpos ≤ d.blen) :
    d.truncate = (d.advance (d.blen - d.bpos)).raise .truncated := by
  simp only [Dec.truncate, Dec.raise, Dec.advance, Nat.add_sub_cancel' h]

/-- R106: a HEADER frame that does not decode is truncated or has another magic; the trailer's refusal is not its. -/
theorem decodeHeader_ne_badEndMarker (bs : List Byte) : decodeHeader bs ≠ .error .badEndMarker := by
  unfold decodeHeader
  split
  · simp
  · split
    · simp
    · split <;> simp

/-- R108: a chunk that does not decode is truncated. -/
theorem decodeChunk_ne_badEndMarker (bs : List Byte) : decodeChunk bs ≠ .error .badEndMarker := by
  cases bs with
  | nil => simp [decodeChunk]
  | cons b1 rest =>
    simp only [decodeChunk]
    split
    · simp
    · simp
    · simp
    · split <;> simp
    · split <;> simp
    · split <;> simp

/-- R230: every refusal but the trailer's raises an error. -/
theorem errorOf_ne_none {x : DecodeError} (h : x ≠ .badEndMarker) : errorOf x ≠ .none := by
  cases x with
  | truncated => simp [errorOf]
  | badMagic => simp [errorOf]
  | badEndMarker => exact absurd rfl h

/-- R234: the decoder `d'` is `d` after it has read some bytes within `BLEN` and has raised an error. -/
def Dec.raisedWhileReading (d d' : Dec) : Prop :=
  ∃ (n : Nat) (k : ErrKind), d.bpos + n ≤ d.blen ∧ k ≠ .none ∧ d' = (d.advance n).raise k

theorem Dec.raisedWhileReading_truncate {d : Dec} (h : d.bpos ≤ d.blen) : d.raisedWhileReading d.truncate :=
  ⟨d.blen - d.bpos, .truncated, by omega, by simp, Dec.truncate_eq_raise h⟩

/-- Reading on after bytes were read is reading from the start. -/
theorem Dec.raisedWhileReading_of_advance {d d' : Dec} {m : Nat} (h : (d.advance m).raisedWhileReading d') :
    d.raisedWhileReading d' := by
  obtain ⟨n, k, hn, hk, rfl⟩ := h
  exact ⟨m + n, k, by simpa [Nat.add_assoc] using hn, hk, by rw [Dec.advance_advance]⟩

/-- R123, R124: a move in HEADER that executes nothing raises an error while reading. -/
theorem Dec.fetchHeader_moved {d d' : Dec} (hb : d.bpos ≤ d.blen) (h : d.fetchHeader = .moved d') :
    d.raisedWhileReading d' := by
  unfold Dec.fetchHeader at h
  rcases d.readBytes_cases 4 hb with ⟨m, h4, -, hr⟩ | ⟨-, -, hr⟩ | ⟨-, hr⟩
  · simp only [hr] at h
    by_cases hm : m ≠ Config.magic
    · rw [if_pos hm] at h
      obtain rfl := Fetch.moved.inj h
      exact ⟨4, .format, h4, by simp, rfl⟩
    · rw [if_neg hm] at h
      apply Dec.raisedWhileReading_of_advance (m := 4)
      rcases (d.advance 4).readBytes_cases 10 (by simpa using h4) with ⟨r, h10, -, hr'⟩ | ⟨-, -, hr'⟩ | ⟨-, hr'⟩
      · simp only [hr'] at h
        split at h
        · cases h
        · next x hx =>
          obtain rfl := Fetch.moved.inj h
          have hx' : x ≠ .badEndMarker := fun hbad => decodeHeader_ne_badEndMarker (m ++ r) (hbad ▸ hx)
          exact ⟨10, errorOf x, h10, errorOf_ne_none hx', rfl⟩
      · simp only [hr', Fetch.moved.injEq] at h
        exact h ▸ Dec.raisedWhileReading_truncate (by simpa using h4)
      · simp only [hr', reduceCtorEq] at h
  · simp only [hr, Fetch.moved.injEq] at h
    exact h ▸ Dec.raisedWhileReading_truncate hb
  · simp only [hr, reduceCtorEq] at h

/-- R201, R213, R28: a move in CHUNKS that executes nothing raises an error while reading, or leaves the phase with no
pixel owed. -/
theorem Dec.fetchChunk_moved {d d' : Dec} (hb : d.bpos ≤ d.blen) (h : d.fetchChunk = .moved d') :
    d.raisedWhileReading d' ∨ (d.owes = false ∧ d' = d.setPhase .trailer) := by
  unfold Dec.fetchChunk at h
  by_cases ho : d.owes = true
  · rw [if_pos ho] at h
    left
    rcases d.byteRead_cases with ⟨hl, hr⟩ | ⟨-, -, hr⟩ | ⟨b1, hl, -, hr⟩
    · simp only [hr, Fetch.moved.injEq] at h
      exact ⟨0, .truncated, hb, by simp, h.symm⟩
    · simp only [hr, reduceCtorEq] at h
    · simp only [hr] at h
      apply Dec.raisedWhileReading_of_advance (m := 1)
      rcases (d.advance 1).readBytes_cases (chunkLength b1 - 1) (by simpa using hl) with
        ⟨r, hn, -, hr'⟩ | ⟨-, -, hr'⟩ | ⟨-, hr'⟩
      · simp only [hr'] at h
        split at h
        · split at h
          · cases h
          · next x hx =>
            obtain rfl := Fetch.moved.inj h
            have hx' : x ≠ .badEndMarker := fun hbad => decodeChunk_ne_badEndMarker (b1 :: r) (hbad ▸ hx)
            exact ⟨_, errorOf x, hn, errorOf_ne_none hx', rfl⟩
        · cases h
      · simp only [hr', Fetch.moved.injEq] at h
        exact h ▸ Dec.raisedWhileReading_truncate (by simpa using hl)
      · simp only [hr', reduceCtorEq] at h
  · rw [if_neg ho] at h
    split at h
    · exact .inr ⟨Bool.eq_false_iff.mpr ho, (Fetch.moved.inj h).symm⟩
    · cases h

/-- R28: where the decoder can move without executing an instruction. -/
theorem Dec.fetch_moved {d d' : Dec} (hb : d.bpos ≤ d.blen) (h : d.fetch = .moved d') :
    ((d.phase = .header ∨ d.phase = .chunks) ∧ d.raisedWhileReading d') ∨
    (d.phase = .chunks ∧ d.owes = false ∧ d' = d.setPhase .trailer) := by
  unfold Dec.fetch at h
  cases hp : d.phase with
  | header =>
    simp only [hp] at h
    exact .inl ⟨.inl rfl, Dec.fetchHeader_moved hb h⟩
  | chunks =>
    simp only [hp] at h
    rcases Dec.fetchChunk_moved hb h with hr | ⟨ho, rfl⟩
    · exact .inl ⟨.inr rfl, hr⟩
    · exact .inr ⟨rfl, ho, rfl⟩
  | trailer =>
    simp only [hp, Dec.fetchTrailer] at h
    split at h <;> cases h
  | idle => simp only [hp, reduceCtorEq] at h
  | done => simp only [hp, reduceCtorEq] at h
  | error => simp only [hp, reduceCtorEq] at h

/-- A decoder step executes an instruction, or is a move of the fetch. -/
theorem decStep_cases {s : State} {o : Host.Outcome State Fault Refusal} (h : decStep s = some o) :
    (∃ i, s.dec.fetch = .run i ∧ exec i s = o) ∨ (∃ d, s.dec.fetch = .moved d ∧ o = .next (s.setDec d)) := by
  unfold decStep at h
  cases hf : s.dec.fetch with
  | run i =>
    simp only [hf, Option.some.injEq] at h
    exact .inl ⟨i, rfl, h⟩
  | moved d =>
    simp only [hf, Option.some.injEq] at h
    exact .inr ⟨d, rfl, h.symm⟩
  | idle => simp only [hf, reduceCtorEq] at h

/-! ### The invariant without its phase -/

/-- The clauses of `Dec.Inv` that do not depend on the phase. -/
def Dec.DataInv (d : Dec) : Prop :=
  d.byteIn.wf ∧ d.pixOut.wf ∧ d.cache.sound ∧ d.rrem = 0 ∧ d.bpos ≤ d.blen ∧ d.blen < 2 ^ 64 ∧
    d.pixOut.filledTo (4 * d.pcnt)

/-- The invariant is its data clauses and the clause of the phase. -/
theorem Dec.inv_iff (d : Dec) : d.Inv ↔ d.DataInv ∧ d.phaseSound := by
  simp only [Dec.Inv, Dec.DataInv, and_assoc]

theorem Dec.DataInv.bpos_le {d : Dec} (h : d.DataInv) : d.bpos ≤ d.blen := by
  obtain ⟨-, -, -, -, hb, -, -⟩ := h
  exact hb

/-- R27: moving past bytes within `BLEN` keeps the data clauses. -/
theorem Dec.DataInv.advance {d : Dec} (h : d.DataInv) {n : Nat} (hn : d.bpos + n ≤ d.blen) :
    (d.advance n).DataInv := by
  obtain ⟨hin, hout, hcache, hrrem, -, hblen, hfill⟩ := h
  exact ⟨hin, hout, hcache, hrrem, hn, hblen, hfill⟩

/-- R63: a pixel buffer filled up to pixel `k` is filled one pixel further by writing that pixel. -/
theorem Memory.filledTo_writeColour {m : Memory} {k : Nat} (h : m.filledTo (4 * k)) (c : Colour) :
    (m.writeColour k c).filledTo (4 * (k + 1)) := Memory.filledTo_writeColours [c] h

/-- R235: an errored decoder is sound if its data clauses hold, it has an error and it had no warning. -/
theorem Dec.inv_raise {d : Dec} {k : ErrKind} (h : d.DataInv) (hk : k ≠ .none) (hm : d.endMismatch = false)
    (hc : d.runClip = false) : (d.raise k).Inv :=
  (Dec.inv_iff _).mpr ⟨h, hk, rfl, hm, hc⟩

/-- R129, R212: no warning has been given before TRAILER. -/
theorem Dec.no_warning_of_phaseSound {d : Dec} (h : d.phaseSound) (hp : d.phase = .header ∨ d.phase = .chunks) :
    d.endMismatch = false ∧ d.runClip = false := by
  rcases hp with hp | hp
  · simp only [Dec.phaseSound, hp] at h
    obtain ⟨-, -, -, -, -, hm, hc⟩ := h
    exact ⟨hm, hc⟩
  · simp only [Dec.phaseSound, hp] at h
    obtain ⟨-, -, hm, hc⟩ := h
    exact ⟨hm, hc⟩

/-- R234, R235: an error raised while reading HEADER or CHUNKS leaves a sound decoder. -/
theorem Dec.inv_raisedWhileReading {d d' : Dec} (h : d.Inv) (hp : d.phase = .header ∨ d.phase = .chunks)
    (hr : d.raisedWhileReading d') : d'.Inv := by
  obtain ⟨hdata, hphase⟩ := (Dec.inv_iff d).mp h
  obtain ⟨hm, hc⟩ := Dec.no_warning_of_phaseSound hphase hp
  obtain ⟨n, k, hn, hk, rfl⟩ := hr
  exact Dec.inv_raise (hdata.advance hn) hk hm hc

/-- R213: so does a truncation. -/
theorem Dec.inv_truncate {d : Dec} (h : d.Inv) (hp : d.phase = .header ∨ d.phase = .chunks) : d.truncate.Inv :=
  Dec.inv_raisedWhileReading h hp (Dec.raisedWhileReading_truncate ((Dec.inv_iff d).mp h).1.bpos_le)

/-! ### The instructions keep the invariant -/

/-- A sound decoder in its chunk loop has parsed a Header whose pixel count is its `NPIX`, and has given no warning. -/
theorem Dec.parsed_of_inChunks {d : Dec} {n : Nat} (h : d.phaseSound) (hn : d.inChunks n) :
    d.parsed ∧ d.npix = some n ∧ d.pcnt < n ∧ d.endMismatch = false ∧ d.runClip = false := by
  obtain ⟨hp, hnpix, hlt⟩ := hn
  simp only [Dec.phaseSound, hp] at h
  obtain ⟨hparsed, -, hm, hc⟩ := h
  exact ⟨hparsed, hnpix, hlt, hm, hc⟩

/-- R27: a parsed decoder stays parsed when its position, count, pixels, cache, `RREM`, warning and phase change. -/
theorem Dec.parsed_of_eq {d d' : Dec} (h : d.parsed) (hhdr : d'.hdr = d.hdr) (hnpix : d'.npix = d.npix)
    (hbpos : d.bpos ≤ d'.bpos) (herr : d'.err = d.err) : d'.parsed := by
  obtain ⟨hd, hv, h1, h2, h3, h4⟩ := h
  exact ⟨hd, hv, hhdr.trans h1, hnpix.trans h2, h3.trans hbpos, herr.trans h4⟩

/-- R209, R201: producing one pixel keeps the invariant. -/
theorem Dec.inv_produced {d : Dec} {n len : Nat} (h : d.Inv) (hn : d.inChunks n) (hl : d.bpos + len ≤ d.blen)
    (px : Colour) : (d.produced len px).Inv := by
  obtain ⟨⟨hin, hout, hcache, hrrem, -, hblen, hfill⟩, hphase⟩ := (Dec.inv_iff d).mp h
  obtain ⟨hparsed, hnpix, hlt, hm, hc⟩ := Dec.parsed_of_inChunks hphase hn
  refine (Dec.inv_iff _).mpr ⟨⟨hin, Memory.wf_writeColour hout _ px, Cache.sound_store hcache px, hrrem, hl, hblen,
    Memory.filledTo_writeColour hfill px⟩, ?_⟩
  have hparsed' : (d.produced len px).parsed :=
    Dec.parsed_of_eq hparsed rfl rfl (Nat.le_add_right _ _) rfl
  by_cases hlast : d.npix = some (d.pcnt + 1)
  · have hphase' : (d.produced len px).phase = .trailer := if_pos hlast
    simp only [Dec.phaseSound, hphase']
    exact ⟨hparsed', hlast, hm⟩
  · have hphase' : (d.produced len px).phase = .chunks := if_neg hlast
    have howes : (d.produced len px).owes = true := by
      rw [hnpix, Option.some.injEq] at hlast
      exact (Dec.owes_iff (d := d.produced len px) hnpix).mpr (show d.pcnt + 1 < n by omega)
    simp only [Dec.phaseSound, hphase']
    exact ⟨hparsed', howes, hm, hc⟩

/-- R208, R212, R201: repeating `PREV` keeps the invariant; a clipped run ends in TRAILER. -/
theorem Dec.inv_repeatPrev {d : Dec} {n len k : Nat} (h : d.Inv) (hn : d.inChunks n) (hl : d.bpos + len ≤ d.blen)
    (hk : 0 < k) : (Dec.repeatPrev k (d.advance len)).leaveChunks.Inv := by
  obtain ⟨⟨hin, hout, hcache, -, -, hblen, hfill⟩, hphase⟩ := (Dec.inv_iff d).mp h
  obtain ⟨hparsed, hnpix, hlt, hm, hc⟩ := Dec.parsed_of_inChunks hphase hn
  have hfill' := Memory.filledTo_writeColours (List.replicate (min k (n - d.pcnt)) d.prev) hfill
  rw [List.length_replicate] at hfill'
  rw [Dec.repeatPrev_leaveChunks hn len hk]
  refine (Dec.inv_iff _).mpr ⟨⟨hin, Memory.wf_writeColours _ hout _, Cache.sound_store hcache _, rfl, hl, hblen,
    hfill'⟩, ?_⟩
  by_cases hend : n ≤ d.pcnt + k
  · simp only [Dec.phaseSound, hend, if_true]
    refine ⟨Dec.parsed_of_eq hparsed rfl rfl (Nat.le_add_right _ _) rfl, hnpix.trans (congrArg some ?_), hm⟩
    omega
  · simp only [Dec.phaseSound, hend, if_false]
    refine ⟨Dec.parsed_of_eq hparsed rfl rfl (Nat.le_add_right _ _) rfl, ?_, hm, ?_⟩
    · simp only [Dec.owes, hnpix, decide_eq_true_eq]
      omega
    · simp only [hc, Bool.false_or, decide_eq_false_iff_not]
      omega

/-- R201, R213, R211: a chunk keeps the invariant if its work does where it fires. -/
theorem Dec.inv_chunk {d : Dec} (h : d.Inv) {len : Nat} {act : Dec → Dec}
    (hact : ∀ n, d.inChunks n → d.bpos + len ≤ d.blen → (act (d.advance len)).leaveChunks.Inv) :
    (d.chunk len act).Inv := by
  rcases d.chunk_cases len act with ⟨n, hn, hl, heq⟩ | ⟨n, hn, -, heq⟩ | ⟨-, heq⟩
  · exact heq ▸ hact n hn hl
  · exact heq ▸ Dec.inv_truncate h (.inr hn.1)
  · exact heq.symm ▸ h

/-- R123, R125: taking a Header in PHASE = HEADER keeps the invariant, the Header valid or not. -/
theorem Dec.inv_takeHeader {d : Dec} (h : d.Inv) (hp : d.phase = .header) (hl : d.bpos + 14 ≤ d.blen) (hd : Header) :
    ((d.advance 14).takeHeader hd).Inv := by
  obtain ⟨hdata, hphase⟩ := (Dec.inv_iff d).mp h
  have hdata' := hdata.advance hl
  simp only [Dec.phaseSound, hp] at hphase
  obtain ⟨herr, -, -, hpcnt, hbpos, hm, hc⟩ := hphase
  unfold Dec.takeHeader
  split
  · next hv =>
    have hpos : d.pcnt < hd.pixels := hpcnt ▸ Header.pixels_pos hv
    exact (Dec.inv_iff _).mpr
      ⟨hdata', ⟨hd, hv, rfl, rfl, Nat.le_add_left 14 _, herr⟩, (Dec.owes_iff rfl).mpr hpos, hm, hc⟩
  · exact Dec.inv_raise (d := { d.advance 14 with hdr := some hd }) hdata' (by simp) hm hc

/-- R129: the trailer check keeps the invariant. -/
theorem Dec.inv_checkTrailer {d : Dec} (h : d.Inv) (hp : d.phase = .trailer) (t : List Byte) :
    (d.checkTrailer t).Inv := by
  obtain ⟨⟨hin, hrest⟩, hphase⟩ := (Dec.inv_iff d).mp h
  simp only [Dec.phaseSound, hp] at hphase
  obtain ⟨hparsed, hnpix, -⟩ := hphase
  exact (Dec.inv_iff _).mpr ⟨⟨Memory.wf_dropRange hin _ _, hrest⟩, hparsed, hnpix⟩

/-- Executing any instruction in any sound state, fired or not, leaves a sound decoder. -/
theorem dec_inv_exec {s t : State} {i : Instr} (h : s.dec.Inv) (hx : exec i s = .next t) : t.dec.Inv := by
  by_cases hc : placeOf i = .chunk
  · rcases exec_chunk_cases hc with ⟨px, hpx⟩ | ⟨n1, rfl⟩
    · rw [hpx s] at hx
      obtain rfl := Host.Outcome.next.inj hx
      refine Dec.inv_chunk h fun n hn hl => ?_
      rw [Dec.single_leaveChunks hn]
      exact Dec.inv_produced h hn hl _
    · obtain rfl := Host.Outcome.next.inj hx
      exact Dec.inv_chunk h fun n hn hl => Dec.inv_repeatPrev h hn hl (runLength_pos n1)
  · cases i with
    | header w hh ch cs =>
      obtain rfl := Host.Outcome.next.inj hx
      rw [State.setDec_dec]
      split
      · next hp =>
        split
        · next hl => exact Dec.inv_takeHeader h hp hl _
        · exact Dec.inv_truncate h (.inl hp)
      · exact h
    | endMarker =>
      obtain rfl := Host.Outcome.next.inj hx
      rw [State.setDec_dec]
      split
      · next T hp _ => exact Dec.inv_checkTrailer h hp T
      · exact h
    | _ => exact absurd rfl hc

/-- R201: every step of the decoder leaves a sound decoder. -/
theorem dec_inv_decStep {s t : State} (h : s.dec.Inv) (hs : decStep s = some (.next t)) : t.dec.Inv := by
  rcases decStep_cases hs with ⟨i, -, hx⟩ | ⟨d, hf, heq⟩
  · exact dec_inv_exec h hx
  · obtain rfl := Host.Outcome.next.inj heq
    obtain ⟨hdata, hphase⟩ := (Dec.inv_iff s.dec).mp h
    rcases Dec.fetch_moved hdata.bpos_le hf with ⟨hp, hr⟩ | ⟨hp, ho, -⟩
    · exact Dec.inv_raisedWhileReading h hp hr
    · simp only [Dec.phaseSound, hp] at hphase
      obtain ⟨-, ho', -, -⟩ := hphase
      rw [ho] at ho'
      cases ho'

/-! ### What the host does to the decoder -/

/-- The acceptance flag is the host's; the invariant does not speak of it. -/
theorem Dec.inv_outReady {d : Dec} (h : d.Inv) (ready : Bool) : Dec.Inv { d with outReady := ready } := h

/-- The invariant asks of the input bytes only that they are held in canonical form. -/
theorem Dec.inv_byteIn {d : Dec} (h : d.Inv) {m : Memory} (hm : m.wf) : Dec.Inv { d with byteIn := m } := by
  obtain ⟨-, hrest⟩ := h
  exact ⟨hm, hrest⟩

/-- R260: the decoder after hardware reset meets the invariant. -/
theorem Dec.inv_reset : Dec.reset.Inv :=
  ⟨Memory.wf_nil, Memory.wf_nil, freshCache_sound, rfl, Nat.le_refl 0, Nat.two_pow_pos 64, Memory.filledTo_nil,
    rfl, rfl, rfl, rfl, rfl⟩

/-- R34: `DEC.START` keeps the invariant, accepted or not. -/
theorem Dec.inv_start {d : Dec} (h : d.Inv) {blen : Nat} (hb : blen < 2 ^ 64) : (d.start blen).Inv := by
  unfold Dec.start
  split
  · exact ⟨Memory.wf_nil, Memory.wf_nil, freshCache_sound, rfl, Nat.zero_le _, hb, Memory.filledTo_nil,
      rfl, rfl, rfl, rfl, rfl, rfl, rfl⟩
  · exact h

end Sys2Proof.Machine
end

section
/-! SUPPORT. One step of the machine (spec/10_state.md R28, R35, R268): what a step of an engine leaves of the other
one, which instruction the fetch gives for bytes that are offered, and the invariant of the whole machine. -/

namespace Sys2Proof.Machine

/-! ### The engines share nothing -/

/-- R35: executing an instruction leaves the encoder, and does the same beside any other encoder. -/
theorem exec_beside_enc {i : Instr} {s t : State} (h : exec i s = .next t) (e : Enc) :
    t.enc = s.enc ∧ exec i { s with enc := e } = .next { t with enc := e } := by
  obtain ⟨f, hf⟩ := exec_dec i
  rw [hf s] at h
  obtain rfl := Host.Outcome.next.inj h
  exact ⟨rfl, hf _⟩

/-- R28: the decoder executes the instruction that the fetch gives. -/
theorem decStep_of_run {s : State} {i : Instr} (h : s.dec.fetch = .run i) : decStep s = some (exec i s) := by
  simp only [decStep, h]

/-- R28: the decoder makes the move that the fetch gives. -/
theorem decStep_of_moved {s : State} {d : Dec} (h : s.dec.fetch = .moved d) :
    decStep s = some (.next (s.setDec d)) := by
  simp only [decStep, h]

/-- R35: a decoder step leaves the encoder, and does the same beside any other encoder. -/
theorem decStep_beside_enc {s t : State} (h : decStep s = some (.next t)) (e : Enc) :
    t.enc = s.enc ∧ decStep { s with enc := e } = some (.next { t with enc := e }) := by
  rcases decStep_cases h with ⟨i, hf, hx⟩ | ⟨d, hf, heq⟩
  · obtain ⟨henc, hx'⟩ := exec_beside_enc hx e
    exact ⟨henc, hx' ▸ decStep_of_run hf⟩
  · obtain rfl := Host.Outcome.next.inj heq
    exact ⟨rfl, decStep_of_moved hf⟩

/-- A step of the encoder engine is the machine with the encoder so moved. -/
theorem encStep_of_step {s : State} {e : Enc} (h : s.enc.step = some e) : encStep s = some (.next (s.setEnc e)) := by
  simp only [encStep, h]

/-- A step of the encoder engine is nothing else. -/
theorem encStep_cases {s : State} {o : Host.Outcome State Fault Refusal} (h : encStep s = some o) :
    ∃ e, s.enc.step = some e ∧ o = .next (s.setEnc e) := by
  cases he : s.enc.step with
  | none => simp only [encStep, he, reduceCtorEq] at h
  | some e =>
    rw [encStep_of_step he] at h
    exact ⟨e, rfl, (Option.some.inj h).symm⟩

/-- R35: an encoder step leaves the decoder, and does the same beside any other decoder. -/
theorem encStep_beside_dec {s t : State} (h : encStep s = some (.next t)) (d : Dec) :
    t.dec = s.dec ∧ encStep { s with dec := d } = some (.next { t with dec := d }) := by
  obtain ⟨e, he, heq⟩ := encStep_cases h
  obtain rfl := Host.Outcome.next.inj heq
  exact ⟨rfl, encStep_of_step he⟩

/-! ### What a step of the machine is -/

/-- A pending input is taken before the engines move (log 8). -/
theorem step_of_input {s : State} {x : Input} {rest : List Input} (h : s.inputs = x :: rest) :
    step s = hostInput x (s.setInputs rest) := by
  simp only [step, h]

/-- With nothing pending the decoder moves if it can (log 9). -/
theorem step_of_decStep {s : State} {o : Host.Outcome State Fault Refusal} (hi : s.inputs = [])
    (h : decStep s = some o) : step s = o := by
  simp only [step, hi, enginesStep, h]

/-- With nothing pending and no step of the decoder, the encoder moves if it can. -/
theorem step_of_encStep {s : State} {o : Host.Outcome State Fault Refusal} (hi : s.inputs = [])
    (hd : decStep s = none) (h : encStep s = some o) : step s = o := by
  simp only [step, hi, enginesStep, hd, h, Option.getD_some]

/-- R28: with nothing pending, a step executes the instruction that the fetch gives. -/
theorem step_of_run {s : State} {i : Instr} (hi : s.inputs = []) (h : s.dec.fetch = .run i) : step s = exec i s :=
  step_of_decStep hi (decStep_of_run h)

/-- R268: what the engines can do in a step: one of them moves, or nothing changes. -/
theorem enginesStep_cases {s t : State} (h : enginesStep s = .next t) :
    decStep s = some (.next t) ∨ encStep s = some (.next t) ∨ t = s := by
  unfold enginesStep at h
  cases hd : decStep s with
  | some o =>
    simp only [hd] at h
    exact .inl (congrArg some h)
  | none =>
    cases he : encStep s with
    | some o =>
      simp only [hd, he, Option.getD_some] at h
      exact .inr (.inl (congrArg some h))
    | none =>
      simp only [hd, he, Option.getD_none, Host.Outcome.next.injEq] at h
      exact .inr (.inr h.symm)

/-! ### Which instruction the fetch gives -/

/-- R99: bytes that decode as a HEADER frame begin with the magic, and the instruction is a HEADER. -/
theorem decodeHeader_ok {bs rest : List Byte} {i : Instr} (h : decodeHeader bs = .ok (i, rest)) :
    bs.take 4 = Config.magic ∧ ∃ w hh ch cs, i = .header w hh ch cs := by
  unfold decodeHeader at h
  split at h
  · cases h
  · split at h
    · cases h
    · next hm =>
      split at h
      · cases h
        exact ⟨not_not.mp hm, _, _, _, _, rfl⟩
      · cases h

/-- R92: bytes that are exactly one chunk are as many as their first byte says. -/
theorem decodeChunk_ok_length {bs : List Byte} {i : Instr} (h : decodeChunk bs = .ok (i, [])) :
    ∃ b1 r, bs = b1 :: r ∧ r.length = chunkLength b1 - 1 := by
  cases bs with
  | nil => cases h
  | cons b1 r =>
    refine ⟨b1, r, rfl, ?_⟩
    simp only [decodeChunk] at h
    unfold chunkLength
    cases hk : classify b1 <;> simp only [hk] at h ⊢
    case index | diff | run => cases h; rfl
    case luma | rgb | rgba =>
      split at h
      · cases h; rfl
      · cases h

/-- R100: bytes that decode as the END frame are its eight bytes. -/
theorem decodeEnd_ok {bs rest : List Byte} {i : Instr} (h : decodeEnd bs = .ok (i, rest)) :
    i = .endMarker := by
  unfold decodeEnd at h
  split at h
  · cases h; rfl
  · cases h

/-- R123: in HEADER the fetch gives the instruction that the bytes offered decode to. -/
theorem Dec.fetch_header {d : Dec} {i : Instr} {bs : List Byte} (hp : d.phase = .header)
    (hl : d.bpos + instrLength i ≤ d.blen) (hb : d.byteIn.readMany d.bpos (instrLength i) = some bs)
    (hd : decode .frameStart bs = .ok (i, [])) : d.fetch = .run i := by
  obtain ⟨hmagic, w, hh, ch, cs, rfl⟩ := decodeHeader_ok hd
  change d.bpos + 14 ≤ d.blen at hl
  obtain ⟨hb4, hb10⟩ := Memory.readMany_split (x := 4) (y := 10) hb
  have hr4 : d.readBytes 4 = .got (bs.take 4) (d.advance 4) :=
    Dec.readBytes_of_readMany 4 d _ (by omega) hb4
  have hr10 : (d.advance 4).readBytes 10 = .got (bs.drop 4) ((d.advance 4).advance 10) :=
    Dec.readBytes_of_readMany 10 (d.advance 4) _ (by simp only [Dec.advance_bpos, Dec.advance_blen]; omega) hb10
  simp only [Dec.fetch, hp, Dec.fetchHeader, hr4, hmagic, ne_eq, not_true_eq_false, if_false, hr10]
  rw [← hmagic, List.take_append_drop, hd]

/-- R201: in CHUNKS, with a pixel owed and the host accepting pixels, the fetch gives the instruction that the bytes
offered decode to. -/
theorem Dec.fetch_chunk {d : Dec} {i : Instr} {bs : List Byte} (hp : d.phase = .chunks) (ho : d.owes = true)
    (hready : d.outReady = true) (hl : d.bpos + instrLength i ≤ d.blen)
    (hb : d.byteIn.readMany d.bpos (instrLength i) = some bs) (hd : decode .chunk bs = .ok (i, [])) :
    d.fetch = .run i := by
  obtain ⟨b1, r, rfl, hr⟩ := decodeChunk_ok_length hd
  obtain ⟨hlen, hread⟩ := (Memory.readMany_eq_some_iff _ _ _ _).mp hb
  have hlen' : instrLength i = 1 + (chunkLength b1 - 1) := by rw [← hlen, List.length_cons, hr, Nat.add_comm]
  rw [hlen'] at hl hb
  have hb1 : d.byteIn.read d.bpos = some b1 := hread 0 (by simp)
  obtain ⟨-, hrest⟩ := Memory.readMany_split hb
  have hr1 : d.byteRead = .got b1 (d.advance 1) := by
    simp only [Dec.byteRead, hb1]
    exact if_neg (by omega)
  have hrn : (d.advance 1).readBytes (chunkLength b1 - 1) = .got r ((d.advance 1).advance (chunkLength b1 - 1)) :=
    Dec.readBytes_of_readMany _ (d.advance 1) _ (by simp only [Dec.advance_bpos, Dec.advance_blen]; omega) hrest
  simp only [Dec.fetch, hp, Dec.fetchChunk, ho, if_true, hr1, hrn, hready, hd]

/-- R129, R211: in TRAILER the fetch gives END, once the trailing bytes are offered, whatever they are. -/
theorem Dec.fetch_trailer {d : Dec} {T : List Byte} (hp : d.phase = .trailer)
    (hb : d.byteIn.readMany d.bpos (d.blen - d.bpos) = some T) : d.fetch = .run .endMarker := by
  simp only [Dec.fetch, hp, Dec.fetchTrailer, Dec.trail, hb, Option.isSome_some, if_true]

/-! ### The invariant of the machine -/

/-- A decoder step keeps the invariant of both engines. -/
theorem State.inv_decStep {s t : State} (h : s.Inv) (hs : decStep s = some (.next t)) : t.Inv := by
  obtain ⟨henc, -⟩ := decStep_beside_enc hs s.enc
  exact ⟨henc ▸ h.1, dec_inv_decStep h.2 hs⟩

/-- An encoder step keeps the invariant of both engines. -/
theorem State.inv_encStep {s t : State} (h : s.Inv) (hs : encStep s = some (.next t)) : t.Inv := by
  obtain ⟨e, he, heq⟩ := encStep_cases hs
  obtain rfl := Host.Outcome.next.inj heq
  exact ⟨Enc.inv_step h.1 he, h.2⟩

/-- A turn that the host gives to an engine is that engine's step, or nothing if it waits (log 9). -/
theorem getD_next_cases {s t : State} {o : Option (Host.Outcome State Fault Refusal)}
    (h : o.getD (.next s) = .next t) : o = some (.next t) ∨ t = s := by
  cases o with
  | none => exact .inr (Host.Outcome.next.inj h).symm
  | some o => exact .inl (congrArg some h)

/-- Whatever the host does, the invariant is kept. -/
theorem State.inv_hostInput {s t : State} {x : Input} (h : s.Inv) (hs : hostInput x s = .next t) : t.Inv := by
  obtain ⟨henc, hdec⟩ := h
  cases x with
  | encStart w hh ch cs =>
    obtain rfl := Host.Outcome.next.inj hs
    exact ⟨Enc.inv_start henc _, hdec⟩
  | decStart blen =>
    obtain rfl := Host.Outcome.next.inj hs
    exact ⟨henc, Dec.inv_start hdec blen.isLt⟩
  | offerPixel c =>
    obtain rfl := Host.Outcome.next.inj hs
    exact ⟨Enc.inv_pixIn henc (Memory.wf_writeColour henc.1 _ c), hdec⟩
  | offerByte b =>
    obtain rfl := Host.Outcome.next.inj hs
    exact ⟨henc, Dec.inv_byteIn hdec (Memory.wf_write hdec.1 _ b)⟩
  | alterPixel k c =>
    simp only [hostInput] at hs
    split at hs
    · obtain rfl := Host.Outcome.next.inj hs
      exact ⟨Enc.inv_pixIn henc (Memory.wf_writeColour henc.1 k c), hdec⟩
    · cases hs
  | alterByte off b =>
    simp only [hostInput] at hs
    split at hs
    · obtain rfl := Host.Outcome.next.inj hs
      exact ⟨henc, Dec.inv_byteIn hdec (Memory.wf_write hdec.1 off b)⟩
    · cases hs
  | encAccept ready =>
    obtain rfl := Host.Outcome.next.inj hs
    exact ⟨Enc.inv_outReady henc ready, hdec⟩
  | decAccept ready =>
    obtain rfl := Host.Outcome.next.inj hs
    exact ⟨henc, Dec.inv_outReady hdec ready⟩
  | hardReset =>
    obtain rfl := Host.Outcome.next.inj hs
    exact ⟨Enc.inv_outReady Enc.inv_reset _, Dec.inv_outReady Dec.inv_reset _⟩
  | turn e =>
    cases e with
    | enc =>
      rcases getD_next_cases hs with he | rfl
      · exact State.inv_encStep ⟨henc, hdec⟩ he
      · exact ⟨henc, hdec⟩
    | dec =>
      rcases getD_next_cases hs with hd | rfl
      · exact State.inv_decStep ⟨henc, hdec⟩ hd
      · exact ⟨henc, hdec⟩

/-- Settles O55, by the oldest pending input if there is one and by the engine that moves if there is none: the host's
input keeps both engines sound, and so does a step of each engine. -/
theorem stepKeepsTheInvariant : Obligations.StepKeepsTheInvariant := by
  intro s t h hs
  cases hi : s.inputs with
  | cons x rest =>
    rw [step_of_input hi] at hs
    exact State.inv_hostInput (s := s.setInputs rest) h hs
  | nil =>
    simp only [step, hi] at hs
    rcases enginesStep_cases hs with hd | he | rfl
    · exact State.inv_decStep h hd
    · exact State.inv_encStep h he
    · exact h

/-! ### Statements about one step -/

/-- Settles O53: an instruction and a decoder step are functions of the decoder, an encoder step one of the encoder. -/
theorem enginesShareNothing : Obligations.EnginesShareNothing := by
  intro s t e d
  exact ⟨fun i hx => exec_beside_enc hx e, fun hd => decStep_beside_enc hd e, fun he => encStep_beside_dec he d⟩

/-- Settles O6: in each phase the fetch reads the bytes offered and gives the instruction they decode to; in TRAILER it
gives END by position. -/
theorem stepRunsDecodedInstruction : Obligations.StepRunsDecodedInstruction := by
  refine ⟨fun s i bs hi hl hb => ⟨?_, ?_, ?_⟩, fun s T hi hp hb => step_of_run hi (Dec.fetch_trailer hp hb)⟩
  · rintro ⟨hp, ho, hready, hd⟩
    exact step_of_run hi (Dec.fetch_chunk hp ho hready hl hb hd)
  · rintro ⟨hp, hd⟩
    exact step_of_run hi (Dec.fetch_header hp hl hb hd)
  · rintro ⟨hp, hend, hd⟩
    obtain rfl := decodeEnd_ok hd
    have hlen : s.dec.blen - s.dec.bpos = instrLength .endMarker := by simp only [instrLength]; omega
    exact step_of_run hi (Dec.fetch_trailer hp (hlen ▸ hb))

/-- Settles O34: with nothing pending and no step of the decoder, the machine's step is the encoder's. -/
theorem stepRunsTheEncoder : Obligations.StepRunsTheEncoder :=
  fun _ _ hi hd he => step_of_encStep hi hd (encStep_of_step he)

/-! ### The frame of the chunks -/

/-- R201, R209: what every chunk leaves of the decoder, from `d` to `d'`: the stream, the Header, the flags but
RUN_CLIP, the output bytes outside the pixels written, the slots but that of the new `PREV`. -/
def Dec.sameOutsideChunk (d d' : Dec) : Prop :=
  d'.blen = d.blen ∧ d'.hdr = d.hdr ∧ d'.npix = d.npix ∧ d'.byteIn = d.byteIn ∧ d'.outReady = d.outReady ∧
  d'.endMismatch = d.endMismatch ∧
  (∀ a, a < 4 * d.pcnt ∨ 4 * d'.pcnt ≤ a → d'.pixOut.read a = d.pixOut.read a) ∧
  (∀ k, k ≠ colourHash d'.prev → d'.cache.lookup k = d.cache.lookup k)

/-- R143: a store leaves every slot but that of its hash. -/
theorem Cache.lookup_store_other (k : Cache) {c : Colour} {i : Slot} (h : i ≠ colourHash c) :
    (k.store c).lookup i = k.lookup i := by
  rw [Cache.lookup_store, if_neg h]

theorem Dec.sameOutsideChunk_refl (d : Dec) : d.sameOutsideChunk d :=
  ⟨rfl, rfl, rfl, rfl, rfl, rfl, fun _ _ => rfl, fun _ _ => rfl⟩

/-- R213: a truncation writes no pixel and no slot. -/
theorem Dec.sameOutsideChunk_truncate (d : Dec) : d.sameOutsideChunk d.truncate :=
  ⟨rfl, rfl, rfl, rfl, rfl, rfl, fun _ _ => rfl, fun _ _ => rfl⟩

/-- R209: a single-pixel chunk writes pixel `PCNT` and the slot of its colour. -/
theorem Dec.sameOutsideChunk_produced (d : Dec) (len : Nat) (px : Colour) : d.sameOutsideChunk (d.produced len px) :=
  ⟨rfl, rfl, rfl, rfl, rfl, rfl, fun _ ha => Memory.read_writeColour_other _ _ _ _ ha,
    fun _ hk => Cache.lookup_store_other _ hk⟩

/-- R208, R212: a RUN writes the pixels from `PCNT` on that it counts, and the slot of `PREV`. -/
theorem Dec.sameOutsideChunk_repeatPrev {d : Dec} {n : Nat} (h : d.inChunks n) (len : Nat) {k : Nat} (hk : 0 < k) :
    d.sameOutsideChunk (Dec.repeatPrev k (d.advance len)).leaveChunks := by
  rw [Dec.repeatPrev_leaveChunks h len hk]
  refine ⟨rfl, rfl, rfl, rfl, rfl, rfl, fun a ha => ?_, fun _ hk => Cache.lookup_store_other _ hk⟩
  exact Memory.read_writeColours_other _ _ _ _ (by rwa [List.length_replicate])

/-- R201: a chunk has the frame if its work has it where it fires. -/
theorem Dec.sameOutsideChunk_chunk {d : Dec} {len : Nat} {act : Dec → Dec}
    (hact : ∀ n, d.inChunks n → d.sameOutsideChunk (act (d.advance len)).leaveChunks) :
    d.sameOutsideChunk (d.chunk len act) := by
  rcases d.chunk_cases len act with ⟨n, hn, -, heq⟩ | ⟨_, -, -, heq⟩ | ⟨-, heq⟩
  · exact heq ▸ hact n hn
  · exact heq ▸ d.sameOutsideChunk_truncate
  · exact heq.symm ▸ d.sameOutsideChunk_refl

/-- R212: only RUN can set RUN_CLIP. -/
theorem Dec.chunk_single_runClip (d : Dec) (len : Nat) (px : Dec → Colour) :
    (d.chunk len fun d => d.single (px d)).runClip = d.runClip := by
  rcases d.chunk_cases len (fun d => d.single (px d)) with ⟨_, -, -, heq⟩ | ⟨_, -, -, heq⟩ | ⟨-, heq⟩
  · simp only [heq, Dec.leaveChunks_runClip, Dec.single_runClip, Dec.advance_runClip]
  · simp only [heq, Dec.truncate_runClip]
  · rw [heq]

/-- R201: a chunk acts on the decoder alone, inside the frame; one that is no RUN leaves RUN_CLIP. -/
theorem exec_chunk_frame {i : Instr} (hi : placeOf i = .chunk) (s : State) :
    ∃ d, exec i s = .next (s.setDec d) ∧ s.dec.sameOutsideChunk d ∧
      ((∀ n1, i ≠ .run n1) → d.runClip = s.dec.runClip) := by
  rcases exec_chunk_cases hi with ⟨px, hpx⟩ | ⟨n1, rfl⟩
  · refine ⟨_, hpx s, Dec.sameOutsideChunk_chunk fun n hn => ?_, fun _ => Dec.chunk_single_runClip _ _ px⟩
    rw [Dec.single_leaveChunks hn]
    exact Dec.sameOutsideChunk_produced _ _ _
  · exact ⟨_, exec_run n1 s, Dec.sameOutsideChunk_chunk fun n hn =>
      Dec.sameOutsideChunk_repeatPrev hn 1 (runLength_pos n1), fun h => absurd rfl (h n1)⟩

/-- Settles O16, by the frame that the single-pixel chunks (R209) and RUN (R208) share. -/
theorem chunkFrame : Obligations.ChunkFrame := by
  intro s t i hi hx
  obtain ⟨d, hd, ⟨hblen, hhdr, hnpix, hin, hready, hm, hout, hcache⟩, hclip⟩ := exec_chunk_frame hi s
  obtain rfl := Host.Outcome.next.inj (hd.symm.trans hx)
  exact ⟨rfl, rfl, hblen, hhdr, hnpix, hin, hready, hm, hclip, hout, hcache⟩

end Sys2Proof.Machine
end

section
/-! SUPPORT. The start commands and the status reads (spec/10_state.md R30, R34; spec/40_header_framer.md R120, R121;
spec/60_exceptions.md R230, R240). -/

namespace Sys2Proof.Machine

/-! ### Start commands -/

/-- R240: an encoder with a run in progress accepts no start command. -/
theorem Enc.accepts_eq_false {e : Enc} (h : e.phase = .header ∨ e.phase = .pixels ∨ e.phase = .finish) :
    e.accepts = false := by
  rcases h with h | h | h <;> simp [Enc.accepts, h]

/-- R240: a decoder with a run in progress accepts no start command. -/
theorem Dec.accepts_eq_false {d : Dec} (h : d.phase = .header ∨ d.phase = .chunks ∨ d.phase = .trailer) :
    d.accepts = false := by
  rcases h with h | h | h <;> simp [Dec.accepts, h]

/-- R34, R120, R121: an accepted `ENC.START`, the start state in HEADER or in ERROR by the Header's validity. -/
theorem Enc.start_of_accepts {e : Enc} (h : e.accepts = true) (hd : Header) :
    e.start hd = { Enc.fresh hd e.outReady with
      phase := if hd.valid = true then .header else .error
      err := if hd.valid = true then .none else .validation } := by
  unfold Enc.start
  rw [if_pos h]
  split <;> rfl

/-- R34: an accepted `DEC.START`. -/
theorem Dec.start_of_accepts {d : Dec} (h : d.accepts = true) (blen : Nat) :
    d.start blen = Dec.fresh blen d.outReady := if_pos h

/-- R240: a start command that is not accepted changes nothing. -/
theorem Enc.start_of_not_accepts {e : Enc} (h : e.accepts = false) (hd : Header) : e.start hd = e := by
  simp [Enc.start, h]

/-- R240: a start command that is not accepted changes nothing. -/
theorem Dec.start_of_not_accepts {d : Dec} (h : d.accepts = false) (blen : Nat) : d.start blen = d := by
  simp [Dec.start, h]

/-- The step of `ENC.START`. -/
theorem step_encStart {s : State} {w h : Word} {ch cs : Byte} {rest : List Input}
    (hi : s.inputs = .encStart w h ch cs :: rest) :
    step s = .next { s with inputs := rest, enc := s.enc.start ⟨w, h, ch, cs⟩ } := by
  rw [step_of_input hi]
  rfl

/-- The step of `DEC.START`. -/
theorem step_decStart {s : State} {blen : BitVec 64} {rest : List Input} (hi : s.inputs = .decStart blen :: rest) :
    step s = .next { s with inputs := rest, dec := s.dec.start blen.toNat } := by
  rw [step_of_input hi]
  rfl

/-- Settles O46, by whether the encoder accepts. -/
theorem encoderStart : Obligations.EncoderStart := by
  intro s w h ch cs rest hi
  refine ⟨fun hp => ?_, fun hp => ?_⟩
  · rw [step_encStart hi, Enc.start_of_accepts ((Enc.accepts_iff _).mpr hp)]
    simp only [Header.valid_iff]
    rfl
  · rw [step_encStart hi, Enc.start_of_not_accepts (Enc.accepts_eq_false hp)]

/-- Settles O47, by whether the decoder accepts. -/
theorem decoderStart : Obligations.DecoderStart := by
  intro s blen rest hi
  refine ⟨fun hp => ?_, fun hp => ?_⟩
  · rw [step_decStart hi, Dec.start_of_accepts ((Dec.accepts_iff _).mpr hp)]
    rfl
  · rw [step_decStart hi, Dec.start_of_not_accepts (Dec.accepts_eq_false hp)]

/-! ### Status reads -/

/-- R230: only "no error" has the code 0. -/
theorem ErrKind.code_eq_zero_iff (k : ErrKind) : k.code = 0 ↔ k = .none := by
  cases k <;> decide

/-- R34: once the Header is parsed in this run, `DEC.HDR` is a valid Header. -/
theorem Dec.hdr_of_phaseSound {d : Dec} (h : d.phaseSound)
    (hp : d.phase = .chunks ∨ d.phase = .trailer ∨ d.phase = .done) :
    ∃ hd : Header, hd.valid = true ∧ d.hdr = some hd := by
  have hparsed : d.parsed := by
    rcases hp with hp | hp | hp <;> simp only [Dec.phaseSound, hp] at h <;> exact h.1
  obtain ⟨hd, hv, hhdr, -⟩ := hparsed
  exact ⟨hd, hv, hhdr⟩

/-- R34: before, `DEC.HDR` has no value. -/
theorem Dec.hdr_eq_none_of_phaseSound {d : Dec} (h : d.phaseSound) (hp : d.phase = .idle ∨ d.phase = .header) :
    d.hdr = none := by
  rcases hp with hp | hp <;> simp only [Dec.phaseSound, hp] at h <;> exact h.2.1

/-- R230, R238: a sound decoder has an error exactly in ERROR. -/
theorem Dec.phase_eq_error_iff {d : Dec} (h : d.phaseSound) : d.phase = .error ↔ d.err ≠ .none := by
  cases hp : d.phase <;> simp only [Dec.phaseSound, hp] at h
  case error => exact ⟨fun _ => h.1, fun _ => rfl⟩
  case idle | header => simp [h.1]
  case chunks | trailer | done =>
    obtain ⟨⟨_, _, _, _, _, herr⟩, -⟩ := h
    simp [herr]

/-- R230, R238: a sound encoder has ValidationError in ERROR and no error elsewhere. -/
theorem Enc.err_of_phaseSound {e : Enc} (h : e.phaseSound) :
    e.err = if e.phase = .error then .validation else .none := by
  cases hp : e.phase <;> simp only [Enc.phaseSound, hp] at h <;> exact h.1

/-- Settles O49: the reads are the registers, and the clauses of the invariant say what they show. -/
theorem statusReadsShowTheRegisters : Obligations.StatusReadsShowTheRegisters := by
  refine ⟨⟨rfl, rfl, rfl, rfl⟩, ⟨rfl, rfl⟩, fun s => ⟨rfl, rfl, rfl, fun h => ?_⟩⟩
  obtain ⟨⟨-, -, -, -, -, -, henc⟩, hdecInv⟩ := h
  obtain ⟨-, hdec⟩ := (Dec.inv_iff s.dec).mp hdecInv
  have herr := Enc.err_of_phaseSound henc
  refine ⟨Dec.hdr_of_phaseSound hdec, Dec.hdr_eq_none_of_phaseSound hdec, ?_, ?_, fun hp => ?_⟩
  · exact (Dec.phase_eq_error_iff hdec).trans (not_congr (ErrKind.code_eq_zero_iff s.dec.err)).symm
  · by_cases hp : s.enc.phase = .error
    · simp [State.encStatus, hp, herr, ErrKind.code]
    · simp [State.encStatus, hp, herr, ErrKind.code]
  · simp only [State.encStatus] at hp ⊢
    rw [herr, if_neg hp]
    rfl

end Sys2Proof.Machine
end

section
/-! SUPPORT. The streams and buffers of spec/20_memory.md: reading past the end of the input (R61, R213), the layout of
the pixel buffer (R63), what the host offers (R60, R262) and what it may not write (93 U7). -/

namespace Sys2Proof.Machine

/-! ### Reading past the end of the input -/

/-- R61: bytes that are asked for beyond BLEN raise the error there, once the host has offered those before it. -/
theorem Dec.readBytes_short {n : Nat} {d : Dec} {bs : List Byte} (hle : d.bpos ≤ d.blen) (hn : d.blen < d.bpos + n)
    (hb : d.byteIn.readMany d.bpos (d.blen - d.bpos) = some bs) : d.readBytes n = .short d.truncate := by
  rcases d.readBytes_cases n hle with ⟨_, hl, -, -⟩ | ⟨-, -, hr⟩ | ⟨hnone, -⟩
  · omega
  · exact hr
  · rw [Nat.min_eq_right (by omega), hb] at hnone
    cases hnone

/-- R61: the first of the bytes left is the one that `ByteRead` gets, and the others are left after it. -/
theorem Dec.byteRead_of_readMany_cons {d : Dec} {n : Nat} {b : Byte} {bs : List Byte} (hn : d.bpos + n ≤ d.blen)
    (hb : d.byteIn.readMany d.bpos n = some (b :: bs)) :
    d.byteRead = .got b (d.advance 1) ∧ d.byteIn.readMany (d.bpos + 1) (n - 1) = some bs := by
  obtain ⟨hlen, hread⟩ := (Memory.readMany_eq_some_iff _ _ _ _).mp hb
  rw [List.length_cons] at hlen
  obtain rfl : n = 1 + bs.length := by omega
  have hfirst : d.byteIn.read d.bpos = some b := hread 0 (by simp)
  obtain ⟨-, hrest⟩ := Memory.readMany_split hb
  rw [Nat.add_sub_cancel_left]
  refine ⟨?_, hrest⟩
  simp only [Dec.byteRead, hfirst]
  exact if_neg (by omega)

/-- R201, R213: in CHUNKS, with a pixel owed and the bytes left offered, the fetch raises at BLEN if no byte is left or
the chunk of the first one runs past BLEN. -/
theorem Dec.fetch_chunk_truncated {d : Dec} {bs : List Byte} (hp : d.phase = .chunks) (ho : d.owes = true)
    (hle : d.bpos ≤ d.blen) (hb : d.byteIn.readMany d.bpos (d.blen - d.bpos) = some bs)
    (hshort : ∀ b1 rest, bs = b1 :: rest → d.blen < d.bpos + chunkLength b1) : d.fetch = .moved d.truncate := by
  have hlen := ((Memory.readMany_eq_some_iff _ _ _ _).mp hb).1
  cases bs with
  | nil =>
    rw [List.length_nil] at hlen
    have hend : d.blen = d.bpos := by omega
    have hr : d.byteRead = .short (d.raise .truncated) := if_pos (Nat.le_of_eq hend)
    simp only [Dec.fetch, hp, Dec.fetchChunk, ho, if_true, hr, Dec.truncate_of_eq hend]
  | cons b1 rest =>
    rw [List.length_cons] at hlen
    have hpast := hshort b1 rest rfl
    obtain ⟨hr, hrest⟩ := Dec.byteRead_of_readMany_cons (by omega) hb
    have hpayload : (d.advance 1).readBytes (chunkLength b1 - 1) = .short (d.advance 1).truncate := by
      apply Dec.readBytes_short (bs := rest) <;> simp only [Dec.advance_bpos, Dec.advance_blen, Dec.advance_byteIn]
      · omega
      · omega
      · rwa [Nat.sub_add_eq]
    simp only [Dec.fetch, hp, Dec.fetchChunk, ho, if_true, hr, hpayload]
    rfl

/-- Settles O22: the fetch raises while it reads the chunk, and the decoder's move is the machine's step. -/
theorem stepRaisesTruncated : Obligations.StepRaisesTruncated := by
  intro s n bs hi hc hle hb hshort
  exact step_of_decStep hi
    (decStep_of_moved (Dec.fetch_chunk_truncated hc.1 (Dec.owes_of_inChunks hc) hle hb hshort))

/-- R201: every chunk does its work in the frame of a chunk of its length. -/
theorem exec_eq_chunk {i : Instr} (h : placeOf i = .chunk) :
    ∃ act : Dec → Dec, ∀ s : State, exec i s = .next (s.setDec (s.dec.chunk (instrLength i) act)) := by
  rcases exec_chunk_cases h with ⟨px, hpx⟩ | ⟨n1, rfl⟩
  · exact ⟨_, hpx⟩
  · exact ⟨_, exec_run n1⟩

/-- Settles O14, by the frame that all chunks share. -/
theorem truncatedChunkRaises : Obligations.TruncatedChunkRaises := by
  intro s n i hi hc hl
  obtain ⟨act, hact⟩ := exec_eq_chunk hi
  rw [hact, Dec.chunk_truncated hc hl]
  rfl

/-! ### The pixel buffer -/

/-- R63: the four bytes of a pixel just written are its channels in the order r, g, b, a. -/
theorem Memory.read_writeColour_same (m : Memory) (k : Nat) (c : Colour) {j : Nat} (hj : j < 4) :
    (m.writeColour k c).read (4 * k + j) = [c.r, c.g, c.b, c.a][j]? := by
  simp only [Memory.writeColour, Memory.read_writeMany, List.length_cons, List.length_nil]
  rw [if_pos (by omega), Nat.add_sub_cancel_left]

/-- Settles O26: a byte of the pixel by its place in the pixel, any other by the frame of the write. -/
theorem pixelBufferLayout : Obligations.PixelBufferLayout := by
  intro m k c
  have hbyte := fun j (hj : j < 4) => Memory.read_writeColour_same m k c hj
  exact ⟨hbyte 0 (by decide), hbyte 1 (by decide), hbyte 2 (by decide), hbyte 3 (by decide),
    fun a ha => Memory.read_writeColour_other m k a c ha⟩

/-! ### What the host offers and alters -/

/-- R60: with the first `n` bytes offered, the byte offered is byte `n`. -/
theorem Dec.offerByte_of_filledTo {d : Dec} {n : Nat} (hw : d.byteIn.wf) (hf : d.byteIn.filledTo n) (b : Byte) :
    d.offerByte b = { d with byteIn := d.byteIn.write n b } := by
  rw [Dec.offerByte, Memory.next_of_filledTo hw hf]

/-- R63: with the first `n` pixels offered, the pixel offered is pixel `n`. -/
theorem Enc.offerPixel_of_filledTo {e : Enc} {n : Nat} (hw : e.pixIn.wf) (hf : e.pixIn.filledTo (4 * n)) (c : Colour) :
    e.offerPixel c = { e with pixIn := e.pixIn.writeColour n c } := by
  rw [Enc.offerPixel, Memory.next_of_filledTo hw hf, Nat.mul_div_cancel_left n (by decide)]

/-- Settles O51: the step takes the offer, and the next place of a filled stream is its length. -/
theorem offersArriveInOrder : Obligations.OffersArriveInOrder := by
  refine fun s n rest => ⟨fun b hi hw hf => ?_, fun c hi hw hf => ?_⟩
  · rw [step_of_input hi, ← Dec.offerByte_of_filledTo hw hf]
    rfl
  · rw [step_of_input hi, ← Enc.offerPixel_of_filledTo hw hf]
    rfl

/-- 93 U7: a pixel written out of order while the encoder accepts no start command is refused. -/
theorem hostInput_alterPixel_refused {s : State} (h : s.enc.accepts = false) (k : Nat) (c : Colour) :
    hostInput (.alterPixel k c) s = .refused .inputAltered := by
  simp only [hostInput, h, Bool.false_eq_true, if_false]

/-- 93 U7: a byte written out of order while the decoder accepts no start command is refused. -/
theorem hostInput_alterByte_refused {s : State} (h : s.dec.accepts = false) (off : Nat) (b : Byte) :
    hostInput (.alterByte off b) s = .refused .inputAltered := by
  simp only [hostInput, h, Bool.false_eq_true, if_false]

/-- Settles O52: an engine with a run in progress accepts no start command, and then the input is refused. -/
theorem alteredInputIsRefused : Obligations.AlteredInputIsRefused := by
  refine fun s k c b rest => ⟨fun hi hp => ?_, fun hi hp => ?_⟩
  · rw [step_of_input hi]
    exact hostInput_alterPixel_refused (s := s.setInputs rest) (Enc.accepts_eq_false hp) k c
  · rw [step_of_input hi]
    exact hostInput_alterByte_refused (s := s.setInputs rest) (Dec.accepts_eq_false hp) k b

end Sys2Proof.Machine
end

section
/-! SUPPORT. The encoding of spec/30_encoding.md in both directions: the first byte of a chunk (R91, R92, R105), decoding
what was encoded (R93 to R102) and encoding what was decoded (R104, R111). -/

namespace Sys2Proof

/-! ### The first byte -/

/-- R91: the top two bits of a byte are its number divided by 64. -/
theorem topBits_eq_iff (b : Byte) (t : BitVec 2) : b.extractLsb' 6 2 = t ↔ b.toNat / 64 = t.toNat := by
  have hb := b.isLt
  rw [← BitVec.toNat_inj, BitVec.extractLsb'_toNat, Nat.shiftRight_eq_div_pow]
  omega

/-- R91: the kind of a chunk from the number of its first byte. -/
theorem classify_eq (b : Byte) :
    classify b =
      if b.toNat = 255 then .rgba else if b.toNat = 254 then .rgb
      else if b.toNat / 64 = 0 then .index else if b.toNat / 64 = 1 then .diff
      else if b.toNat / 64 = 2 then .luma else .run := by
  have hfull (t : Byte) : b = t ↔ b.toNat = t.toNat := BitVec.toNat_inj.symm
  simp only [classify, hfull, topBits_eq_iff]
  rfl

/-- R92: the length is a function of the kind. -/
theorem classify_and_chunkLength {b : Byte} {k : ChunkKind} (h : classify b = k) :
    classify b = k ∧ chunkLength b = kindLength k := ⟨h, by rw [chunkLength, h]⟩

/-- Settles O3: each row of the table takes one branch of the classification. -/
theorem firstByteGivesKindAndLength : Obligations.FirstByteGivesKindAndLength := by
  refine fun b => ⟨fun h => classify_and_chunkLength ?_, fun h => classify_and_chunkLength ?_,
    fun h => classify_and_chunkLength ?_, fun h => classify_and_chunkLength ?_,
    fun h => classify_and_chunkLength (h ▸ classify_tagRGB), fun h => classify_and_chunkLength (h ▸ classify_tagRGBA)⟩ <;>
    rw [classify_eq, if_neg (by omega), if_neg (by omega)]
  · rw [if_pos (by omega)]
  · rw [if_neg (by omega), if_pos (by omega)]
  · rw [if_neg (by omega), if_neg (by omega), if_pos (by omega)]
  · rw [if_neg (by omega), if_neg (by omega), if_neg (by omega)]

/-- R91, R105: a first byte that classifies as RUN lies in C0 .. FD. -/
theorem toNat_of_classify_run {b : Byte} (h : classify b = .run) : 0xC0 ≤ b.toNat ∧ b.toNat ≤ 0xFD := by
  have hb := b.isLt
  rw [classify_eq] at h
  split_ifs at h
  omega

/-- Settles O4: the payload is the number of the byte less C0. -/
theorem runPayloadAtMost61 : Obligations.RunPayloadAtMost61 := by
  intro b h
  obtain ⟨hlo, hhi⟩ := toNat_of_classify_run h
  rw [BitVec.extractLsb'_toNat, Nat.shiftRight_zero]
  omega

/-! ### Decoding what was encoded -/

/-- R99, R102: the magic and ten bytes are a HEADER. -/
theorem decodeHeader_magic (w3 w2 w1 w0 h3 h2 h1 h0 ch cs : Byte) (rest : List Byte) :
    decodeHeader (Config.magic ++ w3 :: w2 :: w1 :: w0 :: h3 :: h2 :: h1 :: h0 :: ch :: cs :: rest) =
      .ok (.header (be32 w3 w2 w1 w0) (be32 h3 h2 h1 h0) ch cs, rest) := by
  have hlen : ∀ l : List Byte, ¬ (Config.magic ++ l).length < 4 := by simp [Config.magic]
  have hmagic : ∀ l : List Byte, ¬ (Config.magic ++ l).take 4 ≠ Config.magic := fun l h => h (List.take_left' rfl)
  rw [decodeHeader, if_neg (hlen _), if_neg (hmagic _)]
  rfl

/-- R99: a HEADER, legal or not, reads back. -/
theorem decodeHeader_encode (w h : Word) (ch cs : Byte) (rest : List Byte) :
    decodeHeader (encode (.header w h ch cs) ++ rest) = .ok (.header w h ch cs, rest) := by
  have hread := decodeHeader_magic (w.extractLsb' 24 8) (w.extractLsb' 16 8) (w.extractLsb' 8 8) (w.extractLsb' 0 8)
    (h.extractLsb' 24 8) (h.extractLsb' 16 8) (h.extractLsb' 8 8) (h.extractLsb' 0 8) ch cs rest
  rwa [be32_be32Bytes, be32_be32Bytes] at hread

/-- R93 to R98: a well-formed chunk reads back: its first byte classifies as its kind, and each field reads back. -/
theorem decodeChunk_encode {i : Instr} (hp : placeOf i = .chunk) (hw : i.wellFormed = true) (rest : List Byte) :
    decodeChunk (encode i ++ rest) = .ok (i, rest) := by
  cases i with
  | header w h ch cs => cases hp
  | endMarker => cases hp
  | rgba r g b a => simp only [encode, List.cons_append, List.nil_append, decodeChunk, classify_tagRGBA]
  | rgb r g b => simp only [encode, List.cons_append, List.nil_append, decodeChunk, classify_tagRGB]
  | index k => simp only [encode, List.cons_append, List.nil_append, decodeChunk, classify_index, payload_append]
  | diff fr fg fb =>
    obtain ⟨hr, hg, hb⟩ := diff_fields fr fg fb
    simp only [encode, List.cons_append, List.nil_append, decodeChunk, classify_diff, hr, hg, hb]
  | luma fg frg fbg =>
    obtain ⟨hrg, hbg⟩ := luma_fields frg fbg
    simp only [encode, List.cons_append, List.nil_append, decodeChunk, classify_luma, payload_append, hrg, hbg]
  | run n1 =>
    have hrun := classify_run n1 (of_decide_eq_true hw)
    simp only [encode, List.cons_append, List.nil_append, decodeChunk, hrun, payload_append]

/-- Settles O1, place by place. -/
theorem decodeEncodeRoundTrip : Obligations.DecodeEncodeRoundTrip := by
  intro i rest hw hend
  cases hp : placeOf i with
  | chunk => exact decodeChunk_encode hp hw rest
  | frameStart =>
    cases i with
    | header w h ch cs => exact decodeHeader_encode w h ch cs rest
    | _ => cases hp
  | trailer =>
    obtain rfl := hend hp
    cases i with
    | endMarker => rfl
    | _ => cases hp

/-- Bytes that are the encoding of a well-formed instruction decode to it. -/
theorem decode_of_encode_eq {i : Instr} {bs : List Byte} (hw : i.wellFormed = true) (hbs : encode i = bs) :
    decode (placeOf i) bs = .ok (i, []) := by
  rw [← hbs, ← List.append_nil (encode i)]
  exact decodeEncodeRoundTrip i [] hw fun _ => rfl

/-- Settles O5: each word is the encoding of its instruction, bit by bit. -/
theorem writtenOutWordsDecode : Obligations.WrittenOutWordsDecode :=
  ⟨decode_of_encode_eq (i := .index 53) rfl rfl, decode_of_encode_eq (i := .diff 3 1 2) rfl rfl,
    decode_of_encode_eq (i := .luma 47 3 1) rfl rfl, decode_of_encode_eq (i := .run 61) rfl rfl,
    decode_of_encode_eq (i := .rgb 10 20 30) rfl rfl, decode_of_encode_eq (i := .rgba 1 2 3 77) rfl rfl,
    decode_of_encode_eq (i := .header 256 65536 3 1) rfl rfl, decode_of_encode_eq (i := .endMarker) rfl rfl⟩

/-! ### Every stream of chunk bytes parses -/

theorem chunkLength_pos (b : Byte) : 0 < chunkLength b := by
  unfold chunkLength
  cases classify b <;> decide

/-- R104, R111: the bytes of a chunk, as many as its first byte says, are the encoding of a well-formed chunk. -/
theorem exists_encode_eq_take {b1 : Byte} {rest : List Byte} (hl : chunkLength b1 ≤ rest.length + 1) :
    ∃ i, placeOf i = .chunk ∧ i.wellFormed = true ∧ encode i = (b1 :: rest).take (chunkLength b1) := by
  unfold chunkLength at *
  cases hk : classify b1 with
  | index => exact ⟨.index (b1.extractLsb' 0 6), rfl, rfl, congrArg (· :: []) (bytes_of_index b1 hk)⟩
  | diff =>
    exact ⟨.diff (b1.extractLsb' 4 2) (b1.extractLsb' 2 2) (b1.extractLsb' 0 2), rfl, rfl,
      congrArg (· :: []) (bytes_of_diff b1 hk)⟩
  | run =>
    exact ⟨.run (b1.extractLsb' 0 6), rfl, decide_eq_true (runPayloadAtMost61 b1 hk),
      congrArg (· :: []) (bytes_of_run b1 hk)⟩
  | luma =>
    rw [hk] at hl
    match rest, hl with
    | b2 :: _, _ =>
      exact ⟨.luma (b1.extractLsb' 0 6) (b2.extractLsb' 4 4) (b2.extractLsb' 0 4), rfl, rfl,
        congrArg₂ (fun x y => [x, y]) (bytes_of_luma b1 hk) (bytes_of_nibbles b2)⟩
  | rgb =>
    rw [hk] at hl
    match rest, hl with
    | r :: g :: b :: _, _ => exact ⟨.rgb r g b, rfl, rfl, congrArg (· :: [r, g, b]) (byte_of_rgb b1 hk).symm⟩
  | rgba =>
    rw [hk] at hl
    match rest, hl with
    | r :: g :: b :: a :: _, _ =>
      exact ⟨.rgba r g b a, rfl, rfl, congrArg (· :: [r, g, b, a]) (byte_of_rgba b1 hk).symm⟩

/-- Settles O2: the bytes are an encoding followed by the rest, and an encoding reads back. -/
theorem everyChunkStreamParses : Obligations.EveryChunkStreamParses := by
  intro b1 rest hl
  obtain ⟨i, hp, hw, he⟩ := exists_encode_eq_take hl
  refine ⟨i, hp, hw, ?_, he⟩
  have hsplit : b1 :: rest = encode i ++ rest.drop (chunkLength b1 - 1) := by
    rw [he, ← List.drop_cons (chunkLength_pos b1), List.take_append_drop]
  rw [hsplit]
  exact decodeChunk_encode hp hw _

end Sys2Proof
end

section
/-! SUPPORT. The two chunks that no step of the encoder writes, DIFF 0 0 0 and LUMA 0 0 0 (spec/30_encoding.md R110): the
deltas of spec/42_delta_unit.md are all 0 only between equal Colours. -/

namespace Sys2Proof.Machine

/-! ### Deltas that are zero -/

/-- R151: the delta of a channel is 0 exactly when the channel is the same. -/
theorem chanDelta_eq_zero_iff (x y : Byte) : chanDelta x y = 0 ↔ x = y := by
  constructor
  · intro h
    have hplus : isPlus x y 0 := h ▸ isPlus_chanDelta x y
    rw [← wrap8_of_isPlus hplus, Int.add_zero, wrap8, BitVec.ofInt_natCast, BitVec.ofNat_toNat, BitVec.setWidth_eq]
  · rintro rfl
    exact chanDelta_of_isPlus (by have := x.isLt; simp only [isPlus]; omega) (by decide) (by decide)

/-- R151, R155: two Colours of the same alpha with three zero deltas are the same. -/
theorem eq_of_deltas_zero {cur prev : Colour} (ha : cur.a = prev.a) (hr : deltaR cur prev = 0)
    (hg : deltaG cur prev = 0) (hb : deltaB cur prev = 0) : cur = prev := by
  cases cur
  cases prev
  simp only [deltaR, deltaG, deltaB, chanDelta_eq_zero_iff] at hr hg hb
  rw [Colour.mk.injEq]
  exact ⟨hr, hg, hb, ha⟩

/-- R153: the difference of two deltas, as an `s8`, is 0 only for equal deltas. -/
theorem chanDelta_eq_of_sgn8_sub {x y x' y' : Byte} (h : sgn8 (chanDelta x y - chanDelta x' y') = 0) :
    chanDelta x y = chanDelta x' y' := by
  obtain ⟨hlo, hhi, -⟩ : -128 ≤ chanDelta x y ∧ chanDelta x y ≤ 127 ∧ _ := sgn8_spec _
  obtain ⟨hlo', hhi', -⟩ : -128 ≤ chanDelta x' y' ∧ chanDelta x' y' ≤ 127 ∧ _ := sgn8_spec _
  obtain ⟨-, -, hmod⟩ := sgn8_spec (chanDelta x y - chanDelta x' y')
  omega

/-! ### The bytes of DIFF and LUMA -/

/-- R152: when DIFF fits. -/
theorem diffFits_iff (cur prev : Colour) :
    diffFits cur prev = true ↔ cur.a = prev.a ∧ (-2 ≤ deltaR cur prev ∧ deltaR cur prev ≤ 1) ∧
      (-2 ≤ deltaG cur prev ∧ deltaG cur prev ≤ 1) ∧ (-2 ≤ deltaB cur prev ∧ deltaB cur prev ≤ 1) := by
  simp only [diffFits, Bool.and_eq_true, alphaSame_iff, inRange_iff, and_assoc]

/-- R153: when LUMA fits. -/
theorem lumaFits_iff (cur prev : Colour) :
    lumaFits cur prev = true ↔ cur.a = prev.a ∧ (-32 ≤ deltaG cur prev ∧ deltaG cur prev ≤ 31) ∧
      (-8 ≤ deltaRG cur prev ∧ deltaRG cur prev ≤ 7) ∧ (-8 ≤ deltaBG cur prev ∧ deltaBG cur prev ≤ 7) := by
  simp only [lumaFits, Bool.and_eq_true, alphaSame_iff, inRange_iff, and_assoc]

/-- The byte of an integer is a given one exactly when the integer is congruent to it. -/
theorem wrap8_eq_iff (x : Int) (b : Byte) : wrap8 x = b ↔ x % 256 = b.toNat := by
  rw [wrap8, ← BitVec.toNat_inj, BitVec.toNat_ofInt]
  omega

/-- R175, R94: among deltas in range the byte 6A is that of DIFF 0 0 0. -/
theorem deltas_zero_of_diffByte {dr dg db : Int} (hr : -2 ≤ dr ∧ dr ≤ 1) (hg : -2 ≤ dg ∧ dg ≤ 1)
    (hb : -2 ≤ db ∧ db ≤ 1) (h : diffByte dr dg db = 0x6A) : dr = 0 ∧ dg = 0 ∧ db = 0 := by
  have hmod : (0x40 + 16 * (dr + 2) + 4 * (dg + 2) + (db + 2)) % 256 = 106 := (wrap8_eq_iff _ _).mp h
  omega

/-- R176, R95: among deltas in range the byte A0 is that of a green delta 0. -/
theorem delta_zero_of_lumaByte0 {dg : Int} (hg : -32 ≤ dg ∧ dg ≤ 31) (h : lumaByte0 dg = 0xA0) : dg = 0 := by
  have hmod : (0x80 + (dg + 32)) % 256 = 160 := (wrap8_eq_iff _ _).mp h
  omega

/-- R176, R95: among deltas in range the byte 88 is that of two relative deltas 0. -/
theorem deltas_zero_of_lumaByte1 {drdg dbdg : Int} (hrg : -8 ≤ drdg ∧ drdg ≤ 7) (hbg : -8 ≤ dbdg ∧ dbdg ≤ 7)
    (h : lumaByte1 drdg dbdg = 0x88) : drdg = 0 ∧ dbdg = 0 := by
  have hmod : (16 * (drdg + 8) + (dbdg + 8)) % 256 = 136 := (wrap8_eq_iff _ _).mp h
  omega

/-- R110: the DIFF byte of a pixel that differs from the previous one is not 6A. -/
theorem diffByte_ne_zeroDeltas {cur prev : Colour} (hne : cur ≠ prev) (hf : diffFits cur prev = true) :
    diffByte (deltaR cur prev) (deltaG cur prev) (deltaB cur prev) ≠ 0x6A := by
  intro h
  obtain ⟨ha, hr, hg, hb⟩ := (diffFits_iff cur prev).mp hf
  obtain ⟨hr0, hg0, hb0⟩ := deltas_zero_of_diffByte hr hg hb h
  exact hne (eq_of_deltas_zero ha hr0 hg0 hb0)

/-- R110: the LUMA bytes of a pixel that differs from the previous one are not A0 88. -/
theorem lumaBytes_ne_zeroDeltas {cur prev : Colour} (hne : cur ≠ prev) (hf : lumaFits cur prev = true) :
    [lumaByte0 (deltaG cur prev), lumaByte1 (deltaRG cur prev) (deltaBG cur prev)] ≠ [0xA0, 0x88] := by
  intro h
  obtain ⟨h0, h1⟩ : lumaByte0 _ = 0xA0 ∧ lumaByte1 _ _ = 0x88 := by simpa using h
  obtain ⟨ha, hg, hrg, hbg⟩ := (lumaFits_iff cur prev).mp hf
  have hg0 := delta_zero_of_lumaByte0 hg h0
  obtain ⟨hrg0, hbg0⟩ := deltas_zero_of_lumaByte1 hrg hbg h1
  exact hne (eq_of_deltas_zero ha ((chanDelta_eq_of_sgn8_sub hrg0).trans hg0) hg0
    ((chanDelta_eq_of_sgn8_sub hbg0).trans hg0))

/-- R174, R93: the INDEX byte has top bits 00, so it is not 6A. -/
theorem indexByte_ne_6A (i : Slot) : (i.setWidth 8 : Byte) ≠ 0x6A := by
  intro h
  have hi := i.isLt
  have hnat : (i.setWidth 8).toNat = 106 := congrArg BitVec.toNat h
  rw [BitVec.toNat_setWidth] at hnat
  omega

/-! ### What a step writes -/

/-- R110, R174 to R178: the chunk of a pixel that differs from `PREV` is neither DIFF 0 0 0 nor LUMA 0 0 0. -/
theorem Enc.emitPixel_ne_zeroDeltas {e : Enc} {cur : Colour} (hne : cur ≠ e.prev) :
    ∃ bs : List Byte, bs ≠ [] ∧ bs ≠ [0x6A] ∧ bs ≠ [0xA0, 0x88] ∧ e.emitPixel cur = e.bytesWrite bs := by
  rcases e.emitPixel_cases cur with ⟨-, h⟩ | ⟨-, hf, h⟩ | ⟨-, -, hf, h⟩ | ⟨-, -, -, -, h⟩ | ⟨-, -, -, -, h⟩
  · exact ⟨_, by simp, by simpa using indexByte_ne_6A _, by simp, h⟩
  · exact ⟨_, by simp, by simpa using diffByte_ne_zeroDeltas hne hf, by simp, h⟩
  · exact ⟨_, by simp, by simp, lumaBytes_ne_zeroDeltas hne hf, h⟩
  · exact ⟨_, by simp, by simp, by simp, h⟩
  · exact ⟨_, by simp, by simp, by simp, h⟩

/-- R172: what a pixel equal to `PREV` does to the output. -/
theorem Enc.pixelStep_prev_output (e : Enc) :
    ((e.pixelStep e.prev).byteOut = e.byteOut ∧ (e.pixelStep e.prev).bout = e.bout) ∨
      ((e.pixelStep e.prev).byteOut = e.byteOut.write e.bout 0xFD ∧ (e.pixelStep e.prev).bout = e.bout + 1) := by
  rw [Enc.pixelStep_prev]
  split
  · exact .inr ⟨rfl, rfl⟩
  · exact .inl ⟨rfl, rfl⟩

/-- R171: what a pixel that differs from `PREV` does to the output. -/
theorem Enc.pixelStep_output_of_ne {e : Enc} {cur : Colour} (hne : cur ≠ e.prev) :
    ∃ bs : List Byte, bs ≠ [] ∧ bs ≠ [0x6A] ∧ bs ≠ [0xA0, 0x88] ∧
      (e.pixelStep cur).byteOut = e.byteOut.writeMany e.bout (e.pendingBytes ++ bs) ∧
      (e.pixelStep cur).bout = e.bout + (e.pendingBytes ++ bs).length := by
  have hprev : e.flushPending.prev = e.prev := by rw [Enc.flushPending_eq]
  obtain ⟨bs, hnil, hdiff, hluma, hbs⟩ := Enc.emitPixel_ne_zeroDeltas (e := e.flushPending) (hprev ▸ hne)
  rw [Enc.pixelStep_eq hne hbs]
  exact ⟨bs, hnil, hdiff, hluma, rfl, rfl⟩

/-- Settles O43: counting the pixel read and leaving the phase write nothing, so the output is the pixel step's. -/
theorem encoderNeverWritesZeroDeltas : Obligations.EncoderNeverWritesZeroDeltas := by
  refine ⟨fun e e' cur hreads hstep => ?_,
    fun e cur hne => ⟨diffByte_ne_zeroDeltas hne, lumaBytes_ne_zeroDeltas hne⟩⟩
  rw [Enc.step_reads hreads, Enc.leavePixels_eq] at hstep
  obtain rfl := Option.some.inj hstep
  refine ⟨fun heq => ?_, fun hne => ?_⟩
  · subst heq
    exact Enc.pixelStep_prev_output { e with pidx := e.pidx + 1 }
  · exact Enc.pixelStep_output_of_ne (e := { e with pidx := e.pidx + 1 }) hne

end Sys2Proof.Machine
end

section
/-! SUPPORT. The two frames (spec/40_header_framer.md): the errors of the HEADER frame in reading order (R123, R124, R234),
what HEADER and END do where they fire and where they do not (R123 to R126, R129), and the bytes that the encoder writes
for its Header (R122). -/

namespace Sys2Proof.Machine

/-! ### Reading the HEADER frame -/

/-- R61: with the bytes `S` left and offered, the first `n` of them are got, and the others are left after them. -/
theorem Dec.readBytes_of_left {n : Nat} {d : Dec} {S : List Byte} (hle : d.bpos ≤ d.blen)
    (hb : d.byteIn.readMany d.bpos (d.blen - d.bpos) = some S) (hn : n ≤ S.length) :
    d.readBytes n = .got (S.take n) (d.advance n) ∧
      d.byteIn.readMany (d.bpos + n) (d.blen - (d.bpos + n)) = some (S.drop n) := by
  have hlen := ((Memory.readMany_eq_some_iff _ _ _ _).mp hb).1
  rw [show d.blen - d.bpos = n + (d.blen - (d.bpos + n)) by omega] at hb
  obtain ⟨hfirst, hrest⟩ := Memory.readMany_split hb
  exact ⟨Dec.readBytes_of_readMany n d _ (by omega) hfirst, hrest⟩

/-- R99, R102: fourteen bytes that begin with the magic are the HEADER of the big-endian fields. -/
theorem decodeHeader_take {S : List Byte} (hl : 14 ≤ S.length) (hm : S.take 4 = Config.magic) :
    decodeHeader (S.take 14) =
      .ok (.header (be32 (S.getD 4 0) (S.getD 5 0) (S.getD 6 0) (S.getD 7 0))
        (be32 (S.getD 8 0) (S.getD 9 0) (S.getD 10 0) (S.getD 11 0)) (S.getD 12 0) (S.getD 13 0), []) := by
  match S, hl with
  | _ :: _ :: _ :: _ :: w3 :: w2 :: w1 :: w0 :: h3 :: h2 :: h1 :: h0 :: ch :: cs :: _, _ =>
    have hread := decodeHeader_magic w3 w2 w1 w0 h3 h2 h1 h0 ch cs []
    rwa [← hm] at hread

section
variable {d : Dec} {S : List Byte} (hp : d.phase = .header) (hle : d.bpos ≤ d.blen)
  (hb : d.byteIn.readMany d.bpos (d.blen - d.bpos) = some S)
include hp hle hb

/-- R123, R124: in HEADER a stream that ends inside the magic raises at BLEN. -/
theorem Dec.fetch_header_shortMagic (hl : S.length < 4) : d.fetch = .moved d.truncate := by
  have hlen := ((Memory.readMany_eq_some_iff _ _ _ _).mp hb).1
  have hr : d.readBytes 4 = .short d.truncate := Dec.readBytes_short hle (by omega) hb
  simp only [Dec.fetch, hp, Dec.fetchHeader, hr]

/-- R124: in HEADER another magic raises FormatError once its four bytes are read. -/
theorem Dec.fetch_header_badMagic (hl : 4 ≤ S.length) (hm : S.take 4 ≠ Config.magic) :
    d.fetch = .moved ((d.advance 4).raise .format) := by
  obtain ⟨hr, -⟩ := Dec.readBytes_of_left hle hb hl
  simp only [Dec.fetch, hp, Dec.fetchHeader, hr, if_pos hm]

/-- R123, R234: in HEADER, after the magic, a stream that ends inside the fields raises at BLEN. -/
theorem Dec.fetch_header_shortFields (hl : 4 ≤ S.length) (hl' : S.length < 14) (hm : S.take 4 = Config.magic) :
    d.fetch = .moved d.truncate := by
  have hlen := ((Memory.readMany_eq_some_iff _ _ _ _).mp hb).1
  obtain ⟨hr, hrest⟩ := Dec.readBytes_of_left hle hb hl
  have hr' : (d.advance 4).readBytes 10 = .short (d.advance 4).truncate := by
    apply Dec.readBytes_short (bs := S.drop 4) <;>
      simp only [Dec.advance_bpos, Dec.advance_blen, Dec.advance_byteIn]
    · omega
    · omega
    · exact hrest
  simp only [Dec.fetch, hp, Dec.fetchHeader, hr, if_neg (not_not.mpr hm), hr']
  rfl

/-- R123, R99: in HEADER, after the magic, fourteen bytes are the instruction that they decode to. -/
theorem Dec.fetch_header_complete (hl : 14 ≤ S.length) {w h : Word} {ch cs : Byte}
    (hd : decodeHeader (S.take 14) = .ok (.header w h ch cs, [])) : d.fetch = .run (.header w h ch cs) := by
  have hlen := ((Memory.readMany_eq_some_iff _ _ _ _).mp hb).1
  rw [show d.blen - d.bpos = 14 + (d.blen - d.bpos - 14) by omega] at hb
  obtain ⟨hfirst, -⟩ := Memory.readMany_split hb
  refine Dec.fetch_header hp ?_ hfirst hd
  simp only [instrLength]
  omega

end

/-- Settles O19: the fetch meets each error where it reads the byte that shows it. -/
theorem headerErrorsInReadingOrder : Obligations.HeaderErrorsInReadingOrder := by
  intro s S hi hp h0 hl hb
  have hle : s.dec.bpos ≤ s.dec.blen := by omega
  have hleft : s.dec.byteIn.readMany s.dec.bpos (s.dec.blen - s.dec.bpos) = some S := by rwa [h0, hl]
  have hmoved {d : Dec} (hf : s.dec.fetch = .moved d) : step s = .next (s.setDec d) :=
    step_of_decStep hi (decStep_of_moved hf)
  refine ⟨fun h4 => ?_, fun h4 hm => ?_, fun h4 h14 hm => ?_, fun h14 hm => ?_⟩
  · rw [hmoved (Dec.fetch_header_shortMagic hp hle hleft h4), ← hl]
    rfl
  · rw [hmoved (Dec.fetch_header_badMagic hp hle hleft h4 hm)]
    simp only [State.setDec, Dec.raise, Dec.advance, h0, Nat.zero_add]
  · rw [hmoved (Dec.fetch_header_shortFields hp hle hleft h4 h14 hm), ← hl]
    rfl
  · exact ⟨_, _, _, _, be32_toNat _ _ _ _, be32_toNat _ _ _ _, rfl, rfl,
      step_of_run hi (Dec.fetch_header_complete hp hle hleft h14 (decodeHeader_take h14 hm))⟩

/-! ### What HEADER does -/

/-- R123: HEADER takes its fields in PHASE = HEADER, raises there if its 14 bytes run past BLEN, and elsewhere does not
fire. -/
theorem exec_header_eq (w h : Word) (ch cs : Byte) (s : State) :
    exec (.header w h ch cs) s = .next (s.setDec
      (if s.dec.phase = .header then
        if s.dec.bpos + 14 ≤ s.dec.blen then (s.dec.advance 14).takeHeader ⟨w, h, ch, cs⟩ else s.dec.truncate
      else s.dec)) := rfl

/-- R123: a HEADER frame whose 14 bytes are there takes its fields. -/
theorem exec_header_complete {s : State} (hp : s.dec.phase = .header) (hl : s.dec.bpos + 14 ≤ s.dec.blen) (w h : Word)
    (ch cs : Byte) :
    exec (.header w h ch cs) s = .next (s.setDec ((s.dec.advance 14).takeHeader ⟨w, h, ch, cs⟩)) := by
  rw [exec_header_eq, if_pos hp, if_pos hl]

/-- R126: a valid Header is stored with its pixel count. -/
theorem Dec.takeHeader_of_valid {hd : Header} (hv : hd.valid = true) (d : Dec) :
    d.takeHeader hd = { d with hdr := some hd, npix := some hd.pixels, phase := .chunks } := if_pos hv

/-- R125: an illegal Header raises ValidationError once it is stored (log 3). -/
theorem Dec.takeHeader_of_invalid {hd : Header} (hv : ¬ hd.valid = true) (d : Dec) :
    d.takeHeader hd = Dec.raise { d with hdr := some hd } .validation := if_neg hv

/-- Settles O17: legal fields are a valid Header. -/
theorem headerStoresItsFields : Obligations.HeaderStoresItsFields := by
  intro s w h ch cs hp hl hw hh hch hcs
  have hv : Header.valid ⟨w, h, ch, cs⟩ = true := (Header.valid_iff _).mpr ⟨hw, hh, hch, hcs⟩
  rw [exec_header_complete hp hl, Dec.takeHeader_of_valid hv]
  rfl

/-- Settles O18: one illegal field makes the Header invalid. -/
theorem illegalHeaderRaisesValidation : Obligations.IllegalHeaderRaisesValidation := by
  intro s w h ch cs hp hl hbad
  have hv : ¬ Header.valid ⟨w, h, ch, cs⟩ = true := by
    rw [Header.valid_iff]
    rintro ⟨hw, hh, hch, hcs⟩
    rcases hbad with hw' | hh' | ⟨h3, h4⟩ | ⟨h0, h1⟩
    · exact hw.ne' hw'
    · exact hh.ne' hh'
    · exact hch.elim h3 h4
    · exact hcs.elim h0 h1
  rw [exec_header_complete hp hl, Dec.takeHeader_of_invalid hv]
  rfl

/-! ### What END does -/

/-- R129: with the trailing bytes offered, END compares them. -/
theorem exec_endMarker_of_trail {s : State} {T : List Byte} (hp : s.dec.phase = .trailer) (ht : s.dec.trail = some T) :
    exec .endMarker s = .next (s.setDec (s.dec.checkTrailer T)) := by
  simp only [exec, execEndMarker, hp, ht]

/-- Settles O20: the comparison is with the end marker as a whole. -/
theorem endFrameComparesTheTrailer : Obligations.EndFrameComparesTheTrailer := by
  intro s T hp hT
  have hm : decide (T ≠ Config.endMarker) = if T = [0, 0, 0, 0, 0, 0, 0, 1] then false else true := by
    split
    · next heq => exact decide_eq_false (not_not.mpr heq)
    · next hne => exact decide_eq_true hne
  rw [exec_endMarker_of_trail hp hT, Dec.checkTrailer, hm]
  rfl

/-! ### The frame of HEADER and END -/

/-- R123, R129: what both frames leave of the decoder, from `d` to `d'`: the stream's length, the pixels with the registers
they are made from, RUN_CLIP. -/
def Dec.samePixels (d d' : Dec) : Prop :=
  d'.blen = d.blen ∧ d'.pcnt = d.pcnt ∧ d'.prev = d.prev ∧ d'.cache = d.cache ∧ d'.rrem = d.rrem ∧
  d'.runClip = d.runClip ∧ d'.outReady = d.outReady ∧ d'.pixOut = d.pixOut

theorem Dec.samePixels_refl (d : Dec) : d.samePixels d := ⟨rfl, rfl, rfl, rfl, rfl, rfl, rfl, rfl⟩

/-- R213: a truncation writes no pixel. -/
theorem Dec.samePixels_truncate (d : Dec) : d.samePixels d.truncate := ⟨rfl, rfl, rfl, rfl, rfl, rfl, rfl, rfl⟩

/-- R129: the trailer check writes no pixel. -/
theorem Dec.samePixels_checkTrailer (d : Dec) (T : List Byte) : d.samePixels (d.checkTrailer T) :=
  ⟨rfl, rfl, rfl, rfl, rfl, rfl, rfl, rfl⟩

/-- R123: taking a Header, valid or not, writes no pixel. -/
theorem Dec.samePixels_takeHeader (d : Dec) (n : Nat) (hd : Header) :
    d.samePixels ((d.advance n).takeHeader hd) := by
  unfold Dec.takeHeader
  split <;> exact ⟨rfl, rfl, rfl, rfl, rfl, rfl, rfl, rfl⟩

@[simp] theorem Dec.takeHeader_endMismatch (d : Dec) (hd : Header) :
    (d.takeHeader hd).endMismatch = d.endMismatch := by
  unfold Dec.takeHeader
  split <;> rfl

@[simp] theorem Dec.takeHeader_byteIn (d : Dec) (hd : Header) : (d.takeHeader hd).byteIn = d.byteIn := by
  unfold Dec.takeHeader
  split <;> rfl

/-- R123: the frame of HEADER, fired or not. -/
theorem exec_header_frame (w h : Word) (ch cs : Byte) (s : State) :
    ∃ d, exec (.header w h ch cs) s = .next (s.setDec d) ∧ s.dec.samePixels d ∧
      d.endMismatch = s.dec.endMismatch ∧ d.byteIn = s.dec.byteIn := by
  refine ⟨_, exec_header_eq w h ch cs s, ?_⟩
  split
  · split
    · exact ⟨s.dec.samePixels_takeHeader 14 _, Dec.takeHeader_endMismatch _ _, Dec.takeHeader_byteIn _ _⟩
    · exact ⟨s.dec.samePixels_truncate, rfl, rfl⟩
  · exact ⟨s.dec.samePixels_refl, rfl, rfl⟩

/-- R129: what END can do, fired or not. -/
theorem exec_endMarker_cases (s : State) :
    (∃ T, exec .endMarker s = .next (s.setDec (s.dec.checkTrailer T))) ∨
    exec .endMarker s = .next (s.setDec s.dec) := by
  simp only [exec, execEndMarker]
  split
  · next T _ _ => exact .inl ⟨T, rfl⟩
  · exact .inr rfl

/-- R129: what END leaves of the decoder beside the pixels, from `d` to `d'`: `BPOS`, `HDR`, `NPIX`, the error, and the
input bytes outside the trailing ones. -/
def Dec.sameOutsideTrailer (d d' : Dec) : Prop :=
  d'.bpos = d.bpos ∧ d'.hdr = d.hdr ∧ d'.npix = d.npix ∧ d'.err = d.err ∧ d'.errpos = d.errpos ∧
  ∀ a, a < d.bpos ∨ d.blen ≤ a → d'.byteIn.read a = d.byteIn.read a

/-- R129: the trailer check drains the trailing bytes and no other. -/
theorem Dec.sameOutsideTrailer_checkTrailer (d : Dec) (T : List Byte) : d.sameOutsideTrailer (d.checkTrailer T) := by
  refine ⟨rfl, rfl, rfl, rfl, rfl, fun a ha => ?_⟩
  rw [Dec.checkTrailer_byteIn, Memory.read_dropRange, if_neg (by omega)]

/-- R129: the frame of END, fired or not. -/
theorem exec_endMarker_frame (s : State) :
    ∃ d, exec .endMarker s = .next (s.setDec d) ∧ s.dec.samePixels d ∧ s.dec.sameOutsideTrailer d := by
  rcases exec_endMarker_cases s with ⟨T, hx⟩ | hx
  · exact ⟨_, hx, s.dec.samePixels_checkTrailer T, s.dec.sameOutsideTrailer_checkTrailer T⟩
  · exact ⟨_, hx, s.dec.samePixels_refl, rfl, rfl, rfl, rfl, rfl, fun _ _ => rfl⟩

/-- Settles O21: each of the two frames acts on the decoder alone, inside its frame. -/
theorem framesLeavePixelsAlone : Obligations.FramesLeavePixelsAlone := by
  intro s t i hi hx
  cases i with
  | header w h ch cs =>
    obtain ⟨d, hd, ⟨hblen, hpcnt, hprev, hcache, hrrem, hclip, hready, hout⟩, hm, hin⟩ :=
      exec_header_frame w h ch cs s
    obtain rfl := Host.Outcome.next.inj (hd.symm.trans hx)
    exact ⟨rfl, rfl, hblen, hpcnt, hprev, hcache, hrrem, hclip, hready, fun a => congrArg (·.read a) hout,
      fun _ => ⟨hm, fun a => congrArg (·.read a) hin⟩, nofun⟩
  | endMarker =>
    obtain ⟨d, hd, ⟨hblen, hpcnt, hprev, hcache, hrrem, hclip, hready, hout⟩, htrailer⟩ := exec_endMarker_frame s
    obtain rfl := Host.Outcome.next.inj (hd.symm.trans hx)
    exact ⟨rfl, rfl, hblen, hpcnt, hprev, hcache, hrrem, hclip, hready, fun a => congrArg (·.read a) hout,
      nofun, fun _ => htrailer⟩
  | _ => exact absurd rfl hi

/-! ### The encoder's HEADER -/

/-- R122, R99: the bytes that the encoder writes from the arithmetic are the encoding of its Header. -/
theorem Enc.emitHeader_eq_encode (e : Enc) :
    e.emitHeader = (e.bytesWrite (encode (.header e.hdr.w e.hdr.h e.hdr.ch e.hdr.cs))).setPhase .pixels := rfl

/-- R170, R268: in HEADER, with the host accepting, the encoder writes its Header. -/
theorem Enc.step_header {e : Enc} (hp : e.phase = .header) (hready : e.outReady = true) :
    e.step = some e.emitHeader := by
  simp only [Enc.step, hp, hready, if_true]

/-- Settles O35: the encoding is written at `BOUT`. -/
theorem encoderWritesTheHeader : Obligations.EncoderWritesTheHeader := by
  intro e hp hready
  rw [Enc.step_header hp hready, Enc.emitHeader_eq_encode, Enc.bytesWrite_eq]
  rfl

end Sys2Proof.Machine
end

section
/-! SUPPORT. The colour cache (spec/41_colour_cache.md): its hash (R140, R141), its store (R143) and the cache at the
start of a run (R142, R146). -/

namespace Sys2Proof.Machine

/-! ### The hash -/

/-- Settles O27, by the law of the hash. -/
theorem hashIsTheWeightedSum : Obligations.HashIsTheWeightedSum := colourHash_toNat

/-- R141: the low 6 bits of each channel give the hash. -/
theorem colourHash_toNat_low6 (c : Colour) :
    (colourHash c).toNat = (3 * (c.r.toNat % 64) + 5 * (c.g.toNat % 64) + 7 * (c.b.toNat % 64) +
      11 * (c.a.toNat % 64)) % 64 := by
  rw [colourHash_toNat]
  omega

/-- A sum that wraps at a width of 6 bits or more agrees with the integer sum modulo 64, which divides the modulus. -/
theorem toNat_add_ofNat_mod64 {w : Nat} (hw : 6 ≤ w) (x y z u : Nat) :
    (BitVec.ofNat w x + BitVec.ofNat w y + BitVec.ofNat w z + BitVec.ofNat w u).toNat % 64 = (x + y + z + u) % 64 := by
  have hdvd : 64 ∣ 2 ^ w := pow_dvd_pow 2 hw
  rw [← BitVec.ofNat_add, ← BitVec.ofNat_add, ← BitVec.ofNat_add, BitVec.toNat_ofNat, Nat.mod_mod_of_dvd _ hdvd]

/-- Settles O28: the integers wrap to the same sum modulo 64 in every such width. -/
theorem hashNeedsSixBits : Obligations.HashNeedsSixBits := fun c =>
  ⟨colourHash_toNat_low6 c, fun _ hw => (toNat_add_ofNat_mod64 hw _ _ _ _).trans (colourHash_toNat c).symm⟩

/-! ### The store and the fresh cache -/

/-- Settles O29, by the laws of the store. -/
theorem storeWritesTheSlotOfItsHash : Obligations.StoreWritesTheSlotOfItsHash := fun k c =>
  ⟨Cache.lookup_store k c, Cache.store_store k c, fun h => Cache.sound_store h c⟩

/-- Settles O30: every slot of a fresh cache reads as the unwritten value, so a hit is on that value. -/
theorem onlyZeroHitsAFreshCache : Obligations.OnlyZeroHitsAFreshCache := by
  intro c
  rw [freshCache_lookup]
  exact eq_comm

end Sys2Proof.Machine
end

section
/-! SUPPORT. Lockstep (spec/41_colour_cache.md R147): the bytes that the encoder writes from the arithmetic of
spec/43_encoder.md (R173 to R178) are the encodings of chunks (spec/30_encoding.md R93 to R98), and what executing each chunk
produces (spec/44_decoder.md R203 to R209) is the pixel it was written for. -/

namespace Sys2Proof.Machine

/-! ### Biased fields -/

/-- R101: the field that holds an integer with a bias. -/
def biasField (w k : Nat) (d : Int) : BitVec w := BitVec.ofInt w (d + k)

/-- R101: an integer in range is its field less the bias. -/
theorem toNat_biasField {w k : Nat} {d : Int} (hlo : 0 ≤ d + k) (hhi : d + k < (2 ^ w : Nat)) :
    ((biasField w k d).toNat : Int) = d + k := by
  rw [biasField, BitVec.toNat_ofInt, Int.emod_eq_of_lt hlo hhi, Int.toNat_of_nonneg hlo]

theorem unbias_biasField {w k : Nat} {d : Int} (hlo : 0 ≤ d + k) (hhi : d + k < (2 ^ w : Nat)) :
    unbias k (biasField w k d).toNat = d := by
  rw [unbias, toNat_biasField hlo hhi, Int.add_sub_cancel]

/-! ### The encoder's bytes are encodings -/

/-- R174, R93: the INDEX byte is the slot number under the tag 00. -/
theorem setWidth_eq_encode_index (i : Slot) : [(i.setWidth 8 : Byte)] = encode (.index i) := by
  have hbyte : (i.setWidth 8 : Byte) = 0b00#2 ++ i := by
    have hi := i.isLt
    apply BitVec.eq_of_toNat_eq
    rw [append_toNat, BitVec.toNat_setWidth, BitVec.toNat_ofNat]
    omega
  rw [hbyte, encode]

/-- R175, R94: the DIFF byte of deltas in range holds them in its fields. -/
theorem diffByte_eq_encode {dr dg db : Int} (hr : -2 ≤ dr ∧ dr ≤ 1) (hg : -2 ≤ dg ∧ dg ≤ 1) (hb : -2 ≤ db ∧ db ≤ 1) :
    [diffByte dr dg db] = encode (.diff (biasField 2 2 dr) (biasField 2 2 dg) (biasField 2 2 db)) := by
  have hfr := toNat_biasField (w := 2) (k := 2) (d := dr) (by omega) (by omega)
  have hfg := toNat_biasField (w := 2) (k := 2) (d := dg) (by omega) (by omega)
  have hfb := toNat_biasField (w := 2) (k := 2) (d := db) (by omega) (by omega)
  have hbyte : diffByte dr dg db = 0b01#2 ++ biasField 2 2 dr ++ biasField 2 2 dg ++ biasField 2 2 db := by
    rw [diffByte, wrap8_eq_iff]
    simp only [append_toNat, BitVec.toNat_ofNat]
    omega
  rw [hbyte, encode]

/-- R176, R95: the LUMA bytes of deltas in range hold them in their fields. -/
theorem lumaBytes_eq_encode {dg drdg dbdg : Int} (hg : -32 ≤ dg ∧ dg ≤ 31) (hrg : -8 ≤ drdg ∧ drdg ≤ 7)
    (hbg : -8 ≤ dbdg ∧ dbdg ≤ 7) :
    [lumaByte0 dg, lumaByte1 drdg dbdg] =
      encode (.luma (biasField 6 32 dg) (biasField 4 8 drdg) (biasField 4 8 dbdg)) := by
  have hfg := toNat_biasField (w := 6) (k := 32) (d := dg) (by omega) (by omega)
  have hfrg := toNat_biasField (w := 4) (k := 8) (d := drdg) (by omega) (by omega)
  have hfbg := toNat_biasField (w := 4) (k := 8) (d := dbdg) (by omega) (by omega)
  have hbyte0 : lumaByte0 dg = 0b10#2 ++ biasField 6 32 dg := by
    rw [lumaByte0, wrap8_eq_iff, append_toNat, BitVec.toNat_ofNat]
    omega
  have hbyte1 : lumaByte1 drdg dbdg = biasField 4 8 drdg ++ biasField 4 8 dbdg := by
    rw [lumaByte1, wrap8_eq_iff, append_toNat]
    omega
  rw [hbyte0, hbyte1, encode]

/-- R96: the payload of a run length. -/
def runPayload (n : Nat) : BitVec 6 := BitVec.ofNat 6 (n - 1)

section
variable {n : Nat} (hlo : 1 ≤ n) (hhi : n ≤ 62)
include hlo hhi

theorem toNat_runPayload : (runPayload n).toNat = n - 1 := by
  rw [runPayload, BitVec.toNat_ofNat]
  omega

/-- R96, R101: a run length reads back from its payload. -/
theorem runLength_runPayload : runLength (runPayload n) = n := by
  rw [runLength, toNat_runPayload hlo hhi]
  omega

/-- R105: the payload of a run length of at most 62 is legal. -/
theorem wellFormed_runPayload : (Instr.run (runPayload n)).wellFormed = true := by
  rw [Instr.wellFormed, toNat_runPayload hlo hhi, decide_eq_true_iff]
  omega

/-- R173, R96: the RUN byte holds the run length in its payload. -/
theorem runByte_eq_encode : [runByte n] = encode (.run (runPayload n)) := by
  have hbyte : runByte n = 0b11#2 ++ runPayload n := by
    apply BitVec.eq_of_toNat_eq
    rw [append_toNat, toNat_runPayload hlo hhi, runByte, BitVec.toNat_ofNat, BitVec.toNat_ofNat]
    omega
  rw [hbyte, encode]

end

/-- R90: the encoding of a chunk is as long as its format. -/
theorem length_encode_of_chunk {i : Instr} (h : placeOf i = .chunk) : (encode i).length = instrLength i := by
  cases i with
  | rgba r g b a => exact Laws.EncodeLength.rgba r g b a
  | rgb r g b => exact Laws.EncodeLength.rgb r g b
  | index k => exact Laws.EncodeLength.index k
  | diff fr fg fb => exact Laws.EncodeLength.diff fr fg fb
  | luma fg frg fbg => exact Laws.EncodeLength.luma fg frg fbg
  | run n1 => exact Laws.EncodeLength.run n1
  | header w h ch cs => cases h
  | endMarker => cases h

/-! ### Applying the deltas that were computed -/

/-- R159: the three channel deltas, added to the previous Colour, give the pixel of the same alpha back. -/
theorem diffApply_deltas {cur prev : Colour} (ha : cur.a = prev.a) :
    diffApply prev (deltaR cur prev) (deltaG cur prev) (deltaB cur prev) = cur := by
  rw [diffApply, deltaR, deltaG, deltaB, wrap8_of_isPlus (isPlus_chanDelta cur.r prev.r),
    wrap8_of_isPlus (isPlus_chanDelta cur.g prev.g), wrap8_of_isPlus (isPlus_chanDelta cur.b prev.b), ← ha]

/-- R153, R159: a channel is reached by its delta relative to another delta, and then that delta. -/
theorem wrap8_add_sgn8_sub (x y : Byte) (dg : Int) : wrap8 (y.toNat + sgn8 (chanDelta x y - dg) + dg) = x := by
  have hplus : isPlus x y (chanDelta x y) := isPlus_chanDelta x y
  obtain ⟨-, -, hmod⟩ := sgn8_spec (chanDelta x y - dg)
  rw [Int.add_assoc]
  apply wrap8_of_isPlus
  rw [isPlus] at *
  omega

/-- R159: the green delta and the two relative to it, added to the previous Colour, give the pixel of the same alpha
back. -/
theorem lumaApply_deltas {cur prev : Colour} (ha : cur.a = prev.a) :
    lumaApply prev (deltaG cur prev) (deltaRG cur prev) (deltaBG cur prev) = cur := by
  rw [lumaApply, deltaRG, deltaBG, deltaR, deltaB, wrap8_add_sgn8_sub, wrap8_add_sgn8_sub, deltaG,
    wrap8_of_isPlus (isPlus_chanDelta cur.g prev.g), ← ha]

/-! ### What a chunk that fires produces -/

/-- R201, R209: a single-pixel chunk that fires produces its pixel. -/
theorem Dec.chunk_single {d : Dec} {n len : Nat} (h : d.inChunks n) (hl : d.bpos + len ≤ d.blen) (px : Dec → Colour) :
    (d.chunk len fun d => d.single (px d)) = d.produced len (px (d.advance len)) := by
  rw [Dec.chunk_fires h hl, Dec.single_leaveChunks h]

/-- R209: where chunks fire and its bytes are there, executing the chunk `i` produces the pixel `px`. -/
def producesPixel (i : Instr) (px : Colour) (s : State) : Prop :=
  ∀ n, s.dec.inChunks n → s.dec.bpos + instrLength i ≤ s.dec.blen →
    exec i s = .next (s.setDec (s.dec.produced (instrLength i) px))

/-- R209: a chunk whose work is a single pixel produces it. -/
theorem producesPixel_of_chunk {i : Instr} {px : Dec → Colour} {s : State}
    (hex : exec i s = .next (s.setDec (s.dec.chunk (instrLength i) fun d => d.single (px d)))) :
    producesPixel i (px (s.dec.advance (instrLength i))) s := by
  intro n hn hl
  rw [hex, Dec.chunk_single hn hl]

section
variable (s : State)

/-- R203: RGBA produces its payload. -/
theorem producesPixel_rgba (r g b a : Byte) : producesPixel (.rgba r g b a) ⟨r, g, b, a⟩ s :=
  producesPixel_of_chunk (px := fun _ => ⟨r, g, b, a⟩) rfl

/-- R204: RGB produces its payload with the alpha of `PREV`. -/
theorem producesPixel_rgb (r g b : Byte) : producesPixel (.rgb r g b) ⟨r, g, b, s.dec.prev.a⟩ s :=
  producesPixel_of_chunk (px := fun d => ⟨r, g, b, d.prev.a⟩) rfl

/-- R205: INDEX produces the content of its slot. -/
theorem producesPixel_index (k : Slot) : producesPixel (.index k) (s.dec.cache.lookup k) s :=
  producesPixel_of_chunk (px := fun d => d.cache.lookup k) rfl

/-- R206: a DIFF whose fields hold deltas in range adds these deltas. -/
theorem producesPixel_diff {dr dg db : Int} (hr : -2 ≤ dr ∧ dr ≤ 1) (hg : -2 ≤ dg ∧ dg ≤ 1) (hb : -2 ≤ db ∧ db ≤ 1) :
    producesPixel (.diff (biasField 2 2 dr) (biasField 2 2 dg) (biasField 2 2 db))
      (diffApply s.dec.prev dr dg db) s := by
  have hpx := producesPixel_of_chunk (s := s)
    (i := .diff (biasField 2 2 dr) (biasField 2 2 dg) (biasField 2 2 db)) (px := fun d => diffApply d.prev _ _ _) rfl
  rwa [unbias_biasField (by omega) (by omega), unbias_biasField (by omega) (by omega),
    unbias_biasField (by omega) (by omega)] at hpx

/-- R207: a LUMA whose fields hold deltas in range adds these deltas. -/
theorem producesPixel_luma {dg drdg dbdg : Int} (hg : -32 ≤ dg ∧ dg ≤ 31) (hrg : -8 ≤ drdg ∧ drdg ≤ 7)
    (hbg : -8 ≤ dbdg ∧ dbdg ≤ 7) :
    producesPixel (.luma (biasField 6 32 dg) (biasField 4 8 drdg) (biasField 4 8 dbdg))
      (lumaApply s.dec.prev dg drdg dbdg) s := by
  have hpx := producesPixel_of_chunk (s := s)
    (i := .luma (biasField 6 32 dg) (biasField 4 8 drdg) (biasField 4 8 dbdg))
    (px := fun d => lumaApply d.prev _ _ _) rfl
  rwa [unbias_biasField (by omega) (by omega), unbias_biasField (by omega) (by omega),
    unbias_biasField (by omega) (by omega)] at hpx

end

/-! ### Lockstep over one pixel -/

/-- R174 to R178 against R203 to R207: the chunk that the encoder writes for a pixel is the encoding of an instruction
that produces the pixel in every decoder that agrees with the encoder. -/
theorem Enc.emitPixel_producesPixel (e : Enc) (cur : Colour) :
    ∃ i, placeOf i = .chunk ∧ i.wellFormed = true ∧ e.emitPixel cur = e.bytesWrite (encode i) ∧
      ∀ s : State, lockstep e s.dec → producesPixel i cur s := by
  rcases e.emitPixel_cases cur with ⟨hhit, hw⟩ | ⟨-, hfits, hw⟩ | ⟨-, -, hfits, hw⟩ | ⟨-, -, -, ha, hw⟩ | ⟨-, -, -, -, hw⟩
  · -- INDEX (R174, R205)
    refine ⟨.index (colourHash cur), rfl, rfl, hw.trans (by rw [setWidth_eq_encode_index]), ?_⟩
    rintro s ⟨-, hcache⟩
    have hpx := producesPixel_index s (colourHash cur)
    rwa [← hcache, hhit] at hpx
  · -- DIFF (R175, R206)
    obtain ⟨ha, hr, hg, hb⟩ := (diffFits_iff cur e.prev).mp hfits
    refine ⟨.diff _ _ _, rfl, rfl, hw.trans (by rw [diffByte_eq_encode hr hg hb]), ?_⟩
    rintro s ⟨hprev, -⟩
    have hpx := producesPixel_diff s hr hg hb
    rwa [← hprev, diffApply_deltas ha] at hpx
  · -- LUMA (R176, R207)
    obtain ⟨ha, hg, hrg, hbg⟩ := (lumaFits_iff cur e.prev).mp hfits
    refine ⟨.luma _ _ _, rfl, rfl, hw.trans (by rw [lumaBytes_eq_encode hg hrg hbg]), ?_⟩
    rintro s ⟨hprev, -⟩
    have hpx := producesPixel_luma s hg hrg hbg
    rwa [← hprev, lumaApply_deltas ha] at hpx
  · -- RGB (R177, R204)
    refine ⟨.rgb cur.r cur.g cur.b, rfl, rfl, hw, ?_⟩
    rintro s ⟨hprev, -⟩
    have hpx := producesPixel_rgb s cur.r cur.g cur.b
    rwa [← hprev, ← ha] at hpx
  · -- RGBA (R178, R203)
    exact ⟨.rgba cur.r cur.g cur.b cur.a, rfl, rfl, hw, fun s _ => producesPixel_rgba s _ _ _ _⟩

/-- R171: with no run pending there is nothing to flush. -/
theorem Enc.flushPending_of_run_zero {e : Enc} (h : e.run = 0) : e.flushPending = e := by
  rw [Enc.flushPending, if_neg (by omega)]

/-- R171, R179: with no run pending, a pixel that differs from `PREV` writes its chunk's bytes and is stored. -/
theorem Enc.pixelStep_of_run_zero {e : Enc} {cur : Colour} {bs : List Byte} (hrun : e.run = 0) (hne : cur ≠ e.prev)
    (hbs : e.emitPixel cur = e.bytesWrite bs) :
    e.pixelStep cur = { e with
      byteOut := e.byteOut.writeMany e.bout bs
      bout := e.bout + bs.length
      cache := e.cache.store cur
      prev := cur } := by
  rw [Enc.pixelStep, if_neg hne, Enc.flushPending_of_run_zero hrun, hbs, Enc.bytesWrite_eq]
  rfl

/-- Settles O56: the encoder stores the pixel whose chunk it writes, the decoder the pixel that the chunk produces, and
these are the same. -/
theorem lockstepOverOnePixel : Obligations.LockstepOverOnePixel := by
  intro e s n cur hlock hrun hne hn
  obtain ⟨i, hplace, hwf, hbs, hpx⟩ := e.emitPixel_producesPixel cur
  rw [Enc.pixelStep_of_run_zero hrun hne hbs]
  refine ⟨i, hplace, hwf, rfl, congrArg (e.bout + ·) (length_encode_of_chunk hplace), fun hl => ?_⟩
  refine ⟨_, hpx s hlock n hn hl, ?_, rfl, rfl, ?_⟩
  · obtain ⟨-, hcache⟩ := hlock
    exact ⟨rfl, congrArg (Cache.store · cur) hcache⟩
  · exact (Memory.readColour_writeColour _ _ _ _).trans (if_pos rfl)

/-! ### Lockstep over one run -/

/-- R208: a RUN of `k` pixels, all of them owed, repeats `PREV` `k` times and does not clip. -/
theorem Dec.chunk_repeatPrev_owed {d : Dec} {n k : Nat} (h : d.inChunks n) (hl : d.bpos < d.blen) (hk : 1 ≤ k)
    (hfit : d.pcnt + k ≤ n) :
    d.chunk 1 (Dec.repeatPrev k) = { d with
      bpos := d.bpos + 1
      pixOut := d.pixOut.writeColours d.pcnt (List.replicate k d.prev)
      pcnt := d.pcnt + k
      cache := d.cache.store d.prev
      rrem := 0
      phase := if n ≤ d.pcnt + k then .trailer else .chunks } := by
  have hmin : min k (n - d.pcnt) = k := by omega
  have hclip : decide (n - d.pcnt < k) = false := decide_eq_false (by omega)
  rw [Dec.chunk_fires h hl, Dec.repeatPrev_leaveChunks h 1 hk, hmin, hclip, Bool.or_false]

/-- Each of the pixels written by repeating one Colour reads as it. -/
theorem Memory.readColour_writeColours_replicate (m : Memory) {a k j : Nat} (c : Colour) (hlo : a ≤ j)
    (hhi : j < a + k) : (m.writeColours a (List.replicate k c)).readColour j = some c := by
  rw [Memory.readColour_writeColours, List.length_replicate, if_pos ⟨hlo, hhi⟩, List.getElem?_replicate,
    if_pos (by omega)]

/-- Settles O57: the flush stores `PREV` once, and so does the RUN that its byte encodes. -/
theorem lockstepOverOneRun : Obligations.LockstepOverOneRun := by
  rintro e s n ⟨hprev, hcache⟩ hlo hhi hn hfit hl
  have hexec : exec (.run (runPayload e.run)) s = .next (s.setDec (s.dec.chunk 1 (Dec.repeatPrev e.run))) := by
    rw [exec_run, runLength_runPayload hlo hhi]
  rw [Dec.chunk_repeatPrev_owed hn hl hlo hfit, ← hprev, ← hcache] at hexec
  refine ⟨runPayload e.run, _, wellFormed_runPayload hlo hhi, ?_, hexec, ⟨rfl, rfl⟩, rfl, rfl, fun j hj hj' => ?_⟩
  · rw [← runByte_eq_encode hlo hhi]
    rfl
  · exact Memory.readColour_writeColours_replicate _ _ hj hj'

end Sys2Proof.Machine
end

section
/-! SUPPORT. The range tests of the delta unit (spec/42_delta_unit.md): what they say of integers modulo 256 (R152, R153),
their unsigned forms (R154) and the inverse laws (R159). -/

namespace Sys2Proof.Machine

/-! ### The range tests by integers modulo 256 -/

/-- The relation `isPlus` as a congruence on the difference of the two bytes. -/
theorem isPlus_iff_sub_mod (x y : Byte) (d : Int) : isPlus x y d ↔ (d - ((x.toNat : Int) - y.toNat)) % 256 = 0 := by
  have hx := x.isLt
  rw [isPlus]
  omega

/-- R153: the sum of two integers takes `y` to `x` exactly when the first is the channel delta less the second, modulo
256. -/
theorem isPlus_add_iff (x y : Byte) (d dg : Int) : isPlus x y (d + dg) ↔ (d - (chanDelta x y - dg)) % 256 = 0 := by
  have hdelta := (isPlus_iff_sub_mod x y (chanDelta x y)).mp (isPlus_chanDelta x y)
  rw [isPlus_iff_sub_mod]
  omega

section
variable {lo hi : Int} (hlo : -128 ≤ lo) (hhi : hi ≤ 127)
include hlo hhi

/-- spec/00_scope.md section 5: `sgn8 z` is in a range of `s8` values exactly when that range holds a number congruent to
`z`, for no two `s8` values are congruent. -/
theorem sgn8_mem_iff (z : Int) : (lo ≤ sgn8 z ∧ sgn8 z ≤ hi) ↔ ∃ d, lo ≤ d ∧ d ≤ hi ∧ (d - z) % 256 = 0 := by
  obtain ⟨hmin, hmax, hmod⟩ := sgn8_spec z
  constructor
  · rintro ⟨h1, h2⟩
    exact ⟨sgn8 z, h1, h2, hmod⟩
  · rintro ⟨d, h1, h2, hd⟩
    have heq : sgn8 z = d := by omega
    exact heq ▸ ⟨h1, h2⟩

/-- R151, R152: a channel delta is in range exactly when an integer in range takes the previous channel to the current
one. -/
theorem chanDelta_mem_iff (x y : Byte) :
    (lo ≤ chanDelta x y ∧ chanDelta x y ≤ hi) ↔ ∃ d, lo ≤ d ∧ d ≤ hi ∧ isPlus x y d := by
  simp only [isPlus_iff_sub_mod]
  exact sgn8_mem_iff hlo hhi _

/-- R153: a channel delta less `dg`, as an `s8`, is in range exactly when an integer in range, added to `dg`, takes the
previous channel to the current one. -/
theorem relativeDelta_mem_iff (x y : Byte) (dg : Int) :
    (lo ≤ sgn8 (chanDelta x y - dg) ∧ sgn8 (chanDelta x y - dg) ≤ hi) ↔
      ∃ d, lo ≤ d ∧ d ≤ hi ∧ isPlus x y (d + dg) := by
  simp only [isPlus_add_iff]
  exact sgn8_mem_iff hlo hhi _

end

/-- R152: `diff_fits` by the three integers that take `PREV` to the pixel. -/
theorem diffFits_iff_exists (cur prev : Colour) :
    diffFits cur prev = true ↔ cur.a = prev.a ∧ ∃ dr dg db : Int, -2 ≤ dr ∧ dr ≤ 1 ∧ -2 ≤ dg ∧ dg ≤ 1 ∧
      -2 ≤ db ∧ db ≤ 1 ∧ isPlus cur.r prev.r dr ∧ isPlus cur.g prev.g dg ∧ isPlus cur.b prev.b db := by
  have hmem := @chanDelta_mem_iff (-2) 1 (by decide) (by decide)
  rw [diffFits_iff, deltaR, deltaG, deltaB, hmem, hmem, hmem]
  refine and_congr_right fun _ => ⟨?_, ?_⟩
  · rintro ⟨⟨dr, hr, hr', hpr⟩, ⟨dg, hg, hg', hpg⟩, db, hb, hb', hpb⟩
    exact ⟨dr, dg, db, hr, hr', hg, hg', hb, hb', hpr, hpg, hpb⟩
  · rintro ⟨dr, dg, db, hr, hr', hg, hg', hb, hb', hpr, hpg, hpb⟩
    exact ⟨⟨dr, hr, hr', hpr⟩, ⟨dg, hg, hg', hpg⟩, db, hb, hb', hpb⟩

/-- R153: `luma_fits` by the green integer and the two relative to it that take `PREV` to the pixel. The green integer is
the green delta, so that the relative ones are those of the test. -/
theorem lumaFits_iff_exists (cur prev : Colour) :
    lumaFits cur prev = true ↔ cur.a = prev.a ∧ ∃ dg drdg dbdg : Int, -32 ≤ dg ∧ dg ≤ 31 ∧ -8 ≤ drdg ∧ drdg ≤ 7 ∧
      -8 ≤ dbdg ∧ dbdg ≤ 7 ∧ isPlus cur.r prev.r (drdg + dg) ∧ isPlus cur.g prev.g dg ∧
      isPlus cur.b prev.b (dbdg + dg) := by
  have hrel := @relativeDelta_mem_iff (-8) 7 (by decide) (by decide)
  rw [lumaFits_iff, deltaRG, deltaBG, deltaR, deltaB, hrel, hrel]
  refine and_congr_right fun _ => ⟨?_, ?_⟩
  · rintro ⟨⟨hg, hg'⟩, ⟨drdg, hr, hr', hpr⟩, dbdg, hb, hb', hpb⟩
    exact ⟨deltaG cur prev, drdg, dbdg, hg, hg', hr, hr', hb, hb', hpr, isPlus_chanDelta _ _, hpb⟩
  · rintro ⟨dg, drdg, dbdg, hg, hg', hr, hr', hb, hb', hpr, hpg, hpb⟩
    obtain rfl : deltaG cur prev = dg := chanDelta_of_isPlus hpg (by omega) (by omega)
    exact ⟨⟨hg, hg'⟩, ⟨drdg, hr, hr', hpr⟩, dbdg, hb, hb', hpb⟩

/-- Settles O31: each range test by the integers it finds. -/
theorem rangeTestsFindTheDeltas : Obligations.RangeTestsFindTheDeltas :=
  fun cur prev => ⟨diffFits_iff_exists cur prev, lumaFits_iff_exists cur prev⟩

/-! ### The unsigned forms of the range tests -/

theorem toNat_wrap8 (z : Int) : ((wrap8 z).toNat : Int) = z % 256 :=
  ((wrap8_eq_iff z _).mp rfl).symm

theorem wrap8_eq_wrap8_iff (z z' : Int) : wrap8 z = wrap8 z' ↔ z % 256 = z' % 256 := by
  rw [wrap8_eq_iff, toNat_wrap8]

/-- R154: with a bias `k` that takes the range to `0 .. n - 1`, the test of an `s8` is one unsigned comparison: below the
range the sum wraps to at least `k + 128`, which is not less than `n`. -/
theorem inRange_iff_wrap8_lt {lo hi k d : Int} {n : Nat} (hd : -128 ≤ d) (hd' : d ≤ 127) (hlo : lo + k = 0)
    (hhi : hi + k + 1 = n) (hk : 0 ≤ k ∧ k ≤ 128) (hn : n ≤ k + 128) :
    inRange lo hi d = true ↔ (wrap8 (d + k)).toNat < n := by
  have hwrap := toNat_wrap8 (d + k)
  rw [inRange_iff]
  omega

/-- R154: a biased value of a range that the bias takes into a byte is the field, without a wrap. -/
theorem add_eq_wrap8_of_inRange {lo hi k d : Int} (hlo : 0 ≤ lo + k) (hhi : hi + k < 256)
    (h : inRange lo hi d = true) : d + k = (wrap8 (d + k)).toNat := by
  obtain ⟨h1, h2⟩ := (inRange_iff lo hi d).mp h
  rw [toNat_wrap8, Int.emod_eq_of_lt (by omega) (by omega)]

/-- R154: a bias may be added to the byte difference instead of the delta, for the two are congruent modulo 256. -/
theorem wrap8_chanDelta_add (x y : Byte) (k : Int) : wrap8 (chanDelta x y + k) = wrap8 ((x - y).toNat + k) := by
  have hdelta := (isPlus_iff_sub_mod x y (chanDelta x y)).mp (isPlus_chanDelta x y)
  have hy := y.isLt
  rw [wrap8_eq_wrap8_iff, BitVec.toNat_sub]
  omega

/-- Settles O32: the biases 2, 32 and 8 take the three ranges to 0 .. 3, 0 .. 63 and 0 .. 15. -/
theorem rangeTestsAreUnsigned : Obligations.RangeTestsAreUnsigned := by
  refine ⟨fun d hd hd' => ⟨?_, ?_, ?_, ?_, ?_, ?_⟩, wrap8_chanDelta_add⟩
  · exact inRange_iff_wrap8_lt hd hd' (by decide) (by decide) (by decide) (by decide)
  · exact inRange_iff_wrap8_lt hd hd' (by decide) (by decide) (by decide) (by decide)
  · exact inRange_iff_wrap8_lt hd hd' (by decide) (by decide) (by decide) (by decide)
  · exact add_eq_wrap8_of_inRange (by decide) (by decide)
  · exact add_eq_wrap8_of_inRange (by decide) (by decide)
  · exact add_eq_wrap8_of_inRange (by decide) (by decide)

/-! ### The inverse laws -/

/-- Settles O33: both tests hold only for Colours of the same alpha, and between these applying inverts the deltas. -/
theorem applyInvertsDelta : Obligations.ApplyInvertsDelta := by
  refine fun cur prev => ⟨fun hfits => ?_, fun hfits => ?_⟩
  · obtain ⟨ha, -⟩ := (diffFits_iff cur prev).mp hfits
    exact diffApply_deltas ha
  · obtain ⟨ha, -⟩ := (lumaFits_iff cur prev).mp hfits
    exact lumaApply_deltas ha

end Sys2Proof.Machine
end

section
/-! SUPPORT. One step of the encoder in PIXELS and in FINISH (spec/43_encoder.md R171 to R181, R184): the bytes that a
pixel's chunk has, as a function of the cache, `PREV` and the pixel, and the growth and the flush of a run. -/

namespace Sys2Proof.Machine

/-! ### The chunk of a pixel that differs from `PREV` -/

/-- R171, R174 to R178, R181: the bytes of the first of INDEX, DIFF, LUMA, RGB, RGBA that applies to the pixel `cur` after
the pixel `prev`, with the cache `k`. -/
def chunkBytes (k : Cache) (prev cur : Colour) : List Byte :=
  if k.lookup (colourHash cur) = cur then [(colourHash cur).setWidth 8]
  else if diffFits cur prev then [diffByte (deltaR cur prev) (deltaG cur prev) (deltaB cur prev)]
  else if lumaFits cur prev then [lumaByte0 (deltaG cur prev), lumaByte1 (deltaRG cur prev) (deltaBG cur prev)]
  else if alphaSame cur prev then [0xFE, cur.r, cur.g, cur.b]
  else [0xFF, cur.r, cur.g, cur.b, cur.a]

/-- R171: the encoder writes the chunk's bytes for its own cache and `PREV`. -/
theorem Enc.emitPixel_eq_chunkBytes (e : Enc) (cur : Colour) :
    e.emitPixel cur = e.bytesWrite (chunkBytes e.cache e.prev cur) := by
  unfold Enc.emitPixel chunkBytes
  split
  · rfl
  split
  · rfl
  split
  · rfl
  split <;> rfl

/-- R171, R179: a pixel other than `PREV` gives the byte of the pending run, if there is one, and then the chunk that
applies once that run is flushed. -/
theorem Enc.pixelStep_of_ne {e : Enc} {cur : Colour} (hne : cur ≠ e.prev) :
    e.pixelStep cur = { e with
      byteOut := e.byteOut.writeMany e.bout (e.pendingBytes ++ chunkBytes e.flushedCache e.prev cur)
      bout := e.bout + (e.pendingBytes ++ chunkBytes e.flushedCache e.prev cur).length
      cache := e.flushedCache.store cur
      run := 0
      prev := cur } := by
  have hbs := e.flushPending.emitPixel_eq_chunkBytes cur
  rw [Enc.pixelStep_eq hne hbs, Enc.flushPending_eq]

/-- R171: the step that reads a pixel other than `PREV`. -/
theorem Enc.step_reads_of_ne {e : Enc} {cur : Colour} (h : e.reads cur) (hne : cur ≠ e.prev) :
    e.step = some (e.wrote cur (chunkBytes e.flushedCache e.prev cur)) := by
  obtain ⟨hp, -⟩ := id h
  rw [Enc.step_reads h, Enc.pixelStep_of_ne (e := { e with pidx := e.pidx + 1 }) hne, Enc.leavePixels_eq, hp]
  rfl

section
variable {k : Cache} {prev cur : Colour}

/-- R174, R93: the INDEX chunk. -/
theorem chunkBytes_of_hit (hhit : k.lookup (colourHash cur) = cur) :
    chunkBytes k prev cur = [BitVec.ofNat 8 (colourHash cur).toNat] := by
  rw [chunkBytes, if_pos hhit, BitVec.ofNat_toNat]

variable (hmiss : k.lookup (colourHash cur) ≠ cur)
include hmiss

/-- R175: the DIFF chunk. -/
theorem chunkBytes_of_diffFits (hdiff : diffFits cur prev = true) :
    chunkBytes k prev cur = [diffByte (deltaR cur prev) (deltaG cur prev) (deltaB cur prev)] := by
  rw [chunkBytes, if_neg hmiss, if_pos hdiff]

/-- R176: the LUMA chunk. -/
theorem chunkBytes_of_lumaFits (hdiff : diffFits cur prev = false) (hluma : lumaFits cur prev = true) :
    chunkBytes k prev cur = [lumaByte0 (deltaG cur prev), lumaByte1 (deltaRG cur prev) (deltaBG cur prev)] := by
  rw [chunkBytes, if_neg hmiss, hdiff, if_neg Bool.false_ne_true, if_pos hluma]

/-- R177: the RGB chunk. -/
theorem chunkBytes_of_alphaSame (hdiff : diffFits cur prev = false) (hluma : lumaFits cur prev = false)
    (ha : cur.a = prev.a) : chunkBytes k prev cur = [0xFE, cur.r, cur.g, cur.b] := by
  rw [chunkBytes, if_neg hmiss, hdiff, if_neg Bool.false_ne_true, hluma, if_neg Bool.false_ne_true,
    if_pos ((alphaSame_iff cur prev).mpr ha)]

/-- R155, R178: the RGBA chunk; the alpha gate stands in both range tests, so neither DIFF nor LUMA fits. -/
theorem chunkBytes_of_alpha_ne (ha : cur.a ≠ prev.a) :
    chunkBytes k prev cur = [0xFF, cur.r, cur.g, cur.b, cur.a] := by
  have hdiff : ¬ diffFits cur prev = true := fun h => ha ((diffFits_iff cur prev).mp h).1
  have hluma : ¬ lumaFits cur prev = true := fun h => ha ((lumaFits_iff cur prev).mp h).1
  rw [chunkBytes, if_neg hmiss, if_neg hdiff, if_neg hluma, if_neg (mt (alphaSame_iff cur prev).mp ha)]

end

/-- spec/00_scope.md section 5: an `s8` congruent to an integer modulo 256 is its `sgn8`. -/
theorem sgn8_eq_of_mod {z d : Int} (hlo : -128 ≤ d) (hhi : d ≤ 127) (h : (d - z) % 256 = 0) : sgn8 z = d := by
  obtain ⟨hmin, hmax, hmod⟩ := sgn8_spec z
  omega

/-- Settles O38: a hit is tested first. -/
theorem encoderWritesIndex : Obligations.EncoderWritesIndex := by
  intro e cur hreads hne hhit
  rw [Enc.step_reads_of_ne hreads hne, chunkBytes_of_hit hhit]

/-- Settles O39: the integers that the statement gives are the three deltas. -/
theorem encoderWritesDiff : Obligations.EncoderWritesDiff := by
  intro e cur dr dg db hreads hne hmiss ha hr hr' hg hg' hb hb' hpr hpg hpb
  have hfits := (diffFits_iff_exists cur e.prev).mpr ⟨ha, dr, dg, db, hr, hr', hg, hg', hb, hb', hpr, hpg, hpb⟩
  have hdr : deltaR cur e.prev = dr := chanDelta_of_isPlus hpr (by omega) (by omega)
  have hdg : deltaG cur e.prev = dg := chanDelta_of_isPlus hpg (by omega) (by omega)
  have hdb : deltaB cur e.prev = db := chanDelta_of_isPlus hpb (by omega) (by omega)
  rw [Enc.step_reads_of_ne hreads hne, chunkBytes_of_diffFits hmiss hfits, hdr, hdg, hdb]
  rfl

/-- Settles O40: the integers that the statement gives are the green delta and the two relative to it. -/
theorem encoderWritesLuma : Obligations.EncoderWritesLuma := by
  intro e cur dg drdg dbdg hreads hne hmiss hdiff ha hg hg' hr hr' hb hb' hpr hpg hpb
  have hfits :=
    (lumaFits_iff_exists cur e.prev).mpr ⟨ha, dg, drdg, dbdg, hg, hg', hr, hr', hb, hb', hpr, hpg, hpb⟩
  have hdg : deltaG cur e.prev = dg := chanDelta_of_isPlus hpg (by omega) (by omega)
  have hdrdg : deltaRG cur e.prev = drdg := by
    rw [deltaRG, hdg]
    exact sgn8_eq_of_mod (by omega) (by omega) ((isPlus_add_iff _ _ _ _).mp hpr)
  have hdbdg : deltaBG cur e.prev = dbdg := by
    rw [deltaBG, hdg]
    exact sgn8_eq_of_mod (by omega) (by omega) ((isPlus_add_iff _ _ _ _).mp hpb)
  rw [Enc.step_reads_of_ne hreads hne, chunkBytes_of_lumaFits hmiss hdiff hfits, hdg, hdrdg, hdbdg]
  rfl

/-- Settles O41: the fourth of the tests. -/
theorem encoderWritesRgb : Obligations.EncoderWritesRgb := by
  intro e cur hreads hne hmiss hdiff hluma ha
  rw [Enc.step_reads_of_ne hreads hne, chunkBytes_of_alphaSame hmiss hdiff hluma ha]

/-- Settles O42: an alpha that differs closes the alpha gate of DIFF, LUMA and RGB. -/
theorem encoderWritesRgba : Obligations.EncoderWritesRgba := by
  intro e cur hreads hne hmiss ha
  rw [Enc.step_reads_of_ne hreads hne, chunkBytes_of_alpha_ne hmiss ha]

/-! ### A pixel equal to `PREV` -/

/-- R172: the extension of the run by a pixel that is known to equal `PREV`. -/
theorem Enc.pixelStep_of_eq_prev {e : Enc} {cur : Colour} (h : cur = e.prev) :
    e.pixelStep cur =
      if e.run = 61 then
        { e with byteOut := e.byteOut.write e.bout 0xFD, bout := e.bout + 1, cache := e.cache.store e.prev, run := 0 }
      else { e with run := e.run + 1 } :=
  h ▸ Enc.pixelStep_prev e

/-- R171, R172: a step that reads `PREV` again is the extension of the run, after the pixel is counted. -/
theorem Enc.step_reads_prev {e : Enc} (h : e.reads e.prev) :
    e.step = some (Enc.leavePixels
      (if e.run = 61 then
        { e with
          pidx := e.pidx + 1, byteOut := e.byteOut.write e.bout 0xFD, bout := e.bout + 1
          cache := e.cache.store e.prev, run := 0 }
      else { e with pidx := e.pidx + 1, run := e.run + 1 })) :=
  (Enc.step_reads h).trans (congrArg (some ∘ Enc.leavePixels) (Enc.pixelStep_of_eq_prev rfl))

/-- Settles O36: below 61 the counter grows. -/
theorem equalPixelExtendsTheRun : Obligations.EqualPixelExtendsTheRun := by
  intro e hreads hrun
  obtain ⟨hp, -⟩ := id hreads
  rw [Enc.step_reads_prev hreads, if_neg (by omega), Enc.leavePixels_eq, hp]

/-- Settles O37: at 61 the pixel completes a run of 62, which is flushed. -/
theorem runIsFlushedAt62 : Obligations.RunIsFlushedAt62 := by
  intro e hreads hrun
  obtain ⟨hp, -⟩ := id hreads
  rw [Enc.step_reads_prev hreads, if_pos hrun, Enc.leavePixels_eq, hp]

/-- R172, R173, R184: `n` pixels equal to `PREV` from `RUN = 0` write a byte FD for each full 62 of them and leave the
rest pending. -/
theorem Enc.iterate_pixelStep_prev {e : Enc} (hrun : e.run = 0) (n : Nat) :
    ∃ k : Cache, Nat.iterate (Enc.pixelStep e.prev) n e = { e with
      byteOut := e.byteOut.writeMany e.bout (List.replicate (n / 62) 0xFD)
      bout := e.bout + n / 62
      cache := k
      run := n % 62 } := by
  induction n with
  | zero =>
    have hzero : e = { e with run := 0 } := by rw [← hrun]
    exact ⟨e.cache, hzero⟩
  | succ n ih =>
    obtain ⟨k, hk⟩ := ih
    rw [Function.iterate_succ_apply', hk]
    by_cases hfull : n % 62 = 61
    · have hdiv : (n + 1) / 62 = n / 62 + 1 := by omega
      have hmod : (n + 1) % 62 = 0 := by omega
      refine ⟨k.store e.prev, (Enc.pixelStep_of_eq_prev (by rfl)).trans ((if_pos hfull).trans ?_)⟩
      rw [hdiv, hmod, List.replicate_succ', Memory.writeMany_append, List.length_replicate]
      rfl
    · have hdiv : (n + 1) / 62 = n / 62 := by omega
      have hmod : (n + 1) % 62 = n % 62 + 1 := by omega
      refine ⟨k, (Enc.pixelStep_of_eq_prev (by rfl)).trans ((if_neg hfull).trans ?_)⟩
      rw [hdiv, hmod]

/-- Settles O45: the flush writes the byte of the rest after the bytes FD. -/
theorem runCap : Obligations.RunCap := by
  intro e n hrun
  obtain ⟨k, hk⟩ := Enc.iterate_pixelStep_prev hrun n
  rw [hk, Enc.flushPending_eq, Memory.writeMany_append, List.length_replicate]
  rfl

/-! ### EncFinish -/

/-- R180, R127: finishing writes the byte of the pending run, if there is one, and the end marker. -/
theorem Enc.finish_eq_pendingBytes (e : Enc) :
    e.finish = { e with
      byteOut := e.byteOut.writeMany e.bout (e.pendingBytes ++ [0, 0, 0, 0, 0, 0, 0, 1])
      bout := e.bout + (e.pendingBytes.length + 8)
      cache := e.flushedCache
      run := 0
      phase := .done } := by
  rw [Enc.finish, Enc.emitEnd, Enc.bytesWrite_eq, Enc.flushPending_eq, Memory.writeMany_append]
  rfl

/-- R170, R268: in FINISH, with the host accepting, the encoder finishes. -/
theorem Enc.step_finish {e : Enc} (hp : e.phase = .finish) (hready : e.outReady = true) :
    e.step = some e.finish := by
  simp only [Enc.step, hp, hready, if_true]

/-- Settles O44: the step in FINISH is EncFinish. -/
theorem encoderFinishes : Obligations.EncoderFinishes := by
  intro e hp hready
  rw [Enc.step_finish hp hready, Enc.finish_eq_pendingBytes]

end Sys2Proof.Machine
end

section
/-! SUPPORT. The result of a run (spec/43_encoder.md R183; spec/44_decoder.md R216; spec/60_exceptions.md R235, R238). -/

namespace Sys2Proof.Machine

/-- R238: a decoder run has a result exactly when it is over. -/
theorem Dec.result_isSome_iff (d : Dec) : d.result.isSome = true ↔ d.phase = .done ∨ d.phase = .error := by
  cases hp : d.phase <;> simp [Dec.result, hp]

/-- R238: an encoder run has a result exactly when it is over. -/
theorem Enc.result_isSome_iff (e : Enc) : e.result.isSome = true ↔ e.phase = .done ∨ e.phase = .error := by
  cases hp : e.phase <;> simp [Enc.result, hp]

/-- R216: the result of a decoder run that is DONE. -/
theorem Dec.result_of_done {d : Dec} (hp : d.phase = .done) :
    d.result = some (.done d.hdr d.pixOut d.endMismatch d.runClip d.bpos) := by
  simp only [Dec.result, hp]

/-- R235: the result of a decoder run in ERROR. -/
theorem Dec.result_of_error {d : Dec} (hp : d.phase = .error) : d.result = some (.error d.err) := by
  simp only [Dec.result, hp]

/-- R183: the result of an encoder run that is DONE. -/
theorem Enc.result_of_done {e : Enc} (hp : e.phase = .done) : e.result = some (.done e.byteOut) := by
  simp only [Enc.result, hp]

/-- R235: the result of an encoder run in ERROR. -/
theorem Enc.result_of_error {e : Enc} (hp : e.phase = .error) : e.result = some (.error e.err) := by
  simp only [Enc.result, hp]

/-- R216: a sound decoder that is DONE has no error, a valid Header and exactly the Header's pixels. -/
theorem Dec.output_of_done {d : Dec} (h : d.Inv) (hp : d.phase = .done) :
    d.err = .none ∧ ∃ hd : Header, hd.valid = true ∧ d.hdr = some hd ∧ d.pixOut.filledTo (4 * hd.pixels) := by
  obtain ⟨-, -, -, -, -, -, hfill, hphase⟩ := h
  simp only [Dec.phaseSound, hp] at hphase
  obtain ⟨⟨hd, hv, hhdr, hnpix, -, herr⟩, hcount⟩ := hphase
  have hpix : d.pcnt = hd.pixels := Option.some.inj (hcount.symm.trans hnpix)
  exact ⟨herr, hd, hv, hhdr, hpix ▸ hfill⟩

/-- Settles O50: the results by phase, and what the invariant says of them. -/
theorem resultIsErrorOrCompleteOutput : Obligations.ResultIsErrorOrCompleteOutput := by
  refine fun s => ⟨Dec.result_isSome_iff _, Enc.result_isSome_iff _, Dec.result_of_error, Enc.result_of_error,
    fun ⟨henc, hdec⟩ => ⟨fun hp => ?_, fun hp => ?_, fun hp => ?_, fun hp => ?_⟩⟩
  · obtain ⟨-, hphase⟩ := (Dec.inv_iff s.dec).mp hdec
    exact (Dec.phase_eq_error_iff hphase).mp hp
  · obtain ⟨herr, hd, hv, hhdr, hfill⟩ := Dec.output_of_done hdec hp
    exact ⟨herr, hd, hv, hhdr ▸ Dec.result_of_done hp, hfill⟩
  · obtain ⟨-, -, -, -, -, -, hphase⟩ := henc
    simp only [Enc.phaseSound, hp] at hphase
    obtain ⟨herr, -, -, hbout, -⟩ := hphase
    exact ⟨herr, hbout⟩
  · obtain ⟨-, -, -, -, -, hfill, hphase⟩ := henc
    simp only [Enc.phaseSound, hp] at hphase
    obtain ⟨herr, -⟩ := hphase
    exact ⟨herr, Enc.result_of_done hp, hfill⟩

end Sys2Proof.Machine
end

section
/-! SUPPORT. A whole run of the encoder (spec/43_encoder.md R170, R182; spec/70_reset_and_hazards.md R262, R268): with all
its pixels offered and the host accepting it never waits, each step brings it closer to DONE, and the bytes written stay
within the bounds of R182. -/

namespace Sys2Proof.Machine

/-! ### What a run keeps, and the steps it has left -/

/-- R262, R268: a run from HEADER to DONE that is sound and never waits, for the host accepts bytes and has offered every
pixel. -/
structure Enc.Supplied (e : Enc) : Prop where
  inv : e.Inv
  inRun : e.phase = .header ∨ e.phase = .pixels ∨ e.phase = .finish ∨ e.phase = .done
  ready : e.outReady = true
  offered : ∀ j < e.npix, ∃ cur, e.pixIn.readColour j = some cur

/-- R170: the steps to DONE: the HEADER frame, one for each pixel to be read, EncFinish. -/
def Enc.stepsLeft (e : Enc) : Nat :=
  match e.phase with
  | .header => e.npix - e.pidx + 2
  | .pixels => e.npix - e.pidx + 1
  | .finish => 1
  | .idle => 0
  | .done => 0
  | .error => 0

/-- What a run reads and no step writes: its Header, its input and the host's readiness. -/
def Enc.sameRun (e e' : Enc) : Prop :=
  e'.hdr = e.hdr ∧ e'.npix = e.npix ∧ e'.pixIn = e.pixIn ∧ e'.outReady = e.outReady

/-- R170: the moves of the encoder leave the Header, the input and the host's readiness, and go on in the run. -/
theorem Enc.step_sameRun {e e' : Enc} (h : e.step = some e') :
    e.sameRun e' ∧ (e'.phase = .pixels ∨ e'.phase = .finish ∨ e'.phase = .done) := by
  rcases Enc.step_cases h with ⟨-, rfl⟩ | ⟨cur, hp, -, rfl⟩ | ⟨-, -, rfl⟩ | ⟨-, rfl⟩
  · obtain ⟨bs, -, heq⟩ := e.emitHeader_eq
    rw [heq]
    exact ⟨⟨rfl, rfl, rfl, rfl⟩, .inl rfl⟩
  · obtain ⟨bs, k, n, -, -, heq⟩ := Enc.pixelStep_appends { e with pidx := e.pidx + 1 } cur
    rw [heq, Enc.leavePixels_eq]
    refine ⟨⟨rfl, rfl, rfl, rfl⟩, ?_⟩
    by_cases hmore : e.pidx + 1 < e.npix
    · exact .inl ((if_pos hmore).trans hp)
    · exact .inr (.inl (if_neg hmore))
  · exact ⟨⟨rfl, rfl, rfl, rfl⟩, .inr (.inl rfl)⟩
  · rw [Enc.finish_eq_pendingBytes]
    exact ⟨⟨rfl, rfl, rfl, rfl⟩, .inr (.inr rfl)⟩

/-- R170: a supplied run stays supplied. -/
theorem Enc.supplied_step {e e' : Enc} (h : e.Supplied) (hs : e.step = some e') : e'.Supplied := by
  obtain ⟨⟨-, hnpix, hpixIn, hready⟩, hphase⟩ := Enc.step_sameRun hs
  exact ⟨Enc.inv_step h.inv hs, .inr hphase, hready.trans h.ready, by rw [hnpix, hpixIn]; exact h.offered⟩

/-- R170, R268: a supplied run that is not DONE takes a step, and has one step less to take. -/
theorem Enc.exists_step_of_supplied {e : Enc} (h : e.Supplied) (hnd : e.phase ≠ .done) :
    ∃ e', e.step = some e' ∧ e'.stepsLeft + 1 = e.stepsLeft := by
  obtain ⟨⟨-, -, -, -, -, -, hsound⟩, hphase, hready, hoff⟩ := h
  rcases hphase with hp | hp | hp | hp
  · obtain ⟨bs, -, heq⟩ := e.emitHeader_eq
    exact ⟨_, Enc.step_header hp hready, by rw [heq]; simp only [Enc.stepsLeft, hp]⟩
  · simp only [Enc.phaseSound, hp] at hsound
    obtain ⟨-, -, hlt, -⟩ := hsound
    obtain ⟨cur, hcur⟩ := hoff e.pidx hlt
    obtain ⟨bs, k, n, -, -, heq⟩ := Enc.pixelStep_appends { e with pidx := e.pidx + 1 } cur
    refine ⟨_, Enc.step_reads ⟨hp, hlt, hcur, hready⟩, ?_⟩
    rw [heq, Enc.leavePixels_eq]
    by_cases hmore : e.pidx + 1 < e.npix
    · simp only [Enc.stepsLeft, hp, hmore, if_true]
      omega
    · simp only [Enc.stepsLeft, hp, hmore, if_false]
      omega
  · exact ⟨_, Enc.step_finish hp hready, by rw [Enc.finish_eq_pendingBytes]; simp only [Enc.stepsLeft, hp]⟩
  · exact absurd hp hnd

/-- A supplied run that is not DONE has a step left. -/
theorem Enc.stepsLeft_eq_zero_iff {e : Enc} (h : e.Supplied) : e.stepsLeft = 0 ↔ e.phase = .done := by
  rcases h.inRun with hp | hp | hp | hp <;> simp [Enc.stepsLeft, hp]

/-- Beside a decoder that is idle, with no input pending, a step of the machine is the encoder's. -/
theorem run_encStep {e e' : Enc} (hs : e.step = some e') :
    Host.Core.run core 1 (State.engines e Dec.reset) = .next (State.engines e' Dec.reset) :=
  run_one (step_of_encStep rfl rfl (encStep_of_step (s := State.engines e Dec.reset) hs))

/-- R170: a supplied run ends DONE, and what each of its steps keeps holds there. -/
theorem Enc.run_to_done {P : Enc → Prop} (hkeep : ∀ e e', e.Supplied → P e → e.step = some e' → P e') {e : Enc}
    (hsup : e.Supplied) (hP : P e) :
    ∃ e', Host.Core.run core e.stepsLeft (State.engines e Dec.reset) = .next (State.engines e' Dec.reset) ∧
      e'.phase = .done ∧ e'.Supplied ∧ P e' := by
  induction hn : e.stepsLeft generalizing e with
  | zero => exact ⟨e, rfl, (Enc.stepsLeft_eq_zero_iff hsup).mp hn, hsup, hP⟩
  | succ n ih =>
    have hnd : e.phase ≠ .done := mt (Enc.stepsLeft_eq_zero_iff hsup).mpr (by omega)
    obtain ⟨e₁, hs, hleft⟩ := Enc.exists_step_of_supplied hsup hnd
    obtain ⟨e', hrun, hrest⟩ := ih (Enc.supplied_step hsup hs) (hkeep e e₁ hsup hP hs) (by omega)
    exact ⟨e', Nat.add_comm 1 n ▸ run_append (run_encStep hs) hrun, hrest⟩

/-! ### The bounds of R182 -/

/-- The bytes of the frames that an encoder has written when it is in a phase (R122, R127). -/
def EncPhase.frameBytes : EncPhase → Nat
  | .idle => 0
  | .header => 0
  | .pixels => 14
  | .finish => 14
  | .done => 22
  | .error => 0

/-- R182: besides the frames, at most 5 bytes for each pixel read, the byte of a pending run counted in advance; and a
byte for every 62 pixels that are not in the pending run. -/
def Enc.sizeBound (e : Enc) : Prop :=
  e.bout + min e.run 1 ≤ e.phase.frameBytes + 5 * e.pidx ∧
    62 * e.phase.frameBytes + e.pidx ≤ 62 * e.bout + e.run

/-- R171, R180: the pending run has a byte exactly if it has a pixel. -/
theorem Enc.length_pendingBytes (e : Enc) : e.pendingBytes.length = min e.run 1 := by
  unfold Enc.pendingBytes
  by_cases h : e.run = 0
  · simp [h]
  · rw [if_neg h, List.length_singleton]
    omega

/-- R90, R174 to R178: a pixel's chunk has between one and five bytes. -/
theorem length_chunkBytes (k : Cache) (prev cur : Colour) :
    1 ≤ (chunkBytes k prev cur).length ∧ (chunkBytes k prev cur).length ≤ 5 := by
  unfold chunkBytes
  repeat' split
  all_goals simp

/-- R182: a pixel that is read adds at most 5 bytes, and either joins the pending run or adds a byte for the at most 62
pixels that then are no longer pending. -/
theorem Enc.sizeBound_pixelStep {e : Enc} (h : e.sizeBound) (hrun : e.run ≤ 61) (cur : Colour) :
    (Enc.pixelStep cur { e with pidx := e.pidx + 1 }).sizeBound := by
  obtain ⟨hmax, hmin⟩ := h
  by_cases hc : cur = e.prev
  · rw [Enc.pixelStep_of_eq_prev (e := { e with pidx := e.pidx + 1 }) hc]
    split
    · simp only [Enc.sizeBound]
      omega
    · simp only [Enc.sizeBound]
      omega
  · rw [Enc.pixelStep_of_ne (e := { e with pidx := e.pidx + 1 }) hc]
    simp only [Enc.sizeBound, List.length_append, Enc.length_pendingBytes]
    obtain ⟨hone, hfive⟩ := length_chunkBytes (Enc.flushedCache { e with pidx := e.pidx + 1 }) e.prev cur
    omega

/-- R171: the pixel loop is left with the frames written that were written before. -/
theorem Enc.sizeBound_setPhase_finish {e : Enc} (h : e.sizeBound) (hp : e.phase = .pixels) :
    (e.setPhase .finish).sizeBound := by
  rw [Enc.sizeBound, hp] at h
  exact h

/-- R171: a pixel step does not change the phase. -/
theorem Enc.pixelStep_phase (e : Enc) (cur : Colour) : (e.pixelStep cur).phase = e.phase := by
  obtain ⟨bs, k, n, -, -, heq⟩ := e.pixelStep_appends cur
  rw [heq]

/-- R182: every step of a sound encoder keeps the bounds. -/
theorem Enc.sizeBound_step {e e' : Enc} (hinv : e.Inv) (h : e.sizeBound) (hs : e.step = some e') : e'.sizeBound := by
  obtain ⟨-, -, -, hrun, -⟩ := hinv
  rcases Enc.step_cases hs with ⟨hp, rfl⟩ | ⟨cur, hp, -, rfl⟩ | ⟨hp, -, rfl⟩ | ⟨hp, rfl⟩
  · obtain ⟨bs, -, heq⟩ := e.emitHeader_eq
    rw [heq]
    simp only [Enc.sizeBound, hp, EncPhase.frameBytes] at h ⊢
    omega
  · have hstep := Enc.sizeBound_pixelStep h hrun cur
    unfold Enc.leavePixels
    split
    · exact hstep
    · exact Enc.sizeBound_setPhase_finish hstep ((Enc.pixelStep_phase _ cur).trans hp)
  · exact Enc.sizeBound_setPhase_finish h hp
  · rw [Enc.finish_eq_pendingBytes]
    simp only [Enc.sizeBound, hp, EncPhase.frameBytes, Enc.length_pendingBytes] at h ⊢
    omega

/-! ### The run from its start -/

/-- R262: a run just started with all its pixels offered is supplied. -/
theorem Enc.supplied_loaded {h : Header} {px : List Colour} (hv : h.valid = true) (hlen : px.length = h.pixels) :
    (Enc.loaded h px).Supplied where
  inv := ⟨Memory.wf_writeColours px Memory.wf_nil 0, Memory.wf_nil, freshCache_sound, Nat.zero_le 61, rfl,
    Memory.filledTo_nil, rfl, hv, rfl, rfl, rfl⟩
  inRun := .inl rfl
  ready := rfl
  offered j hj := by
    have hj' : j < px.length := hlen ▸ hj
    refine ⟨px[j], (Memory.readColour_writeColours px [] 0 j).trans ?_⟩
    rw [if_pos (by omega), Nat.sub_zero, List.getElem?_eq_getElem hj']

/-- R182: the start of a run is within the bounds. -/
theorem Enc.sizeBound_loaded (h : Header) (px : List Colour) : (Enc.loaded h px).sizeBound :=
  ⟨Nat.le_refl 0, Nat.le_refl 0⟩

/-- R170, R182: a step of a supplied run keeps its Header and the bounds. -/
theorem Enc.hdr_and_sizeBound_step {h : Header} {e e' : Enc} (hsup : e.Supplied) (hP : e.hdr = h ∧ e.sizeBound)
    (hs : e.step = some e') : e'.hdr = h ∧ e'.sizeBound := by
  obtain ⟨hhdr, hsize⟩ := hP
  obtain ⟨⟨hsame, -⟩, -⟩ := Enc.step_sameRun hs
  exact ⟨hsame.trans hhdr, Enc.sizeBound_step hsup.inv hsize hs⟩

/-- Settles O58: the run keeps the Header and the bounds, and the invariant says the rest of DONE. -/
theorem encoderRunEnds : Obligations.EncoderRunEnds := by
  intro h px hv hlen
  obtain ⟨e, hrun, hdone, hsup, hhdr, hmax, hmin⟩ :=
    Enc.run_to_done (fun _ _ => Enc.hdr_and_sizeBound_step (h := h)) (Enc.supplied_loaded hv hlen)
      ⟨rfl, Enc.sizeBound_loaded h px⟩
  obtain ⟨-, -, -, -, hnpix, hfill, hsound⟩ := hsup.inv
  simp only [Enc.phaseSound, hdone] at hsound
  obtain ⟨-, -, hpidx, hzero, -⟩ := hsound
  have hall : e.pidx = h.pixels := by rw [hpidx, hnpix, hhdr]
  simp only [hdone, EncPhase.frameBytes, hzero, hall] at hmax hmin
  exact ⟨_, e, hrun, hdone, hall, hzero, hfill, by omega, by omega⟩

end Sys2Proof.Machine
end

section
/-! SUPPORT. The six chunks of the decoder (spec/44_decoder.md R203 to R212): each as the record of what it changes, and
where none of them fires. -/

namespace Sys2Proof.Machine

/-! ### The single-pixel chunks -/

/-- R206, R156: the pixel that the fields of DIFF, less 2, reach from the previous Colour. -/
theorem diffApply_of_isPlus {cur prev : Colour} {dr dg db : Int} (hr : isPlus cur.r prev.r dr)
    (hg : isPlus cur.g prev.g dg) (hb : isPlus cur.b prev.b db) (ha : cur.a = prev.a) :
    diffApply prev dr dg db = cur := by
  rw [diffApply, wrap8_of_isPlus hr, wrap8_of_isPlus hg, wrap8_of_isPlus hb, ← ha]

/-- R207, R157: the pixel that the fields of LUMA, less their biases, reach from the previous Colour. -/
theorem lumaApply_of_isPlus {cur prev : Colour} {dg drdg dbdg : Int} (hr : isPlus cur.r prev.r (drdg + dg))
    (hg : isPlus cur.g prev.g dg) (hb : isPlus cur.b prev.b (dbdg + dg)) (ha : cur.a = prev.a) :
    lumaApply prev dg drdg dbdg = cur := by
  rw [lumaApply, Int.add_assoc, Int.add_assoc, wrap8_of_isPlus hr, wrap8_of_isPlus hg, wrap8_of_isPlus hb, ← ha]

/-- Settles O7: what RGBA produces, and the raise that all chunks share. -/
theorem rgbaProducesItsPayload : Obligations.RgbaProducesItsPayload := fun s n r g b a hn =>
  ⟨producesPixel_rgba s r g b a n hn, truncatedChunkRaises s n (.rgba r g b a) rfl hn⟩

/-- Settles O8: what RGB produces, and the raise that all chunks share. -/
theorem rgbTakesAlphaFromPrev : Obligations.RgbTakesAlphaFromPrev := fun s n r g b hn =>
  ⟨producesPixel_rgb s r g b n hn, truncatedChunkRaises s n (.rgb r g b) rfl hn⟩

/-- Settles O9: what INDEX produces. -/
theorem indexCopiesItsSlot : Obligations.IndexCopiesItsSlot := fun s n i hn => producesPixel_index s i n hn

/-- Settles O10: the pixel that the deltas fix is the one that DIFF computes. -/
theorem diffAddsItsDeltas : Obligations.DiffAddsItsDeltas := by
  intro s n fr fg fb px hn hl hr hg hb ha
  have hpx : diffApply s.dec.prev (unbias 2 fr.toNat) (unbias 2 fg.toNat) (unbias 2 fb.toNat) = px :=
    diffApply_of_isPlus hr hg hb ha
  rw [← hpx]
  exact producesPixel_of_chunk (i := .diff fr fg fb) (px := fun d => diffApply d.prev _ _ _) rfl n hn hl

/-- Settles O11: the pixel that the deltas fix is the one that LUMA computes. -/
theorem lumaAddsItsDeltas : Obligations.LumaAddsItsDeltas := by
  intro s n fg frg fbg px hn hr hg hb ha
  have hpx : lumaApply s.dec.prev (unbias 32 fg.toNat) (unbias 8 frg.toNat) (unbias 8 fbg.toNat) = px :=
    lumaApply_of_isPlus hr hg hb ha
  rw [← hpx]
  exact ⟨producesPixel_of_chunk (i := .luma fg frg fbg) (px := fun d => lumaApply d.prev _ _ _) rfl n hn,
    truncatedChunkRaises s n (.luma fg frg fbg) rfl hn⟩

/-! ### RUN -/

/-- Settles O12: a RUN whose pixels are all owed does not clip. -/
theorem runRepeatsPrev : Obligations.RunRepeatsPrev := by
  intro s n n1 hn hl hfit
  have hend : n ≤ s.dec.pcnt + (n1.toNat + 1) ↔ s.dec.pcnt + (n1.toNat + 1) = n := by omega
  rw [exec_run, Dec.chunk_repeatPrev_owed hn hl (runLength_pos n1) hfit]
  simp only [runLength, hend]
  rfl

/-- Settles O13: the pixels that remain are fewer than the repetitions asked for. -/
theorem runIsClippedAtTheImageEnd : Obligations.RunIsClippedAtTheImageEnd := by
  intro s n n1 hn hl hlong
  obtain ⟨-, -, hlt⟩ := id hn
  have hmin : min (runLength n1) (n - s.dec.pcnt) = n - s.dec.pcnt := by rw [runLength]; omega
  have hcount : s.dec.pcnt + (n - s.dec.pcnt) = n := by omega
  have hclip : decide (n - s.dec.pcnt < runLength n1) = true := decide_eq_true (by rw [runLength]; omega)
  have hend : n ≤ s.dec.pcnt + runLength n1 := Nat.le_of_lt hlong
  rw [exec_run, Dec.chunk_fires hn hl, Dec.repeatPrev_leaveChunks hn 1 (runLength_pos n1), hmin, hcount, hclip,
    Bool.or_true, if_pos hend]
  rfl

/-! ### Where no chunk fires -/

/-- Settles O15, by the frame that all chunks share. -/
theorem noChunkFiresElsewhere : Obligations.NoChunkFiresElsewhere := by
  intro s i hi h
  obtain ⟨act, hact⟩ := exec_eq_chunk hi
  rw [hact, Dec.chunk_elsewhere h]
  rfl

end Sys2Proof.Machine
end

section
/-! SUPPORT. Decoding what was encoded (spec/44_decoder.md R214; spec/41_colour_cache.md R147): at every moment of an encoder
run, a decoder run on the bytes written so far reaches a state that agrees with the encoder on everything but the pending
run. -/

namespace Sys2Proof.Machine

/-! ### A decoder that has decoded what an encoder has written -/

/-- R147, R214: the decoder `d` agrees with the encoder `e` of the Header `h` and the pixels `px`: the engines are in
lockstep, and once the pending run is repeated too, the output of `d` is what `e` has read. -/
structure Dec.Tracks (d : Dec) (h : Header) (px : List Colour) (e : Enc) : Prop where
  hdr : d.hdr = some h
  npix : d.npix = some px.length
  err : d.err = .none
  clip : d.runClip = false
  ready : d.outReady = true
  phase : d.phase = if d.pcnt = px.length then .trailer else .chunks
  lock : lockstep e d
  count : d.pcnt + e.run = e.pidx
  le : e.pidx ≤ px.length
  pixels : ∀ j < e.pidx, (d.pixOut.writeColours d.pcnt (List.replicate e.run e.prev)).readColour j = px[j]?

section
variable {h : Header} {px : List Colour} {d : Dec} {e : Enc}

/-- R28: while it lacks a pixel, such a decoder is in its chunk loop. -/
theorem Dec.Tracks.inChunks (ht : d.Tracks h px e) (hlt : d.pcnt < px.length) : d.inChunks px.length :=
  ⟨ht.phase.trans (if_neg (Nat.ne_of_lt hlt)), ht.npix, hlt⟩

/-- The phase and the output of the encoder are not what the decoder agrees with. -/
theorem Dec.Tracks.congr {e' : Enc} (ht : d.Tracks h px e) (hprev : e'.prev = e.prev) (hcache : e'.cache = e.cache)
    (hrun : e'.run = e.run) (hpidx : e'.pidx = e.pidx) : d.Tracks h px e' where
  __ := ht
  lock := by rw [lockstep, hprev, hcache]; exact ht.lock
  count := by rw [hrun, hpidx]; exact ht.count
  le := hpidx ▸ ht.le
  pixels := by rw [hpidx, hrun, hprev]; exact ht.pixels

/-- R172: a pixel equal to `PREV` joins the pending run. -/
theorem Dec.Tracks.extend (ht : d.Tracks h px e) (hcur : px[e.pidx]? = some e.prev) :
    d.Tracks h px { e with pidx := e.pidx + 1, run := e.run + 1 } where
  __ := ht
  count := by rw [← ht.count, Nat.add_assoc]
  le := (List.getElem?_eq_some_iff.mp hcur).1
  pixels j hj := by
    have hcount := ht.count
    change j < e.pidx + 1 at hj
    rcases Nat.lt_succ_iff_lt_or_eq.mp hj with hlt | rfl
    · rw [← ht.pixels j hlt]
      simp only [Memory.readColour_writeColours, List.length_replicate, List.getElem?_replicate]
      by_cases hpend : d.pcnt ≤ j
      · rw [if_pos (by omega), if_pos (by omega), if_pos (by omega), if_pos (by omega)]
      · rw [if_neg (by omega), if_neg (by omega)]
    · rw [hcur]
      exact Memory.readColour_writeColours_replicate _ _ (by omega) (Nat.lt_succ_of_le hcount.ge)

/-- R173, R208: a RUN of the pending run's length writes the pixels that the decoder lacked. -/
theorem Dec.Tracks.flushRun (ht : d.Tracks h px e) :
    Dec.Tracks { d with
      bpos := d.bpos + 1
      pixOut := d.pixOut.writeColours d.pcnt (List.replicate e.run d.prev)
      pcnt := d.pcnt + e.run
      cache := d.cache.store d.prev
      rrem := 0
      phase := if d.pcnt + e.run = px.length then .trailer else .chunks } h px e.flushRun where
  __ := ht
  phase := rfl
  lock := by
    obtain ⟨hprev, hcache⟩ := ht.lock
    exact ⟨hprev, by rw [← hprev, ← hcache]; rfl⟩
  pixels := by
    obtain ⟨hprev, -⟩ := ht.lock
    rw [← hprev]
    exact ht.pixels

/-- R209: a chunk that produces the next pixel, when no run is pending. -/
theorem Dec.Tracks.produced (ht : d.Tracks h px e) (hrun : e.run = 0) {cur : Colour} (hcur : px[e.pidx]? = some cur)
    (len : Nat) :
    (d.produced len cur).Tracks h px { e with pidx := e.pidx + 1, cache := e.cache.store cur, prev := cur } where
  __ := ht
  phase := by
    simp only [Dec.produced, ht.npix, Option.some.injEq, eq_comm]
  lock := ⟨rfl, congrArg (Cache.store · cur) ht.lock.2⟩
  count := by rw [← ht.count, Nat.add_right_comm]; rfl
  le := (List.getElem?_eq_some_iff.mp hcur).1
  pixels j hj := by
    have hcount := ht.count
    have hpix := ht.pixels j
    simp only [hrun, Nat.add_zero, List.replicate_zero, Memory.writeColours] at hcount hpix ⊢
    rw [Dec.produced, Memory.readColour_writeColour, hcount]
    split
    · next heq => rw [heq, hcur]
    · next hne => exact hpix (by simp only at hj; omega)

end

/-! ### One step of the decoder on the bytes that come next -/

/-- R60: the bytes `bs` are the next of the decoder's input, and they are all before `BLEN`. -/
def Dec.holds (d : Dec) (bs : List Byte) : Prop :=
  d.bpos + bs.length ≤ d.blen ∧ d.byteIn.readMany d.bpos bs.length = some bs

/-- R27: a step of the machine takes the decoder `d`, beside an encoder that is idle, to `d'`, past the bytes `bs`. -/
def Dec.stepsPast (d d' : Dec) (bs : List Byte) : Prop :=
  step (State.engines Enc.reset d) = .next (State.engines Enc.reset d') ∧
    d'.byteIn = d.byteIn ∧ d'.blen = d.blen ∧ d'.bpos = d.bpos + bs.length

/-- R201: the encoding of a chunk is executed as this chunk. -/
theorem Dec.step_of_holds {d : Dec} {n : Nat} {i : Instr} (hn : d.inChunks n) (hready : d.outReady = true)
    (hi : placeOf i = .chunk) (hw : i.wellFormed = true) (hb : d.holds (encode i)) :
    step (State.engines Enc.reset d) = exec i (State.engines Enc.reset d) := by
  obtain ⟨hl, hread⟩ := hb
  rw [length_encode_of_chunk hi] at hl hread
  have hdecode : decode .chunk (encode i) = .ok (i, []) := hi ▸ decode_of_encode_eq hw rfl
  exact step_of_run rfl (Dec.fetch_chunk hn.1 (Dec.owes_of_inChunks hn) hready hl hread hdecode)

section
variable {h : Header} {px : List Colour} {d : Dec} {e : Enc}

/-- R173, R208: the byte of a flush takes the decoder to where it agrees with the encoder after the flush. -/
theorem Dec.Tracks.step_flushRun (ht : d.Tracks h px e) (hlo : 1 ≤ e.run) (hhi : e.run ≤ 62)
    (hb : d.holds [runByte e.run]) : ∃ d', d.stepsPast d' [runByte e.run] ∧ d'.Tracks h px e.flushRun := by
  have hcount := ht.count
  have hle := ht.le
  have hn : d.inChunks px.length := ht.inChunks (by omega)
  have hrun : (runPayload e.run).toNat + 1 = e.run := runLength_runPayload hlo hhi
  have hstep := Dec.step_of_holds hn ht.ready rfl (wellFormed_runPayload hlo hhi) (runByte_eq_encode hlo hhi ▸ hb)
  rw [runRepeatsPrev (State.engines Enc.reset d) px.length (runPayload e.run) hn hb.1
    (by rw [hrun]; exact hcount.trans_le hle), hrun] at hstep
  exact ⟨_, ⟨hstep, rfl, rfl, rfl⟩, ht.flushRun⟩

/-- R174 to R178, R209: the chunk of a pixel takes the decoder to where it agrees with the encoder after the pixel. -/
theorem Dec.Tracks.step_chunk (ht : d.Tracks h px e) (hrun : e.run = 0) {cur : Colour} (hcur : px[e.pidx]? = some cur)
    {i : Instr} (hi : placeOf i = .chunk) (hw : i.wellFormed = true)
    (hpx : producesPixel i cur (State.engines Enc.reset d)) (hb : d.holds (encode i)) :
    ∃ d', d.stepsPast d' (encode i) ∧
      d'.Tracks h px { e with pidx := e.pidx + 1, cache := e.cache.store cur, prev := cur } := by
  have hcount := ht.count
  have hlt := (List.getElem?_eq_some_iff.mp hcur).1
  have hn : d.inChunks px.length := ht.inChunks (by omega)
  have hlen := length_encode_of_chunk hi
  have hstep := Dec.step_of_holds hn ht.ready hi hw hb
  rw [hpx px.length hn (hlen ▸ hb.1)] at hstep
  exact ⟨_, ⟨hstep, rfl, rfl, congrArg (d.bpos + ·) hlen.symm⟩, ht.produced hrun hcur _⟩

end

/-! ### A decoder run on what an encoder has written so far -/

/-- R214: a decoder run on any stream that begins with the first `pos` bytes that the encoder `e` has written reaches
offset `pos`, in a state that agrees with `e`. -/
def Enc.DecodedTo (e : Enc) (h : Header) (px : List Colour) (pos : Nat) : Prop :=
  ∀ (m : Memory) (blen : Nat), pos ≤ blen → (∀ a < pos, m.read a = e.byteOut.read a) →
    ∃ (k : Nat) (d : Dec),
      Host.Core.run core k (State.engines Enc.reset (Dec.loaded blen m)) = .next (State.engines Enc.reset d) ∧
        d.byteIn = m ∧ d.blen = blen ∧ d.bpos = pos ∧ d.Tracks h px e

/-- Bytes that were written are read in every stream that agrees with the one they were written to. -/
theorem Memory.readMany_of_agrees {m m' : Memory} {pos n : Nat} {bs : List Byte} (hn : bs.length = n)
    (hm : ∀ a < pos + n, m.read a = (m'.writeMany pos bs).read a) : m.readMany pos n = some bs := by
  refine (Memory.readMany_eq_some_iff _ _ _ _).mpr ⟨hn, fun k hk => ?_⟩
  rw [hm _ (by omega), Memory.read_writeMany, if_pos (by omega), Nat.add_sub_cancel_left, List.getElem?_eq_getElem hk]

section
variable {h : Header} {px : List Colour} {e : Enc}

/-- What an encoder does with its phase, and the bytes that it writes further on, leave the decoder where it is. -/
theorem Enc.DecodedTo.congr {e' : Enc} {pos : Nat} (he : e.DecodedTo h px pos) (hprev : e'.prev = e.prev)
    (hcache : e'.cache = e.cache) (hrun : e'.run = e.run) (hpidx : e'.pidx = e.pidx)
    (hout : ∀ a < pos, e'.byteOut.read a = e.byteOut.read a) : e'.DecodedTo h px pos := by
  intro m blen hle hm
  obtain ⟨k, d, hk, hin, hlen, hpos, ht⟩ := he m blen hle fun a ha => (hm a ha).trans (hout a ha)
  exact ⟨k, d, hk, hin, hlen, hpos, ht.congr hprev hcache hrun hpidx⟩

/-- Bytes on which one step of the decoder does what the encoder did when it wrote them. -/
theorem Enc.DecodedTo.write {e' : Enc} {pos : Nat} {bs : List Byte} (he : e.DecodedTo h px pos)
    (hout : e'.byteOut = e.byteOut.writeMany pos bs)
    (hstep : ∀ d : Dec, d.Tracks h px e → d.holds bs → ∃ d', d.stepsPast d' bs ∧ d'.Tracks h px e') :
    e'.DecodedTo h px (pos + bs.length) := by
  intro m blen hle hm
  rw [hout] at hm
  have hbefore : ∀ a < pos, m.read a = e.byteOut.read a := fun a ha => by
    rw [hm a (by omega), Memory.read_writeMany, if_neg (by omega)]
  obtain ⟨k, d, hk, rfl, rfl, rfl, ht⟩ := he m blen (by omega) hbefore
  obtain ⟨d', ⟨hs, hin, hlen, hpos⟩, ht'⟩ := hstep d ht ⟨hle, Memory.readMany_of_agrees rfl hm⟩
  exact ⟨k + 1, d', run_append hk (run_one hs), hin, hlen, hpos, ht'⟩

/-- R173: a flush is decoded. -/
theorem Enc.DecodedTo.flushRun (he : e.DecodedTo h px e.bout) (hlo : 1 ≤ e.run) (hhi : e.run ≤ 62) :
    e.flushRun.DecodedTo h px e.flushRun.bout :=
  he.write (bs := [runByte e.run]) rfl fun _ ht hb => ht.step_flushRun hlo hhi hb

/-- R171, R180: so is the flush of a pending run, if there is one. -/
theorem Enc.DecodedTo.flushPending (he : e.DecodedTo h px e.bout) (hhi : e.run ≤ 62) :
    e.flushPending.DecodedTo h px e.flushPending.bout := by
  unfold Enc.flushPending
  split
  · next hlo => exact he.flushRun hlo hhi
  · exact he

/-- R172: a pixel equal to `PREV` is decoded, the flush at 62 included. -/
theorem Enc.DecodedTo.pixelStep_prev (he : e.DecodedTo h px e.bout) (hrun : e.run ≤ 61)
    (hcur : px[e.pidx]? = some e.prev) :
    (Enc.pixelStep e.prev { e with pidx := e.pidx + 1 }).DecodedTo h px
      (Enc.pixelStep e.prev { e with pidx := e.pidx + 1 }).bout := by
  have hext : Enc.DecodedTo { e with pidx := e.pidx + 1, run := e.run + 1 } h px e.bout := by
    intro m blen hle hm
    obtain ⟨k, d, hk, hin, hlen, hpos, ht⟩ := he m blen hle hm
    exact ⟨k, d, hk, hin, hlen, hpos, ht.extend hcur⟩
  rw [Enc.pixelStep, if_pos rfl, Enc.extendRun]
  split
  · exact hext.flushRun (Nat.le_add_left 1 _) (Nat.succ_le_succ hrun)
  · exact hext

/-- R171, R179: with no run pending, a pixel other than `PREV` is decoded. -/
theorem Enc.DecodedTo.pixelStep_of_run_zero (he : e.DecodedTo h px e.bout) (hrun : e.run = 0) {cur : Colour}
    (hne : cur ≠ e.prev) (hcur : px[e.pidx]? = some cur) :
    (Enc.pixelStep cur { e with pidx := e.pidx + 1 }).DecodedTo h px
      (Enc.pixelStep cur { e with pidx := e.pidx + 1 }).bout := by
  obtain ⟨i, hi, hw, hbs, hpx⟩ := Enc.emitPixel_producesPixel { e with pidx := e.pidx + 1 } cur
  rw [Enc.pixelStep_of_run_zero (e := { e with pidx := e.pidx + 1 }) hrun hne hbs]
  refine he.write rfl fun d ht hb => ?_
  obtain ⟨d', hpast, ht'⟩ := ht.step_chunk hrun hcur hi hw (hpx (State.engines Enc.reset d) ht.lock) hb
  exact ⟨d', hpast, ht'.congr rfl rfl rfl rfl⟩

/-- R171: a pixel other than `PREV` is encoded as if the pending run had been flushed before it was read. -/
theorem Enc.pixelStep_flushPending {cur : Colour} (hne : cur ≠ e.prev) :
    Enc.pixelStep cur { e with pidx := e.pidx + 1 } =
      Enc.pixelStep cur { e.flushPending with pidx := e.flushPending.pidx + 1 } := by
  have hread : Enc.flushPending { e with pidx := e.pidx + 1 } =
      { e.flushPending with pidx := e.flushPending.pidx + 1 } := by
    rw [Enc.flushPending_eq, Enc.flushPending_eq]
    rfl
  have hne' : cur ≠ e.flushPending.prev := by rwa [Enc.flushPending_eq]
  have hrun : Enc.run { e.flushPending with pidx := e.flushPending.pidx + 1 } = 0 := by rw [Enc.flushPending_eq]
  rw [Enc.pixelStep, if_neg hne, hread, Enc.pixelStep, if_neg hne', Enc.flushPending_of_run_zero hrun]

/-- R171: every pixel that the encoder reads is decoded. -/
theorem Enc.DecodedTo.pixelStep (he : e.DecodedTo h px e.bout) (hrun : e.run ≤ 61) {cur : Colour}
    (hcur : px[e.pidx]? = some cur) :
    (Enc.pixelStep cur { e with pidx := e.pidx + 1 }).DecodedTo h px
      (Enc.pixelStep cur { e with pidx := e.pidx + 1 }).bout := by
  by_cases hprev : cur = e.prev
  · subst hprev
    exact he.pixelStep_prev hrun hcur
  · have hflush := e.flushPending_eq
    rw [Enc.pixelStep_flushPending hprev]
    refine (he.flushPending (by omega)).pixelStep_of_run_zero ?_ ?_ ?_
    · rw [hflush]
    · rwa [hflush]
    · rwa [hflush]

end

/-! ### The frames -/

/-- R123: a decoder run just started executes the HEADER that its stream begins with. -/
theorem Dec.step_loaded_header {h : Header} (hv : h.valid = true) {m : Memory} {blen : Nat} (hle : 14 ≤ blen)
    (hread : m.readMany 0 14 = some (encode (.header h.w h.h h.ch h.cs))) :
    step (State.engines Enc.reset (Dec.loaded blen m)) = .next (State.engines Enc.reset { Dec.loaded blen m with
      bpos := 14
      hdr := some h
      npix := some h.pixels
      phase := .chunks }) := by
  have hdecode : decode .frameStart (encode (.header h.w h.h h.ch h.cs)) = .ok (.header h.w h.h h.ch h.cs, []) := by
    rw [← List.append_nil (encode _)]
    exact decodeHeader_encode h.w h.h h.ch h.cs []
  have hfetch : (Dec.loaded blen m).fetch = .run (.header h.w h.h h.ch h.cs) :=
    Dec.fetch_header rfl hle hread hdecode
  rw [step_of_run (s := State.engines Enc.reset (Dec.loaded blen m)) rfl hfetch, exec_header_complete rfl hle,
    Dec.takeHeader_of_valid hv]
  rfl

/-- R122: the output after the Header is written. -/
theorem Enc.emitHeader_byteOut (e : Enc) :
    e.emitHeader.byteOut = e.byteOut.writeMany e.bout (encode (.header e.hdr.w e.hdr.h e.hdr.ch e.hdr.cs)) := by
  rw [Enc.emitHeader_eq_encode, Enc.setPhase_byteOut, Enc.bytesWrite_eq]

/-- R122, R123: the HEADER that the encoder writes is decoded. -/
theorem Enc.decodedTo_emitHeader {h : Header} {px : List Colour} (hv : h.valid = true) (hlen : px.length = h.pixels) :
    (Enc.loaded h px).emitHeader.DecodedTo h px 14 := by
  intro m blen hle hm
  have hpos : 0 < px.length := hlen ▸ Header.pixels_pos hv
  have hout : (Enc.loaded h px).emitHeader.byteOut = Memory.writeMany [] 0 (encode (.header h.w h.h h.ch h.cs)) :=
    (Enc.loaded h px).emitHeader_byteOut
  have hread : m.readMany 0 14 = some (encode (.header h.w h.h h.ch h.cs)) :=
    Memory.readMany_of_agrees (Laws.EncodeLength.header h.w h.h h.ch h.cs) fun a ha => by rw [hm a (by omega), hout]
  exact ⟨1, _, run_one (Dec.step_loaded_header hv hle hread), rfl, rfl, rfl,
    { hdr := rfl
      npix := congrArg some hlen.symm
      err := rfl
      clip := rfl
      ready := rfl
      phase := (if_neg (Nat.ne_of_lt hpos)).symm
      lock := ⟨rfl, rfl⟩
      count := rfl
      le := Nat.zero_le _
      pixels := fun _ hj => absurd hj (Nat.not_lt_zero _) }⟩

/-- R127, R180: when the encoder finishes, all before the end marker is decoded. -/
theorem Enc.DecodedTo.finish {h : Header} {px : List Colour} {e : Enc} (he : e.DecodedTo h px e.bout)
    (hrun : e.run ≤ 61) :
    ∃ pos, e.finish.bout = pos + 8 ∧ e.finish.byteOut.readMany pos 8 = some Config.endMarker ∧
      e.finish.DecodedTo h px pos := by
  have hfinish : e.finish = (e.flushPending.bytesWrite Config.endMarker).setPhase .done := rfl
  rw [Enc.bytesWrite_eq] at hfinish
  rw [hfinish]
  refine ⟨e.flushPending.bout, rfl, Memory.readMany_of_agrees rfl fun _ _ => rfl, ?_⟩
  refine (he.flushPending (by omega)).congr rfl rfl rfl rfl fun a ha => ?_
  exact (Memory.read_writeMany _ _ _ _).trans (if_neg (by omega))

/-- R129: a decoder that agrees with an encoder whose pixels are all flushed, with the end marker left, ends DONE without a
warning. -/
theorem Dec.Tracks.step_endMarker {h : Header} {px : List Colour} {d : Dec} {e : Enc} (ht : d.Tracks h px e)
    (hall : d.pcnt = px.length) (htrail : d.trail = some Config.endMarker) :
    step (State.engines Enc.reset d) = .next (State.engines Enc.reset (d.checkTrailer Config.endMarker)) := by
  have hp : d.phase = .trailer := ht.phase.trans (if_pos hall)
  rw [step_of_run (s := State.engines Enc.reset d) rfl (Dec.fetch_trailer hp htrail)]
  exact exec_endMarker_of_trail hp htrail

/-! ### The whole run -/

/-- R214: what the encoder has written is decoded, in every phase of a run; in DONE all of it but the end marker. -/
def Enc.writtenDecodes (e : Enc) (h : Header) (px : List Colour) : Prop :=
  match e.phase with
  | .header => e = Enc.loaded h px
  | .pixels => e.DecodedTo h px e.bout
  | .finish => e.DecodedTo h px e.bout
  | .done => ∃ pos, e.bout = pos + 8 ∧ e.byteOut.readMany pos 8 = some Config.endMarker ∧ e.DecodedTo h px pos
  | .idle => False
  | .error => False

/-- R63: an input buffer of pixels reads as these pixels. -/
theorem Memory.readColour_writeColours_nil (px : List Colour) (j : Nat) :
    (Memory.writeColours [] 0 px).readColour j = px[j]? := by
  rw [Memory.readColour_writeColours]
  split
  · rfl
  · rw [List.getElem?_eq_none (by omega)]
    rfl

/-- R170, R171: leaving the pixel phase or not, the encoder is in PIXELS or in FINISH with what it wrote decoded. -/
theorem Enc.writtenDecodes_leavePixels {h : Header} {px : List Colour} {e : Enc} (hp : e.phase = .pixels)
    (he : e.DecodedTo h px e.bout) : e.leavePixels.writtenDecodes h px := by
  rw [Enc.leavePixels]
  split
  · rw [Enc.writtenDecodes, hp]
    exact he
  · exact he.congr rfl rfl rfl rfl fun _ _ => rfl

/-- R214: every step of a run keeps what is written decoded. -/
theorem Enc.writtenDecodes_step {h : Header} {px : List Colour} (hv : h.valid = true) (hlen : px.length = h.pixels)
    {e e' : Enc} (hsup : e.Supplied) (hrunOf : (Enc.loaded h px).sameRun e) (he : e.writtenDecodes h px)
    (hs : e.step = some e') : e'.writtenDecodes h px := by
  obtain ⟨-, hnpix, hin, -⟩ := hrunOf
  obtain ⟨-, -, -, hrun, -, -, hsound⟩ := hsup.inv
  rcases hsup.inRun with hp | hp | hp | hp
  · rw [Enc.writtenDecodes, hp] at he
    subst he
    obtain rfl := Option.some.inj ((Enc.step_header hp hsup.ready).symm.trans hs)
    exact Enc.decodedTo_emitHeader hv hlen
  · rw [Enc.writtenDecodes, hp] at he
    simp only [Enc.phaseSound, hp] at hsound
    obtain ⟨-, -, hlt, -⟩ := hsound
    obtain ⟨cur, hcur⟩ := hsup.offered e.pidx hlt
    obtain rfl := Option.some.inj ((Enc.step_reads ⟨hp, hlt, hcur, hsup.ready⟩).symm.trans hs)
    have hpixel : px[e.pidx]? = some cur := by
      rw [← Memory.readColour_writeColours_nil, ← hcur, hin]
      rfl
    exact Enc.writtenDecodes_leavePixels ((Enc.pixelStep_phase _ cur).trans hp) (he.pixelStep hrun hpixel)
  · rw [Enc.writtenDecodes, hp] at he
    obtain rfl := Option.some.inj ((Enc.step_finish hp hsup.ready).symm.trans hs)
    exact he.finish hrun
  · simp only [Enc.step, hp, reduceCtorEq] at hs

/-- A run reads the same at its next step. -/
theorem Enc.sameRun_trans {e e₁ e₂ : Enc} (h₁ : e.sameRun e₁) (h₂ : e₁.sameRun e₂) : e.sameRun e₂ := by
  obtain ⟨hhdr, hnpix, hin, hready⟩ := h₁
  obtain ⟨hhdr', hnpix', hin', hready'⟩ := h₂
  exact ⟨hhdr'.trans hhdr, hnpix'.trans hnpix, hin'.trans hin, hready'.trans hready⟩

/-- R170, R214: an encoder run from its start ends DONE with all it has written decoded but the end marker. -/
theorem Enc.run_writtenDecodes {h : Header} {px : List Colour} (hv : h.valid = true) (hlen : px.length = h.pixels) :
    ∃ (k : Nat) (e : Enc),
      Host.Core.run core k (State.engines (Enc.loaded h px) Dec.reset) = .next (State.engines e Dec.reset) ∧
      e.phase = .done ∧ e.pidx = px.length ∧ e.run = 0 ∧ e.writtenDecodes h px := by
  obtain ⟨e, hk, hdone, hsup, hrunOf, he⟩ :=
    Enc.run_to_done (P := fun e => (Enc.loaded h px).sameRun e ∧ e.writtenDecodes h px)
      (fun _ _ hsup ⟨hrunOf, he⟩ hs =>
        ⟨Enc.sameRun_trans hrunOf (Enc.step_sameRun hs).1, Enc.writtenDecodes_step hv hlen hsup hrunOf he hs⟩)
      (Enc.supplied_loaded hv hlen) ⟨⟨rfl, rfl, rfl, rfl⟩, rfl⟩
  obtain ⟨-, -, -, -, -, -, hsound⟩ := hsup.inv
  simp only [Enc.phaseSound, hdone] at hsound
  obtain ⟨-, -, hpidx, hzero, -⟩ := hsound
  obtain ⟨-, hnpix, -⟩ := hrunOf
  exact ⟨_, e, hk, hdone, hpidx.trans (hnpix.trans hlen.symm), hzero, he⟩

/-- Settles O60: the decoder run on the output of the encoder run reaches the end marker in agreement with the encoder, and
the trailer check ends it. -/
theorem roundTrip : Obligations.RoundTrip := by
  intro h px hv hlen
  obtain ⟨k, e, hk, hdone, hpidx, hzero, he⟩ := Enc.run_writtenDecodes hv hlen
  rw [Enc.writtenDecodes, hdone] at he
  obtain ⟨pos, hbout, hmark, he⟩ := he
  obtain ⟨m, d, hm, hin, hblen, rfl, ht⟩ := he e.byteOut e.bout (by omega) fun _ _ => rfl
  have hall : d.pcnt = px.length := by
    have hcount := ht.count
    omega
  have htrail : d.trail = some Config.endMarker := by
    rw [Dec.trail, hin, hblen, hbout, Nat.add_sub_cancel_left, hmark]
  refine ⟨k, m + 1, e, _, hk, hdone, run_append hm (run_one (ht.step_endMarker hall htrail)), rfl, ht.err, ht.hdr, rfl,
    ht.clip, hbout.symm, hall, fun j hj => ?_⟩
  have hpixels := ht.pixels j (hpidx ▸ hj)
  rwa [hzero] at hpixels

end Sys2Proof.Machine
end

section
/-! SUPPORT. A whole run of the decoder (spec/44_decoder.md R216; spec/60_exceptions.md R238; spec/70_reset_and_hazards.md
R262, R268): with its whole stream offered and the host accepting pixels it never waits, and each step brings it closer to
DONE or ERROR. -/

namespace Sys2Proof.Machine

/-! ### What a run keeps, and the steps it has left -/

/-- R262, R268: a run from HEADER to its end that is sound and never waits, for the host accepts pixels and has offered
every byte. In DONE the trailing bytes are drained and nothing more is asked of the host. -/
structure Dec.Supplied (d : Dec) : Prop where
  inv : d.Inv
  inRun : d.phase ≠ .idle
  ready : d.phase ≠ .done → d.outReady = true
  offered : d.phase ≠ .done → ∀ a < d.blen, (d.byteIn.read a).isSome = true

/-- R216, R238: the run is over. -/
def Dec.over (d : Dec) : Prop := d.phase = .done ∨ d.phase = .error

/-- R27: at most so many steps to the end: the HEADER frame, a chunk for each byte left, the trailer check. -/
def Dec.stepsLeft (d : Dec) : Nat :=
  match d.phase with
  | .header => d.blen - d.bpos + 2
  | .chunks => d.blen - d.bpos + 1
  | .trailer => 1
  | .idle => 0
  | .done => 0
  | .error => 0

/-- What a run reads and no step but the last writes: its input and the host's readiness. -/
def Dec.sameInput (d d' : Dec) : Prop :=
  d'.blen = d.blen ∧ d'.outReady = d.outReady ∧ d'.byteIn = d.byteIn

/-- Bytes of which each is there can be read together. -/
theorem Memory.exists_readMany {m : Memory} {n a : Nat} (h : ∀ k < n, (m.read (a + k)).isSome = true) :
    ∃ bs, m.readMany a n = some bs := by
  induction n generalizing a with
  | zero => exact ⟨[], rfl⟩
  | succ n ih =>
    obtain ⟨b, hb⟩ := Option.isSome_iff_exists.mp (h 0 (Nat.succ_pos n))
    obtain ⟨bs, hbs⟩ := ih (a := a + 1) fun k hk => by
      rw [Nat.add_assoc, Nat.add_comm 1 k]
      exact h (k + 1) (by omega)
    rw [Nat.add_zero] at hb
    exact ⟨b :: bs, by rw [Memory.readMany, hb, hbs]⟩

/-- R60: before its end, a supplied run has the bytes left offered. -/
theorem Dec.Supplied.left {d : Dec} (h : d.Supplied) (hnd : d.phase ≠ .done) :
    ∃ S, d.byteIn.readMany d.bpos (d.blen - d.bpos) = some S :=
  Memory.exists_readMany fun k hk => h.offered hnd (d.bpos + k) (by omega)

theorem Dec.Supplied.bpos_le {d : Dec} (h : d.Supplied) : d.bpos ≤ d.blen := ((Dec.inv_iff d).mp h.inv).1.bpos_le

/-! ### The next move -/

/-- R201: in CHUNKS, with the bytes left offered and the host accepting, the decoder executes a chunk whose bytes are there,
or raises at BLEN. -/
theorem Dec.fetch_chunks_of_left {d : Dec} {n : Nat} {S : List Byte} (hn : d.inChunks n) (hready : d.outReady = true)
    (hle : d.bpos ≤ d.blen) (hS : d.byteIn.readMany d.bpos (d.blen - d.bpos) = some S) :
    d.fetch = .moved d.truncate ∨
      ∃ i, placeOf i = .chunk ∧ d.bpos + instrLength i ≤ d.blen ∧ d.fetch = .run i := by
  have ho := Dec.owes_of_inChunks hn
  have hlen := ((Memory.readMany_eq_some_iff _ _ _ _).mp hS).1
  by_cases hshort : ∀ b1 rest, S = b1 :: rest → d.blen < d.bpos + chunkLength b1
  · exact .inl (Dec.fetch_chunk_truncated hn.1 ho hle hS hshort)
  · push Not at hshort
    obtain ⟨b1, rest, rfl, hl⟩ := hshort
    have hfit : chunkLength b1 ≤ rest.length + 1 := by
      rw [List.length_cons] at hlen
      omega
    obtain ⟨i, hi, hw, henc⟩ := exists_encode_eq_take hfit
    have hilen : instrLength i = chunkLength b1 := by
      rw [← length_encode_of_chunk hi, henc, List.length_take, List.length_cons, Nat.min_eq_left hfit]
    rw [← hilen] at hl henc
    rw [show d.blen - d.bpos = instrLength i + (d.blen - d.bpos - instrLength i) by omega] at hS
    obtain ⟨hread, -⟩ := Memory.readMany_split hS
    exact .inr ⟨i, hi, hl, Dec.fetch_chunk hn.1 ho hready hl hread (hi ▸ decode_of_encode_eq hw henc)⟩

/-- R123: in HEADER, with the bytes left offered, the decoder executes a HEADER or raises an error. -/
theorem Dec.fetch_header_of_left {d : Dec} {S : List Byte} (hp : d.phase = .header) (hle : d.bpos ≤ d.blen)
    (hS : d.byteIn.readMany d.bpos (d.blen - d.bpos) = some S) :
    (∃ d', d.fetch = .moved d') ∨ ∃ w h ch cs, d.fetch = .run (.header w h ch cs) := by
  by_cases h4 : S.length < 4
  · exact .inl ⟨_, Dec.fetch_header_shortMagic hp hle hS h4⟩
  rw [Nat.not_lt] at h4
  by_cases hm : S.take 4 = Config.magic
  · by_cases h14 : S.length < 14
    · exact .inl ⟨_, Dec.fetch_header_shortFields hp hle hS h4 h14 hm⟩
    · rw [Nat.not_lt] at h14
      exact .inr ⟨_, _, _, _, Dec.fetch_header_complete hp hle hS h14 (decodeHeader_take h14 hm)⟩
  · exact .inl ⟨_, Dec.fetch_header_badMagic hp hle hS h4 hm⟩

/-! ### A step brings the end closer -/

/-- R27, R28: the decoder `d'` is closer to the end of the run than `d`, on the same input unless it is DONE. -/
structure Dec.Closer (d d' : Dec) : Prop where
  inRun : d'.phase ≠ .idle
  left : d'.stepsLeft < d.stepsLeft
  input : d'.phase ≠ .done → d.sameInput d'

/-- R28: a run that is not over has a step left. -/
theorem Dec.stepsLeft_pos {d : Dec} (h : d.phase = .header ∨ d.phase = .chunks ∨ d.phase = .trailer) :
    0 < d.stepsLeft := by
  rcases h with h | h | h <;> simp [Dec.stepsLeft, h]

/-- R235: an error ends the run. -/
theorem Dec.closer_of_error {d d' : Dec} (h : d.phase = .header ∨ d.phase = .chunks) (hin : d.sameInput d')
    (he : d'.phase = .error) : d.Closer d' where
  inRun := by simp [he]
  left := by
    have hleft : d'.stepsLeft = 0 := by simp only [Dec.stepsLeft, he]
    exact hleft ▸ Dec.stepsLeft_pos (h.imp_right .inl)
  input _ := hin

/-- R234: an error raised while reading ends the run. -/
theorem Dec.closer_of_raisedWhileReading {d d' : Dec} (h : d.phase = .header ∨ d.phase = .chunks)
    (hr : d.raisedWhileReading d') : d.Closer d' := by
  obtain ⟨n, k, -, -, rfl⟩ := hr
  exact Dec.closer_of_error h ⟨rfl, rfl, rfl⟩ rfl

/-- R123, R125: HEADER enters CHUNKS or ends the run. -/
theorem exec_header_closer {s : State} (hp : s.dec.phase = .header) (w h : Word) (ch cs : Byte) :
    ∃ d', exec (.header w h ch cs) s = .next (s.setDec d') ∧ s.dec.Closer d' := by
  by_cases hl : s.dec.bpos + 14 ≤ s.dec.blen
  · refine ⟨_, exec_header_complete hp hl w h ch cs, ?_⟩
    by_cases hv : Header.valid ⟨w, h, ch, cs⟩ = true
    · rw [Dec.takeHeader_of_valid hv]
      refine ⟨by simp, ?_, fun _ => ⟨rfl, rfl, rfl⟩⟩
      simp only [Dec.stepsLeft, hp, Dec.advance]
      omega
    · rw [Dec.takeHeader_of_invalid hv]
      exact Dec.closer_of_error (.inl hp) ⟨rfl, rfl, rfl⟩ rfl
  · refine ⟨s.dec.truncate, ?_, Dec.closer_of_error (.inl hp) ⟨rfl, rfl, rfl⟩ rfl⟩
    rw [exec_header_eq, if_pos hp, if_neg hl]

/-- R90: every instruction has a byte. -/
theorem instrLength_pos (i : Instr) : 0 < instrLength i := by
  cases i <;> simp [instrLength]

/-- R201, R209, R208: a chunk that fires moves past its bytes, and goes on in CHUNKS or to TRAILER. -/
theorem exec_chunk_fires {s : State} {n : Nat} {i : Instr} (hi : placeOf i = .chunk) (hn : s.dec.inChunks n)
    (hl : s.dec.bpos + instrLength i ≤ s.dec.blen) :
    ∃ d', exec i s = .next (s.setDec d') ∧ s.dec.sameInput d' ∧ d'.bpos = s.dec.bpos + instrLength i ∧
      (d'.phase = .trailer ∨ d'.phase = .chunks) := by
  rcases exec_chunk_cases hi with ⟨px, hpx⟩ | ⟨n1, rfl⟩
  · refine ⟨s.dec.produced (instrLength i) (px (s.dec.advance (instrLength i))), ?_, ⟨rfl, rfl, rfl⟩, rfl,
      ite_eq_or_eq _ _ _⟩
    rw [hpx, Dec.chunk_single hn hl]
  · refine ⟨(Dec.repeatPrev (runLength n1) (s.dec.advance 1)).leaveChunks, ?_, ?_⟩
    · rw [exec_run, Dec.chunk_fires (len := 1) hn hl]
    · rw [Dec.repeatPrev_leaveChunks hn 1 (runLength_pos n1)]
      exact ⟨⟨rfl, rfl, rfl⟩, rfl, ite_eq_or_eq _ _ _⟩

/-- R27: a chunk that fires brings the end closer by at least one byte. -/
theorem exec_chunk_closer {s : State} {n : Nat} {i : Instr} (hi : placeOf i = .chunk) (hn : s.dec.inChunks n)
    (hl : s.dec.bpos + instrLength i ≤ s.dec.blen) : ∃ d', exec i s = .next (s.setDec d') ∧ s.dec.Closer d' := by
  obtain ⟨d', hx, hin, hbpos, hphase⟩ := exec_chunk_fires hi hn hl
  have hpos := instrLength_pos i
  have hblen := hin.1
  refine ⟨d', hx, ?_, ?_, fun _ => hin⟩
  · rcases hphase with hp | hp <;> simp [hp]
  · rcases hphase with hp | hp
    · simp only [Dec.stepsLeft, hn.1, hp]
      omega
    · simp only [Dec.stepsLeft, hn.1, hp]
      omega

/-- R28, R268: a supplied run that is not over takes a step, which brings its end closer. -/
theorem Dec.exists_step_of_supplied {d : Dec} (h : d.Supplied) (hno : ¬ d.over) :
    ∃ d', step (State.engines Enc.reset d) = .next (State.engines Enc.reset d') ∧ d.Closer d' := by
  have hnd : d.phase ≠ .done := fun hp => hno (.inl hp)
  have hle := h.bpos_le
  obtain ⟨S, hS⟩ := h.left hnd
  obtain ⟨-, hsound⟩ := (Dec.inv_iff d).mp h.inv
  have hmoved {d' : Dec} (hf : d.fetch = .moved d') :
      step (State.engines Enc.reset d) = .next (State.engines Enc.reset d') :=
    step_of_decStep rfl (decStep_of_moved (s := State.engines Enc.reset d) hf)
  have hrun {i : Instr} (hf : d.fetch = .run i) :
      step (State.engines Enc.reset d) = exec i (State.engines Enc.reset d) := step_of_run rfl hf
  cases hp : d.phase with
  | idle => exact absurd hp h.inRun
  | done => exact absurd hp hnd
  | error => exact absurd (.inr hp) hno
  | header =>
    rcases Dec.fetch_header_of_left hp hle hS with ⟨d', hf⟩ | ⟨w, hh, ch, cs, hf⟩
    · rcases Dec.fetch_moved hle hf with ⟨-, hr⟩ | ⟨hp', -⟩
      · exact ⟨d', hmoved hf, Dec.closer_of_raisedWhileReading (.inl hp) hr⟩
      · rw [hp] at hp'
        cases hp'
    · obtain ⟨d', hx, hcloser⟩ := exec_header_closer (s := State.engines Enc.reset d) hp w hh ch cs
      exact ⟨d', (hrun hf).trans hx, hcloser⟩
  | chunks =>
    simp only [Dec.phaseSound, hp] at hsound
    obtain ⟨⟨hd, -, -, hnpix, -⟩, howes, -⟩ := hsound
    have hn : d.inChunks hd.pixels := ⟨hp, hnpix, (Dec.owes_iff hnpix).mp howes⟩
    rcases Dec.fetch_chunks_of_left hn (h.ready hnd) hle hS with hf | ⟨i, hi, hl, hf⟩
    · exact ⟨_, hmoved hf, Dec.closer_of_error (.inr hp) ⟨rfl, rfl, rfl⟩ rfl⟩
    · obtain ⟨d', hx, hcloser⟩ := exec_chunk_closer (s := State.engines Enc.reset d) hi hn hl
      exact ⟨d', (hrun hf).trans hx, hcloser⟩
  | trailer =>
    refine ⟨d.checkTrailer S, (hrun (Dec.fetch_trailer hp hS)).trans (exec_endMarker_of_trail hp hS), by simp, ?_,
      fun hdone => absurd rfl hdone⟩
    exact Dec.stepsLeft_pos (.inr (.inr hp))

/-- R201: a supplied run stays supplied. -/
theorem Dec.supplied_step {d d' : Dec} (h : d.Supplied) (hnd : d.phase ≠ .done)
    (hs : step (State.engines Enc.reset d) = .next (State.engines Enc.reset d')) (hc : d.Closer d') : d'.Supplied where
  inv := (stepKeepsTheInvariant (State.engines Enc.reset d) _ ⟨Enc.inv_reset, h.inv⟩ hs).2
  inRun := hc.inRun
  ready hnd' := by
    obtain ⟨-, hready, -⟩ := hc.input hnd'
    exact hready.trans (h.ready hnd)
  offered hnd' := by
    obtain ⟨hblen, -, hin⟩ := hc.input hnd'
    rw [hblen, hin]
    exact h.offered hnd

/-- R216: a supplied run ends. -/
theorem Dec.run_to_end {d : Dec} (h : d.Supplied) :
    ∃ (k : Nat) (d' : Dec),
      Host.Core.run core k (State.engines Enc.reset d) = .next (State.engines Enc.reset d') ∧ d'.over ∧
        d'.Supplied := by
  induction hn : d.stepsLeft using Nat.strong_induction_on generalizing d with
  | _ n ih =>
    by_cases hover : d.over
    · exact ⟨0, d, rfl, hover, h⟩
    · obtain ⟨d₁, hs, hcloser⟩ := Dec.exists_step_of_supplied h hover
      obtain ⟨k, d', hk, hend⟩ :=
        ih d₁.stepsLeft (hn ▸ hcloser.left) (Dec.supplied_step h (fun hp => hover (.inl hp)) hs hcloser) rfl
      exact ⟨1 + k, d', run_append (run_one hs) hk, hend⟩

/-- R238: once a run is over, no step changes anything (log 10). -/
theorem Dec.step_of_over {d : Dec} (h : d.over) :
    step (State.engines Enc.reset d) = .next (State.engines Enc.reset d) := by
  have hfetch : d.fetch = .idle := by
    rcases h with hp | hp <;> simp only [Dec.fetch, hp]
  have hdec : decStep (State.engines Enc.reset d) = none := by
    simp only [decStep, State.engines, hfetch]
  change enginesStep (State.engines Enc.reset d) = _
  rw [enginesStep, hdec]
  rfl

/-! ### The run from its start -/

/-- R63: the pixels of a filled buffer can be read. -/
theorem Memory.readColour_of_filledTo {m : Memory} {n j : Nat} (h : m.filledTo (4 * n)) (hj : j < n) :
    (m.readColour j).isSome = true := by
  obtain ⟨r, hr⟩ := Option.isSome_iff_exists.mp ((h (4 * j)).mpr (by omega))
  obtain ⟨g, hg⟩ := Option.isSome_iff_exists.mp ((h (4 * j + 1)).mpr (by omega))
  obtain ⟨b, hb⟩ := Option.isSome_iff_exists.mp ((h (4 * j + 2)).mpr (by omega))
  obtain ⟨a, ha⟩ := Option.isSome_iff_exists.mp ((h (4 * j + 3)).mpr (by omega))
  simp only [Memory.readColour, hr, hg, hb, ha, Option.isSome_some]

/-- R262: a run just started with its whole stream offered is supplied. -/
theorem Dec.supplied_loaded {S : List Byte} (hS : S.length < 2 ^ 64) :
    (Dec.loaded S.length (Memory.writeMany [] 0 S)).Supplied where
  inv := ⟨Memory.wf_writeMany S Memory.wf_nil 0, Memory.wf_nil, freshCache_sound, rfl, Nat.zero_le _, hS,
    Memory.filledTo_nil, rfl, rfl, rfl, rfl, rfl, rfl, rfl⟩
  inRun := nofun
  ready _ := rfl
  offered _ a ha := by
    have hfill := Memory.filledTo_writeMany Memory.filledTo_nil S
    exact (hfill a).mpr (by rwa [Nat.zero_add])

/-- R216: a sound decoder that is DONE has counted exactly its Header's pixels. -/
theorem Dec.pixels_of_done {d : Dec} (h : d.Inv) (hp : d.phase = .done) :
    d.err = .none ∧ ∃ hd : Header, hd.valid = true ∧ d.hdr = some hd ∧ d.pcnt = hd.pixels ∧
      ∀ j < hd.pixels, (d.pixOut.readColour j).isSome = true := by
  obtain ⟨herr, hd, hv, hhdr, hfill⟩ := Dec.output_of_done h hp
  obtain ⟨-, hsound⟩ := (Dec.inv_iff d).mp h
  simp only [Dec.phaseSound, hp] at hsound
  obtain ⟨⟨hd', -, hhdr', hnpix, -⟩, hcount⟩ := hsound
  obtain rfl := Option.some.inj (hhdr.symm.trans hhdr')
  exact ⟨herr, hd, hv, hhdr, Option.some.inj (hcount.symm.trans hnpix), fun _ => Memory.readColour_of_filledTo hfill⟩

/-- Settles O59: the run ends, and the invariant says what the end is. -/
theorem decoderRunEnds : Obligations.DecoderRunEnds := by
  intro S hS
  obtain ⟨k, d, hk, hover, hsup⟩ := Dec.run_to_end (Dec.supplied_loaded hS)
  refine ⟨k, d, hk, Dec.step_of_over hover, ?_⟩
  rcases hover with hp | hp
  · exact .inr ⟨hp, Dec.pixels_of_done hsup.inv hp⟩
  · exact .inl ⟨hp, (Dec.phase_eq_error_iff ((Dec.inv_iff d).mp hsup.inv).2).mp hp⟩

end Sys2Proof.Machine
end

section
/-! SUPPORT. What a step of the machine can do to each engine (spec/10_state.md R35, spec/60_exceptions.md R236, R240;
spec/70_reset_and_hazards.md R260): the host moves its ports, the engine moves itself, or a start command of the
engine or hardware reset is taken. Only the last two leave ERROR. -/

namespace Sys2Proof.Machine

/-! ### What the host leaves of an engine -/

/-- R60, R268: the host has at most offered bytes, or begun or stopped accepting pixels; no register is another. -/
def Dec.movesPorts (d d' : Dec) : Prop := ∃ m r, d' = { d with byteIn := m, outReady := r }

/-- R63, R268: the host has at most offered pixels, or begun or stopped accepting bytes; no register is another. -/
def Enc.movesPorts (e e' : Enc) : Prop := ∃ m r, e' = { e with pixIn := m, outReady := r }

theorem Dec.movesPorts_of_eq {d d' : Dec} (h : d' = d) : d.movesPorts d' := ⟨d.byteIn, d.outReady, h⟩

theorem Enc.movesPorts_of_eq {e e' : Enc} (h : e' = e) : e.movesPorts e' := ⟨e.pixIn, e.outReady, h⟩

/-- R238: the decoder's state and error are registers, which the ports do not touch. -/
theorem Dec.movesPorts.status {d d' : Dec} (h : d.movesPorts d') :
    d'.phase = d.phase ∧ d'.err = d.err ∧ d'.errpos = d.errpos := by
  obtain ⟨_, _, rfl⟩ := h
  exact ⟨rfl, rfl, rfl⟩

/-- R238: the encoder's state and error are registers, which the ports do not touch. -/
theorem Enc.movesPorts.status {e e' : Enc} (h : e.movesPorts e') : e'.phase = e.phase ∧ e'.err = e.err := by
  obtain ⟨_, _, rfl⟩ := h
  exact ⟨rfl, rfl⟩

/-- A step of the encoder engine, as the decoder and the encoder see it. -/
theorem encStep_next {s t : State} (h : encStep s = some (.next t)) : t.dec = s.dec ∧ s.enc.step = some t.enc := by
  obtain ⟨e, he, heq⟩ := encStep_cases h
  obtain rfl := Host.Outcome.next.inj heq
  exact ⟨rfl, he⟩

/-- R35: a step of the decoder engine leaves the encoder. -/
theorem decStep_enc {s t : State} (h : decStep s = some (.next t)) : t.enc = s.enc :=
  (decStep_beside_enc h s.enc).1

/-- 93 U7: an alteration that the machine takes changes the encoder's input port. -/
theorem hostInput_alterPixel_next {s t : State} {k : Nat} {c : Colour} (h : hostInput (.alterPixel k c) s = .next t) :
    t = s.setEnc { s.enc with pixIn := s.enc.pixIn.writeColour k c } := by
  simp only [hostInput] at h
  split at h
  · exact (Host.Outcome.next.inj h).symm
  · cases h

/-- 93 U7: an alteration that the machine takes changes the decoder's input port. -/
theorem hostInput_alterByte_next {s t : State} {off : Nat} {b : Byte} (h : hostInput (.alterByte off b) s = .next t) :
    t = s.setDec { s.dec with byteIn := s.dec.byteIn.write off b } := by
  simp only [hostInput] at h
  split at h
  · exact (Host.Outcome.next.inj h).symm
  · cases h

/-! ### What a step can do to the decoder -/

/-- R30, R240: what one input of the host does to the decoder. -/
theorem hostInput_dec_cases {x : Input} {s t : State} (hs : hostInput x s = .next t) :
    s.dec.movesPorts t.dec ∨ decStep s = some (.next t) ∨ (∃ n, x = .decStart n) ∨ x = .hardReset := by
  cases x with
  | decStart n => exact .inr (.inr (.inl ⟨n, rfl⟩))
  | hardReset => exact .inr (.inr (.inr rfl))
  | encStart | offerPixel | encAccept =>
    obtain rfl := Host.Outcome.next.inj hs
    exact .inl (Dec.movesPorts_of_eq rfl)
  | offerByte | decAccept =>
    obtain rfl := Host.Outcome.next.inj hs
    exact .inl ⟨_, _, rfl⟩
  | alterPixel k c =>
    obtain rfl := hostInput_alterPixel_next hs
    exact .inl (Dec.movesPorts_of_eq rfl)
  | alterByte off b =>
    obtain rfl := hostInput_alterByte_next hs
    exact .inl ⟨_, _, rfl⟩
  | turn e =>
    cases e with
    | enc =>
      rcases getD_next_cases hs with he | rfl
      · exact .inl (Dec.movesPorts_of_eq (encStep_next he).1)
      · exact .inl (Dec.movesPorts_of_eq rfl)
    | dec =>
      rcases getD_next_cases hs with hd | rfl
      · exact .inr (.inl hd)
      · exact .inl (Dec.movesPorts_of_eq rfl)

/-- What a step of the machine does to the decoder. -/
theorem step_dec_cases {s t : State} (hs : step s = .next t) :
    s.dec.movesPorts t.dec ∨ (∃ l, decStep (s.setInputs l) = some (.next t)) ∨
      (∃ n rest, s.inputs = .decStart n :: rest) ∨ (∃ rest, s.inputs = .hardReset :: rest) := by
  cases hi : s.inputs with
  | cons x rest =>
    rw [step_of_input hi] at hs
    rcases hostInput_dec_cases hs with hports | hd | ⟨n, rfl⟩ | rfl
    · exact .inl hports
    · exact .inr (.inl ⟨rest, hd⟩)
    · exact .inr (.inr (.inl ⟨n, rest, rfl⟩))
    · exact .inr (.inr (.inr ⟨rest, rfl⟩))
  | nil =>
    have hsame : s.setInputs [] = s := by rw [← hi]; rfl
    simp only [step, hi] at hs
    rcases enginesStep_cases hs with hd | he | rfl
    · exact .inr (.inl ⟨[], hsame.symm ▸ hd⟩)
    · exact .inl (Dec.movesPorts_of_eq (encStep_next he).1)
    · exact .inl (Dec.movesPorts_of_eq rfl)

/-! ### What a step can do to the encoder -/

/-- R30, R120: what one input of the host does to the encoder. -/
theorem hostInput_enc_cases {x : Input} {s t : State} (hs : hostInput x s = .next t) :
    s.enc.movesPorts t.enc ∨ s.enc.step = some t.enc ∨ (∃ w h ch cs, x = .encStart w h ch cs) ∨ x = .hardReset := by
  cases x with
  | encStart w h ch cs => exact .inr (.inr (.inl ⟨w, h, ch, cs, rfl⟩))
  | hardReset => exact .inr (.inr (.inr rfl))
  | decStart | offerByte | decAccept =>
    obtain rfl := Host.Outcome.next.inj hs
    exact .inl (Enc.movesPorts_of_eq rfl)
  | offerPixel | encAccept =>
    obtain rfl := Host.Outcome.next.inj hs
    exact .inl ⟨_, _, rfl⟩
  | alterPixel k c =>
    obtain rfl := hostInput_alterPixel_next hs
    exact .inl ⟨_, _, rfl⟩
  | alterByte off b =>
    obtain rfl := hostInput_alterByte_next hs
    exact .inl (Enc.movesPorts_of_eq rfl)
  | turn e =>
    cases e with
    | enc =>
      rcases getD_next_cases hs with he | rfl
      · exact .inr (.inl (encStep_next he).2)
      · exact .inl (Enc.movesPorts_of_eq rfl)
    | dec =>
      rcases getD_next_cases hs with hd | rfl
      · exact .inl (Enc.movesPorts_of_eq (decStep_enc hd))
      · exact .inl (Enc.movesPorts_of_eq rfl)

/-- What a step of the machine does to the encoder. -/
theorem step_enc_cases {s t : State} (hs : step s = .next t) :
    s.enc.movesPorts t.enc ∨ s.enc.step = some t.enc ∨
      (∃ w h ch cs rest, s.inputs = .encStart w h ch cs :: rest) ∨ (∃ rest, s.inputs = .hardReset :: rest) := by
  cases hi : s.inputs with
  | cons x rest =>
    rw [step_of_input hi] at hs
    rcases hostInput_enc_cases hs with hports | he | ⟨w, h, ch, cs, rfl⟩ | rfl
    · exact .inl hports
    · exact .inr (.inl he)
    · exact .inr (.inr (.inl ⟨w, h, ch, cs, rest, rfl⟩))
    · exact .inr (.inr (.inr ⟨rest, rfl⟩))
  | nil =>
    simp only [step, hi] at hs
    rcases enginesStep_cases hs with hd | he | rfl
    · exact .inl (Enc.movesPorts_of_eq (decStep_enc hd))
    · exact .inr (.inl (encStep_next he).2)
    · exact .inl (Enc.movesPorts_of_eq rfl)

/-! ### Errors -/

/-- R236: in ERROR the decoder has no step of its own. -/
theorem decStep_of_error {s : State} (hp : s.dec.phase = .error) : decStep s = none := by
  simp only [decStep, Dec.fetch, hp]

/-- R236: in ERROR the encoder has no step of its own. -/
theorem Enc.step_of_error {e : Enc} (hp : e.phase = .error) : e.step = none := by
  simp only [Enc.step, hp]

/-- Settles O24, by what a step can do to each engine: an engine in ERROR has no step of its own, and the host's ports
leave its registers. -/
theorem errorIsLeftOnlyByStartOrReset : Obligations.ErrorIsLeftOnlyByStartOrReset := by
  refine fun s t hs => ⟨fun hp => ?_, fun hp => ?_⟩
  · rcases step_dec_cases hs with hports | ⟨l, hd⟩ | hcommand
    · exact .inl (hp ▸ hports.status)
    · cases (decStep_of_error (s := s.setInputs l) hp).symm.trans hd
    · exact .inr hcommand
  · rcases step_enc_cases hs with hports | he | hcommand
    · exact .inl (hp ▸ hports.status)
    · cases (Enc.step_of_error hp).symm.trans he
    · exact .inr hcommand

/-- Settles O23: `raise` is defined as that update of three registers. -/
theorem raiseWritesExactlyThree : Obligations.RaiseWritesExactlyThree := fun _ _ => rfl

end Sys2Proof.Machine
end

section
/-! SUPPORT. Hardware reset (spec/70_reset_and_hazards.md R260) and waiting (R268): an encoder without its next pixel,
or with bytes that are not accepted, has no step, and the fetch of a decoder whose next bytes are not offered, or whose
pixels are not accepted, gives nothing to do. -/

namespace Sys2Proof.Machine

/-! ### Reset -/

/-- R260: engines that are reset hold the values of the rule's table, whatever the host accepts and has pending. -/
theorem State.isReset_of_engines_reset (encReady decReady : Bool) (l : List Input) :
    State.isReset ⟨{ Enc.reset with outReady := encReady }, { Dec.reset with outReady := decReady }, l⟩ :=
  ⟨rfl, rfl, rfl, rfl, fun i => ⟨freshCache_lookup i, freshCache_lookup i⟩,
    rfl, rfl, rfl, rfl, rfl, rfl, rfl, rfl, rfl, rfl, rfl, rfl, rfl, rfl, rfl⟩

/-- Settles O48: hardware reset is taken as the pending input, and it and the reset state hold reset engines. -/
theorem hardwareReset : Obligations.HardwareReset :=
  ⟨fun _ _ hi => ⟨_, step_of_input hi, State.isReset_of_engines_reset _ _ _⟩,
    State.isReset_of_engines_reset true true []⟩

/-- Settles O54, engine by engine. -/
theorem resetIsSound : Obligations.ResetIsSound := ⟨Enc.inv_reset, Dec.inv_reset⟩

/-! ### The machine waits -/

/-- R268: with nothing pending and no step of either engine, nothing changes (log 10). -/
theorem step_of_waiting {s : State} (hi : s.inputs = []) (he : s.enc.step = none) (hd : decStep s = none) :
    step s = .next s := by
  have hes : encStep s = none := by simp only [encStep, he]
  simp only [step, hi, enginesStep, hd, hes, Option.getD_none]

/-! ### The encoder waits -/

/-- R63, R268: in PIXELS the encoder waits for a pixel that is not offered. -/
theorem Enc.step_of_no_pixel {e : Enc} (hp : e.phase = .pixels) (hl : e.pidx < e.npix)
    (hc : e.pixIn.readColour e.pidx = none) : e.step = none := by
  simp only [Enc.step, hp, if_pos hl, Enc.pixRead, hc]

/-- R122, R180, R268: the encoder's header and its end wait until the host accepts bytes. -/
theorem Enc.step_of_frame_not_accepted {e : Enc} (hr : e.outReady = false)
    (hp : e.phase = .header ∨ e.phase = .finish) : e.step = none := by
  rcases hp with hp | hp <;> simp only [Enc.step, hp, hr, Bool.false_eq_true, if_false]

/-- R171, R268: a pixel whose step writes a byte waits until the host accepts bytes. -/
theorem Enc.step_of_pixel_not_accepted {e : Enc} {cur : Colour} (hr : e.outReady = false) (hp : e.phase = .pixels)
    (hl : e.pidx < e.npix) (hc : e.pixIn.readColour e.pidx = some cur)
    (hw : (Enc.pixelStep cur { e with pidx := e.pidx + 1 }).bout ≠ e.bout) : e.step = none := by
  have hread : e.pixRead = some (cur, { e with pidx := e.pidx + 1 }) := by simp only [Enc.pixRead, hc]
  have hready : ¬ e.outReady = true := Bool.eq_false_iff.mp hr
  simp only [Enc.step, hp, if_pos hl]
  rw [hread]
  exact if_neg (not_or.mpr ⟨hw, hready⟩)

/-- R172 to R178: a pixel that differs from `PREV` writes its chunk, and the 62nd of a run writes FD. -/
theorem Enc.pixelStep_bout_ne {e : Enc} {cur : Colour} (h : cur ≠ e.prev ∨ e.run = 61) :
    (e.pixelStep cur).bout ≠ e.bout := by
  by_cases hne : cur = e.prev
  · have hrun : e.run = 61 := h.resolve_left (not_not.mpr hne)
    rw [Enc.pixelStep_of_eq_prev hne, if_pos hrun]
    exact Nat.succ_ne_self e.bout
  · have hlen := (length_chunkBytes e.flushedCache e.prev cur).1
    rw [Enc.pixelStep_of_ne hne]
    simp only [List.length_append]
    omega

/-! ### The decoder waits -/

/-- R268: when the fetch gives nothing to do, the decoder has no step. -/
theorem decStep_of_idle {s : State} (h : s.dec.fetch = .idle) : decStep s = none := by
  simp only [decStep, h]

/-- Bytes of which one is not there cannot be read together. -/
theorem Memory.readMany_eq_none {m : Memory} {a n k : Nat} (hlo : a ≤ k) (hhi : k < a + n) (hk : m.read k = none) :
    m.readMany a n = none := by
  refine Option.eq_none_iff_forall_ne_some.mpr fun bs hbs => ?_
  obtain ⟨hlen, hread⟩ := (Memory.readMany_eq_some_iff m n a bs).mp hbs
  have hk' := hread (k - a) (by omega)
  rw [Nat.add_sub_cancel' hlo, hk] at hk'
  cases hk'

section
variable {d : Dec} {k : Nat} (hl : k < d.blen) (hk : d.byteIn.read k = none)
include hl hk

/-- R123, R268: in HEADER the decoder waits for a byte of the magic, and after the magic for a byte of the fields. -/
theorem Dec.fetch_header_waiting (hp : d.phase = .header) (h0 : d.bpos ≤ k) (hn : k < d.bpos + 14)
    (hm : k < d.bpos + 4 ∨ d.byteIn.readMany d.bpos 4 = some Config.magic) : d.fetch = .idle := by
  by_cases h4 : k < d.bpos + 4
  · have hr : d.readBytes 4 = .waiting := Dec.readBytes_waiting h0 h4 hl hk
    simp only [Dec.fetch, hp, Dec.fetchHeader, hr]
  · have hr : d.readBytes 4 = .got Config.magic (d.advance 4) :=
      Dec.readBytes_of_readMany 4 d _ (by omega) (hm.resolve_left h4)
    have hr' : (d.advance 4).readBytes 10 = .waiting :=
      Dec.readBytes_waiting (k := k) (by rw [Dec.advance_bpos]; omega) (by rw [Dec.advance_bpos]; omega) hl hk
    simp only [Dec.fetch, hp, Dec.fetchHeader, hr, ne_eq, not_true_eq_false, if_false, hr']

/-- R201, R268: in CHUNKS the decoder waits for a payload byte of the chunk whose first byte is there. -/
theorem Dec.fetch_chunk_waiting_payload {b1 : Byte} (hp : d.phase = .chunks) (ho : d.owes = true)
    (hb : d.byteIn.read d.bpos = some b1) (h0 : d.bpos < k) (hn : k < d.bpos + chunkLength b1) : d.fetch = .idle := by
  have hr : d.byteRead = .got b1 (d.advance 1) := by
    simp only [Dec.byteRead, hb]
    exact if_neg (by omega)
  have hr' : (d.advance 1).readBytes (chunkLength b1 - 1) = .waiting :=
    Dec.readBytes_waiting (k := k) h0 (by rw [Dec.advance_bpos]; omega) hl hk
  simp only [Dec.fetch, hp, Dec.fetchChunk, ho, if_true, hr, hr']

/-- R129, R268: in TRAILER the decoder waits for a trailing byte. -/
theorem Dec.fetch_trailer_waiting (hp : d.phase = .trailer) (h0 : d.bpos ≤ k) : d.fetch = .idle := by
  have ht : d.trail = none := Memory.readMany_eq_none h0 (by omega) hk
  simp only [Dec.fetch, hp, Dec.fetchTrailer, ht, Option.isSome_none, Bool.false_eq_true, if_false]

end

/-- R201, R268: in CHUNKS the decoder waits for the first byte of a chunk. -/
theorem Dec.fetch_chunk_waiting_first {d : Dec} (hp : d.phase = .chunks) (ho : d.owes = true) (hl : d.bpos < d.blen)
    (hb : d.byteIn.read d.bpos = none) : d.fetch = .idle := by
  have hr : d.byteRead = .waiting := by
    simp only [Dec.byteRead, hb]
    exact if_neg (Nat.not_le.mpr hl)
  simp only [Dec.fetch, hp, Dec.fetchChunk, ho, if_true, hr]

/-- R63, R268: in CHUNKS a chunk whose bytes are there waits until the host accepts pixels. -/
theorem Dec.fetch_chunk_not_accepted {d : Dec} {b1 : Byte} {bs : List Byte} (hp : d.phase = .chunks)
    (ho : d.owes = true) (hready : d.outReady = false) (hl : d.bpos + chunkLength b1 ≤ d.blen)
    (hb : d.byteIn.readMany d.bpos (chunkLength b1) = some (b1 :: bs)) : d.fetch = .idle := by
  have hpos := chunkLength_pos b1
  obtain ⟨hr, hrest⟩ := Dec.byteRead_of_readMany_cons hl hb
  have hr' : (d.advance 1).readBytes (chunkLength b1 - 1) = .got bs ((d.advance 1).advance (chunkLength b1 - 1)) :=
    Dec.readBytes_of_readMany _ (d.advance 1) _ (by rw [Dec.advance_bpos, Dec.advance_blen]; omega) hrest
  simp only [Dec.fetch, hp, Dec.fetchChunk, ho, if_true, hr, hr', hready, Bool.false_eq_true, if_false]

/-- Settles O25: the machine, the encoder and the decoder, at each place where they wait. -/
theorem waitingChangesNothing : Obligations.WaitingChangesNothing := by
  refine ⟨fun _ => step_of_waiting, fun e => ⟨Enc.step_of_no_pixel, Enc.step_of_frame_not_accepted, ?pixel⟩,
    fun s => ⟨?header, ?first, ?payload, ?accept, ?trailer⟩⟩
  case pixel =>
    intro cur hr hp hl hc h
    exact Enc.step_of_pixel_not_accepted hr hp hl hc (Enc.pixelStep_bout_ne (e := { e with pidx := e.pidx + 1 }) h)
  case header =>
    exact fun k hp h0 hn hl hk hm => decStep_of_idle (Dec.fetch_header_waiting hl hk hp h0 hn hm)
  case first =>
    exact fun hp ho hl hb => decStep_of_idle (Dec.fetch_chunk_waiting_first hp ho hl hb)
  case payload =>
    exact fun b1 k hp ho hb h0 hn hl hk => decStep_of_idle (Dec.fetch_chunk_waiting_payload hl hk hp ho hb h0 hn)
  case accept =>
    exact fun b1 bs hp ho hready hl hb => decStep_of_idle (Dec.fetch_chunk_not_accepted hp ho hready hl hb)
  case trailer =>
    exact fun k hp h0 hl hk => decStep_of_idle (Dec.fetch_trailer_waiting hl hk hp h0)

end Sys2Proof.Machine
end
